-- ==== Sys2Proof/Word.lean ====
section
/-! DEFINITION. The byte type and the two address-like types every other file uses
(`00_scope.md` R11, `10_state.md` R24, `30_encoding.md` R105). -/

namespace Sys2Proof

/-- A byte, 8 bits, unsigned 0..255 (R11). -/
abbrev Byte := BitVec 8

/-- A symbol: the u16 that stands for a field name or a loop-variable name (R105). -/
abbrev Sym := BitVec 16

/-- A bank identifier or version, u32 (R14). -/
abbrev BankId := BitVec 32

end Sys2Proof
end

