-- ==== Sys2Proof/Config.lean ====
section
/-! DEFINITION. The fixed parameters of the block (`00_scope.md` R8) and the parameters the spec
leaves to an implementation (R9, `20_memory.md` R72). The second group is a structure that `State`
carries and no step changes: "a model takes each one as an argument". -/

namespace Sys2Proof.Config

/-- `BLOCK_LEN`: bytes per block frame (R8). -/
def blockLen : Nat := 32000

/-- `PAYLOAD_LEN`: payload bytes per block (R8). -/
def payloadLen : Nat := 31996

/-- `TRAILER_LEN`: block CRC trailer bytes (R8). -/
def trailerLen : Nat := 4

/-- `CRC_POLY`: the CRC polynomial (R8). -/
def crcPoly : BitVec 16 := 0x1021

/-- `CRC_INIT`: the CRC running state at the start of every computation (R8, R123). -/
def crcInit : BitVec 16 := 0

/-- `OPCODE`: the bank-stream sentinel byte (R8, R84). -/
def opcodeByte : Byte := 0x60

/-- `BANK_HDR_LEN`: bank_id and bank_version (R8). -/
def bankHdrLen : Nat := 8

/-- `TBC_SKIP`: bytes discarded after TO_BE_CONTD (R8). -/
def tbcSkipLen : Nat := 5

/-- The capacities the spec leaves open (R9) and the base of the register block (R72). -/
structure Params where
  /-- `MAX_BANK_BYTES`: capacity of the bank buffer. -/
  maxBankBytes : Nat
  /-- `MAX_EVENT_BANKS`: capacity of the event buffer, in banks; at least 1 (R208). -/
  maxEventBanks : Nat
  /-- `MAX_RECIPE_BYTES`: capacity of one recipe image. -/
  maxRecipeBytes : Nat
  /-- `MAX_EXPR_DEPTH`: maximum nesting depth of one expression. -/
  maxExprDepth : Nat
  /-- `MAX_RESULT_VALUES`: maximum number of scalars one DECODE extracts. -/
  maxResultValues : Nat
  /-- `CSR_BASE`: where the platform places the register block (R72). -/
  csrBase : Nat
deriving DecidableEq, Repr

/-- The parameter values `State.reset` carries. DESIGN CHOICE (log entry 3): the spec leaves every one
of them open; a statement of this package holds for every value of `State.params`. -/
def defaultParams : Params where
  maxBankBytes := 4294967296
  maxEventBanks := 4294967296
  maxRecipeBytes := 4294967296
  maxExprDepth := 65536
  maxResultValues := 4294967296
  csrBase := 0

end Sys2Proof.Config
end

