-- ==== Sys2Proof/Machine/Crc.lean ====
section
/-! DEFINITION. The CRC engine CRCE (`40_crc.md`): a pure function with no state of its own. -/

namespace Sys2Proof.Machine

/-- `reflect8(b)`: the byte with its bit order reversed, `REF[b]` (R12, R121). -/
def reflect8 (b : Byte) : Byte := b.reverse

/-- `hi8(s) = s[15:8]` (R13). -/
def hi8 (s : BitVec 16) : Byte := s.extractLsb' 8 8

/-- `lo8(s) = s[7:0]` (R13). -/
def lo8 (s : BitVec 16) : Byte := s.extractLsb' 0 8

/-- One round of the polynomial division on a 16-bit value (R122). -/
def crcRound (c : BitVec 16) : BitVec 16 :=
  if c.getLsbD 15 then (c <<< 1) ^^^ Config.crcPoly else c <<< 1

/-- `step(c)`: eight rounds (R122). -/
def crcStep (c : BitVec 16) : BitVec 16 := Nat.repeat crcRound 8 c

/-- `T[j] = step(j << 8)` (R122). -/
def crcTable (j : Byte) : BitVec 16 := crcStep (j.setWidth 16 <<< 8)

/-- The running state after one more byte (R124). -/
def crcUpdate (s : BitVec 16) (b : Byte) : BitVec 16 :=
  crcTable (reflect8 b ^^^ hi8 s) ^^^ ((lo8 s).setWidth 16 <<< 8)

/-- The result from the running state (R125). -/
def crcFinish (s : BitVec 16) : BitVec 16 :=
  (reflect8 (hi8 s)).setWidth 16 ||| ((reflect8 (lo8 s)).setWidth 16 <<< 8)

/-- The running state after a byte sequence, from a given state (R123, R128). -/
def crcRun (s : BitVec 16) (bytes : List Byte) : BitVec 16 := bytes.foldl crcUpdate s

/-- `crc(bytes)` (R120, R126). -/
def crc (bytes : List Byte) : BitVec 16 := crcFinish (crcRun Config.crcInit bytes)

/-- One round of the bit-serial form (R127). -/
def crcSerialRound (c : BitVec 16) : BitVec 16 :=
  if c.getLsbD 0 then (c >>> 1) ^^^ 0x8408 else c >>> 1

/-- One byte of the bit-serial form (R127). -/
def crcSerialUpdate (c : BitVec 16) (b : Byte) : BitVec 16 :=
  Nat.repeat crcSerialRound 8 (c ^^^ b.setWidth 16)

/-- The bit-serial form of the whole function (R127), which R127 says gives the same result. -/
def crcSerial (bytes : List Byte) : BitVec 16 := bytes.foldl crcSerialUpdate 0

end Sys2Proof.Machine
end

