-- ==== Sys2Proof/Machine/State.lean ====
section
/-! DEFINITION. The state of the block (`10_state.md`), one structure per unit, the host's side of its
ports, the reasons a step can stop, and the state after power-on. Plain data throughout. -/

namespace Sys2Proof.Machine

/-! ## Names of states and codes -/

/-- `run_state` (R28). The encoding 3 of STATUS.RUN_STATE is never produced (R42). -/
inductive RunState where
  | running | done | error
deriving DecidableEq, Repr

/-- `bra_state`, the BRA's FSM state (R32). -/
inductive BraState where
  | scan | verb | sbNum | segLen | segData | tbcSkip | ebCrc
deriving DecidableEq, Repr

/-- `rin_state` (R37). -/
inductive RinState where
  | idle | busy | done
deriving DecidableEq, Repr

/-- The stream error codes of `err_code`, 0 to 6 (R271); 7 to 15 are never produced. -/
inductive StreamError where
  | none | shortBlock | crcMismatch | bankCrcMismatch | bankTooShort | bankOverflow | eventOverflow
deriving DecidableEq, Repr

/-- The RIN result codes of `rin_code`, 0 to 7 (R283); 8 to 15 are never produced. -/
inductive RinCode where
  | ok | noRecipe | truncatedPayload | malformedRecipe | unresolvedSymbol | notScalarInteger
  | negativeCount | capacity
deriving DecidableEq, Repr

/-! ## Records (`00_scope.md` R14 to R16) -/

/-- A Bank (R14). `Bank.wf` in `Operands.lean` says its fields are those of its data. -/
structure Bank where
  bankId      : BankId
  bankVersion : BitVec 32
  data        : List Byte
deriving DecidableEq, Repr

/-- An Event: an ordered list of Banks, possibly empty (R15). -/
structure Event where
  banks : List Bank
deriving DecidableEq, Repr

/-- A scalar value: `Int(n)`, `Flt(4, bits)` or `Flt(8, bits)` (R16). -/
inductive Scalar where
  | int (n : Int)
  | flt4 (bits : BitVec 32)
  | flt8 (bits : BitVec 64)
deriving DecidableEq, Repr

/-- What one iteration of an operation reads (R242): a scalar (`c = 1`) or a flat `Seq` (`c ≠ 1`). -/
inductive Item where
  | one (v : Scalar)
  | many (vs : List Scalar)
deriving DecidableEq, Repr

/-- A value of a decoded record (R16). A `Seq` nests at most once (R256), so its elements are scalars
(`Item.one`) or flat `Seq`s (`Item.many`), and each value of R16 that the RIN can store has one form. -/
inductive Value where
  | scalar (v : Scalar)
  | seq (items : List Item)
deriving DecidableEq, Repr

/-- A finite map keyed by a number, in one canonical form: keys strictly rising (`mapWf`, `Ops.lean`). -/
abbrev FinMap (α : Type) := List (Nat × α)

/-- A decoded record: a finite map from field symbol to value (R16, R225). -/
abbrev Record := FinMap Value

/-- Byte-addressed memory in canonical form (`Memory.wf`, `Ops.lean`). -/
abbrev Memory := List Host.Cell

/-- An entry of RIN_OUT (R222, R284). -/
inductive RinResult where
  | ok (bankId : BankId) (record : Record)
  | fail (bankId : BankId) (code : RinCode)
deriving DecidableEq, Repr

/-! ## The host's side of the ports (`10_state.md` R44 to R47, `60_exceptions.md` R294) -/

/-- A symbol on the input port IN (R45). -/
inductive InSymbol where
  | byte (b : Byte)
  | eos
deriving DecidableEq, Repr

/-- The host commands: the complete set of R294. -/
inductive HostCmd where
  | send (sym : InSymbol)
  | csrRead (n : Nat)
  | csrWrite (n : Nat) (v : BitVec 32)
  | rtabWrite (id : BankId) (image : List Byte)
  | rtabClear (id : BankId)
  | decode (bank : Bank)
  | reset
deriving DecidableEq, Repr

/-! ## The units -/

/-- The configuration registers and the hidden `cfg_valid` (R24 to R26, R43). -/
structure Cfg where
  startId : BankId
  stopId  : BankId
  flags   : BitVec 32
  valid   : BitVec 3
deriving DecidableEq, Repr

/-- The stream status: `run_state`, `started`, the error registers and the end-reason flags (R28 to R30). -/
structure Status where
  runState            : RunState
  started             : Bool
  errCode             : StreamError
  errIndex            : BitVec 32
  errExpected         : BitVec 16
  errActual           : BitVec 16
  errAux              : BitVec 32
  endFieldTruncated   : Bool
  endOpenBankDropped  : Bool
  endOpenEventDropped : Bool
deriving DecidableEq, Repr

/-- The block frame validator (R31). `releasing` is the model's own: the payload bytes that a release in
progress has not yet handed to BRA (the loop of R146); it is empty between steps. -/
structure Bfv where
  fill      : Nat
  buf       : Memory
  trl       : BitVec 32
  index     : BitVec 32
  releasing : List Byte
deriving DecidableEq, Repr

/-- The bank reassembler (R32 to R35). -/
structure Bra where
  state  : BraState
  k      : Nat
  acc    : BitVec 32
  rem    : BitVec 32
  isOpen : Bool
  buf    : List Byte
deriving DecidableEq, Repr

/-- The event grouper (R36). -/
structure Evg where
  inEvent : Bool
  buf     : List Bank
deriving DecidableEq, Repr

/-- The emission and diagnostic counters (R39, R41). -/
structure Counters where
  bankCount        : BitVec 32
  eventCount       : BitVec 32
  strayCount       : BitVec 32
  unknownVerbCount : BitVec 32
deriving DecidableEq, Repr

/-- The output queues: unbounded lists that only grow, oldest entry first (R44). -/
structure Queues where
  bankOut  : List Bank
  eventOut : List Event
  rinOut   : List RinResult
deriving DecidableEq, Repr

/-- The recipe interpreter (R37, R38). Two fields are the model's own: `bankId` holds the `bank_id` of the
DECODE operand that the RIN_OUT entry names (R222), and `val` the value of the last expression evaluated
(R243). -/
structure Rin where
  state     : RinState
  code      : RinCode
  errPc     : BitVec 32
  errCursor : BitVec 32
  errAux    : BitVec 32
  data      : List Byte
  cursor    : Nat
  pc        : Nat
  nvals     : Nat
  ctx       : Record
  out       : Record
  bankId    : BankId
  val       : Int
deriving DecidableEq, Repr

/-- The host's own side, the model's own: the commands it has issued and the block has not yet performed,
in order (R75), and the register values CSR_READ has returned, oldest first (R294). -/
structure HostPort where
  todo  : List HostCmd
  reads : List (Nat × BitVec 32)
deriving DecidableEq, Repr

/-! ## The state -/

/-- Everything the spec gives the block, with the parameters it is built with (R9) and the host's side. -/
structure State where
  params   : Config.Params
  cfg      : Cfg
  rtab     : FinMap (List Byte)
  status   : Status
  bfv      : Bfv
  bra      : Bra
  evg      : Evg
  counters : Counters
  queues   : Queues
  rin      : Rin
  host     : HostPort
deriving DecidableEq, Repr

/-- Why the machine stops with a fault. -/
inductive Fault where
  /-- A frame byte arrives when `bfv_fill` is 32000 or more: there is no such offset in the frame buffer
  (R60; log entry 5). Raised by `bfvByte` (`BlockValidator.lean`) only, in a state that no run reaches. Safe. -/
  | frameBufferRange
deriving DecidableEq, Repr

/-- Why a step is refused. Every refusal but the first is a host-protocol violation that the spec says the
model refuses (R294; log entry 7): the command is not performed and no state changes. All are safe. -/
inductive Refusal where
  /-- An instruction whose meaning has not been written. Raised by no arm of `exec`. -/
  | notModelled (mnemonic : String)
  /-- SEND while `run_state = DONE` (R312). -/
  | sendAfterEnd
  /-- SEND while `run_state = ERROR` (R312). -/
  | sendAfterError
  /-- SEND while `cfg_valid ≠ 0b111` (R310, R312). -/
  | sendBeforeConfig
  /-- SEND of the byte that would complete frame 2^32 - 1: a stream of 2^32 frames or more, outside the
  admitted inputs (R10; `93_implementation_defined.md` I34; log entry 8). -/
  | sendTooManyFrames
  /-- CSR_WRITE to a CFG register while `started = 1` (R43, R311). -/
  | cfgWriteAfterStart
  /-- RTAB_WRITE or RTAB_CLEAR while `rin_state = BUSY` (R313). -/
  | rtabWhileBusy
  /-- RTAB_WRITE of an image longer than `MAX_RECIPE_BYTES` (R294). -/
  | rtabImageTooLong
  /-- DECODE while `rin_state = BUSY` (R314). -/
  | decodeWhileBusy
deriving DecidableEq, Repr

/-- What a step or a meaning answers. -/
abbrev Result := Host.Outcome State Fault Refusal

/-- The state after power-on, which is also the state after RESET (R49, R302, R310). The CFG registers, whose
power-on values the spec leaves unspecified, hold 0 (DESIGN CHOICE, log entry 1; `cfg_valid` says they are
unwritten), the frame buffer reads as 0 (log entry 2), the parameters are `Config.defaultParams` (log entry 3)
and the model's own fields are empty or 0 (log entry 4). -/
def State.reset : State where
  params := Config.defaultParams
  cfg := { startId := 0, stopId := 0, flags := 0, valid := 0 }
  rtab := []
  status := {
    runState := .running, started := false
    errCode := .none, errIndex := 0, errExpected := 0, errActual := 0, errAux := 0
    endFieldTruncated := false, endOpenBankDropped := false, endOpenEventDropped := false }
  bfv := { fill := 0, buf := [], trl := 0, index := 0, releasing := [] }
  bra := { state := .scan, k := 0, acc := 0, rem := 0, isOpen := false, buf := [] }
  evg := { inEvent := false, buf := [] }
  counters := { bankCount := 0, eventCount := 0, strayCount := 0, unknownVerbCount := 0 }
  queues := { bankOut := [], eventOut := [], rinOut := [] }
  rin := {
    state := .idle, code := .ok, errPc := 0, errCursor := 0, errAux := 0
    data := [], cursor := 0, pc := 0, nvals := 0, ctx := [], out := [], bankId := 0, val := 0 }
  host := { todo := [], reads := [] }

end Sys2Proof.Machine
end

