-- ==== Sys2Proof/Machine/Ops.lean ====
section
/-! DEFINITION. The shared operations: finite maps and byte-addressed memory in canonical form, raising a
stream error (`60_exceptions.md` R276) and a RIN error (R284), and RESET, the only way out of an error
(`70_reset_and_hazards.md` R300). -/

namespace Sys2Proof.Machine

/-! ## Finite maps (`10_state.md` R27, R38) -/

/-- The canonical form of a finite map: its keys rise strictly. -/
abbrev mapWf {α : Type} (m : FinMap α) : Prop := (m.map Prod.fst).Pairwise (· < ·)

/-- The value at a key. -/
def mapFind {α : Type} (k : Nat) : FinMap α → Option α
  | [] => none
  | (k', v) :: m => if k = k' then some v else mapFind k m

/-- Add or replace the value at a key. -/
def mapInsert {α : Type} (k : Nat) (v : α) : FinMap α → FinMap α
  | [] => [(k, v)]
  | (k', v') :: m =>
    if k < k' then (k, v) :: (k', v') :: m
    else if k = k' then (k, v) :: m
    else (k', v') :: mapInsert k v m

/-- Remove the value at a key, if there is one. -/
def mapErase {α : Type} (k : Nat) : FinMap α → FinMap α
  | [] => []
  | (k', v') :: m => if k = k' then m else (k', v') :: mapErase k m

/-! ## Byte-addressed memory (`20_memory.md` R60, `00_scope.md` R11) -/

/-- What an address that is not listed reads as. DESIGN CHOICE (log entry 2): the spec leaves the frame
buffer's contents unspecified and never reads a byte before it is written (R49). -/
def unlistedByte : Byte := 0

/-- The canonical form of memory: addresses rise strictly and no entry equals what an unlisted address
reads as. -/
abbrev Memory.wf (m : Memory) : Prop := mapWf m ∧ ∀ c ∈ m, c.2 ≠ unlistedByte

/-- The byte at an address. -/
def memRead (m : Memory) (a : Nat) : Byte := (mapFind a m).getD unlistedByte

/-- Write one byte, keeping the canonical form. -/
def memWrite (a : Nat) (b : Byte) (m : Memory) : Memory :=
  if b = unlistedByte then mapErase a m else mapInsert a b m

/-- `MemRead(space, addr, n)`: `n` bytes from an address upward (R11). -/
def memReadBytes (m : Memory) (a n : Nat) : List Byte := (List.range n).map fun i => memRead m (a + i)

/-! ## Bytes of a register -/

/-- `acc[8k+7 : 8k] <- b`: byte `k` of a 32-bit register (R33, R141). -/
def setByte32 (k : Nat) (b : Byte) (acc : BitVec 32) : BitVec 32 :=
  (acc &&& ~~~(0xFF#32 <<< (8 * k))) ||| (b.setWidth 32 <<< (8 * k))

/-! ## Errors (`60_exceptions.md`) -/

/-- What a unit's operation answers: the state it leaves, or the state at the error that ended the step. -/
abbrev Outgoing := Except State State

/-- The state an operation leaves, whether or not it raised. -/
def settle : Outgoing → State
  | .ok s => s
  | .error s => s

/-- `raise Error(code, index, expected, actual, aux)`: the one way into `run_state = ERROR` (R276). The index
is always `bfv_index` at the time of the raise. -/
def raiseError (code : StreamError) (expected actual : BitVec 16) (aux : Nat) (s : State) : State :=
  { s with status := { s.status with
      errCode := code
      errIndex := s.bfv.index
      errExpected := expected
      errActual := actual
      errAux := BitVec.ofNat 32 aux
      runState := .error } }

/-- `finish(code)`: ends a DECODE with no record (R222). -/
def rinFinish (code : RinCode) (s : State) : State :=
  { s with
    queues := { s.queues with rinOut := s.queues.rinOut ++ [.fail s.rin.bankId code] }
    rin := { s.rin with code := code, state := .done } }

/-- `raise RinError(code, pc, cursor, aux)`, with the pc and the cursor of the moment of the raise (R284,
R285). -/
def raiseRin (code : RinCode) (aux : Nat) (s : State) : State :=
  rinFinish code { s with rin := { s.rin with
    errPc := BitVec.ofNat 32 s.rin.pc
    errCursor := BitVec.ofNat 32 s.rin.cursor
    errAux := BitVec.ofNat 32 aux } }

/-- RESET (R300, R301): every element takes its value after RESET (R49); the CFG registers, `cfg_valid`,
RTAB, the parameters and the host's side keep theirs. -/
def resetBlock (s : State) : State :=
  { State.reset with params := s.params, cfg := s.cfg, rtab := s.rtab, host := s.host }

end Sys2Proof.Machine
end

