-- ==== Sys2Proof/Machine/Flags.lean ====
section
/-! DEFINITION. The flags and the status words (`10_state.md` R26, R42, R48), the register map and the
writes to it (R42, R43). -/

namespace Sys2Proof.Machine

/-- `CFG_FLAGS.KEEP_MARKERS`, bit 0 (R26). -/
def keepMarkers (s : State) : Bool := s.cfg.flags.getLsbD 0

/-- The bits of CFG_FLAGS that exist: 31:1 are reserved, read as 0 and ignore writes (R26). -/
def cfgFlagsMask : BitVec 32 := 1

/-- STATUS.RUN_STATE (R42). -/
def runStateCode : RunState → BitVec 32
  | .running => 0
  | .done => 1
  | .error => 2

/-- The number of a stream error code (R271). -/
def streamErrorCode : StreamError → BitVec 32
  | .none => 0
  | .shortBlock => 1
  | .crcMismatch => 2
  | .bankCrcMismatch => 3
  | .bankTooShort => 4
  | .bankOverflow => 5
  | .eventOverflow => 6

/-- RIN_STATUS.RIN_STATE (R42). -/
def rinStateCode : RinState → BitVec 32
  | .idle => 0
  | .busy => 1
  | .done => 2

/-- The number of a RIN result code (R283). -/
def rinResultCode : RinCode → BitVec 32
  | .ok => 0
  | .noRecipe => 1
  | .truncatedPayload => 2
  | .malformedRecipe => 3
  | .unresolvedSymbol => 4
  | .notScalarInteger => 5
  | .negativeCount => 6
  | .capacity => 7

/-- A flag at a bit position of a register. -/
def flagBit (b : Bool) (i : Nat) : BitVec 32 := (if b then 1#32 else 0#32) <<< i

/-- STATUS (R42, no. 0x08). -/
def statusWord (s : State) : BitVec 32 :=
  runStateCode s.status.runState
    ||| (streamErrorCode s.status.errCode <<< 4)
    ||| flagBit s.bra.isOpen 8
    ||| flagBit s.evg.inEvent 9
    ||| flagBit s.status.endFieldTruncated 10
    ||| flagBit s.status.endOpenBankDropped 11
    ||| flagBit s.status.endOpenEventDropped 12
    ||| flagBit s.status.started 13

/-- RIN_STATUS (R42, no. 0x18). -/
def rinStatusWord (s : State) : BitVec 32 :=
  rinStateCode s.rin.state ||| (rinResultCode s.rin.code <<< 4)

/-- The value of register `n`; a number that is not listed reads as 0 (R42). BLOCK_COUNT reads
`bfv_index` (R40). -/
def csrValue (n : Nat) (s : State) : BitVec 32 :=
  if n = 0x00 then s.cfg.startId
  else if n = 0x01 then s.cfg.stopId
  else if n = 0x02 then s.cfg.flags &&& cfgFlagsMask
  else if n = 0x08 then statusWord s
  else if n = 0x09 then s.status.errIndex
  else if n = 0x0A then s.status.errExpected.setWidth 32
  else if n = 0x0B then s.status.errActual.setWidth 32
  else if n = 0x0C then s.status.errAux
  else if n = 0x10 then s.bfv.index
  else if n = 0x11 then s.counters.bankCount
  else if n = 0x12 then s.counters.eventCount
  else if n = 0x13 then s.counters.strayCount
  else if n = 0x14 then s.counters.unknownVerbCount
  else if n = 0x18 then rinStatusWord s
  else if n = 0x19 then s.rin.errPc
  else if n = 0x1A then s.rin.errCursor
  else if n = 0x1B then s.rin.errAux
  else 0

/-- A CFG register (R43). -/
def isCfgRegister (n : Nat) : Bool := n = 0x00 || n = 0x01 || n = 0x02

/-- A write to register `n` that is not refused: a CFG register takes the value and its bit of `cfg_valid` is
set; a write to any other register is ignored (R42, R43). -/
def csrStore (n : Nat) (v : BitVec 32) (s : State) : State :=
  if n = 0x00 then { s with cfg := { s.cfg with startId := v, valid := s.cfg.valid ||| 1 } }
  else if n = 0x01 then { s with cfg := { s.cfg with stopId := v, valid := s.cfg.valid ||| 2 } }
  else if n = 0x02 then
    { s with cfg := { s.cfg with flags := v &&& cfgFlagsMask, valid := s.cfg.valid ||| 4 } }
  else s

/-- The address of register `n` where the platform places the register block at `CSR_BASE`, in units of
32-bit registers (R72). -/
def csrAddress (s : State) (n : Nat) : Nat := s.params.csrBase + n

end Sys2Proof.Machine
end

