-- ==== Sys2Proof/Machine/EventGrouper.lean ====
section
/-! DEFINITION. The event grouper EVG (`43_event_grouper.md`), a two-state FSM over the banks BRA emits. -/

namespace Sys2Proof.Machine

/-- `emit EVENT_OUT(Event(evg_buf))`, counted in `event_count` (R202, R203). -/
def emitEvent (s : State) : State :=
  { s with
    queues := { s.queues with eventOut := s.queues.eventOut ++ [{ banks := s.evg.buf }] }
    counters := { s.counters with eventCount := s.counters.eventCount + 1 } }

/-- Append a bank to the event buffer, or raise EVENT_OVERFLOW when it is full (R203, R204, R208). -/
def evgAppend (bank : Bank) (s : State) : Outgoing :=
  if s.evg.buf.length = s.params.maxEventBanks then
    .error (raiseError .eventOverflow 0 0 s.evg.buf.length s)
  else
    .ok { s with evg := { s.evg with buf := s.evg.buf ++ [bank] } }

/-- A start-marker bank (R202). -/
def evgStart (bank : Bank) (s : State) : State :=
  let s1 := if s.evg.inEvent && !s.evg.buf.isEmpty then emitEvent s else s
  { s1 with evg := { inEvent := true, buf := if keepMarkers s then [bank] else [] } }

/-- A stop-marker bank (R203). -/
def evgStop (bank : Bank) (s : State) : Outgoing :=
  if s.evg.inEvent then do
    let s1 ← if keepMarkers s then evgAppend bank s else pure s
    let s2 := emitEvent s1
    pure { s2 with evg := { inEvent := false, buf := [] } }
  else pure s

/-- Any other bank: appended while an event is open, else dropped (R204). -/
def evgOther (bank : Bank) (s : State) : Outgoing :=
  if s.evg.inEvent then evgAppend bank s else pure s

/-- A bank from BRA, classified by its id alone, the start test before the stop test (R200, R201). -/
def evgBank (bank : Bank) (s : State) : Outgoing :=
  if bank.bankId = s.cfg.startId then pure (evgStart bank s)
  else if bank.bankId = s.cfg.stopId then evgStop bank s
  else evgOther bank s

/-- End of stream: an open event is dropped (R205). -/
def evgEos (s : State) : State :=
  { s with
    status := { s.status with endOpenEventDropped := s.evg.inEvent }
    evg := { inEvent := false, buf := [] } }

end Sys2Proof.Machine
end

