-- ==== Sys2Proof/Syntax.lean ====
section
/-! DEFINITION. The instructions: one constructor of `Instr` for every row of
`spec/opcode_table.json`. Three levels of encoding meet in it (`30_encoding.md`): the block frame, the
symbols of the bank stream, and the records and expression nodes of a recipe. -/

namespace Sys2Proof

/-- The closed set of verbs, with its default arm (R86, R162). -/
inductive Verb where
  | startBlock | endBlockLogical | endBlockPhysical | filler
  | startBank | continueBank | endBank | toBeContd | unknown
deriving DecidableEq, Repr

/-- `KIND` of a recipe type (R102, R220). -/
inductive Kind where
  | uint | sint | float
deriving DecidableEq, Repr

/-- The 15 legal recipe types, named by storage width and, where it is wider, logical width (R102). -/
inductive ExtractType where
  | u16 | u16u32 | u16u64 | u32 | u32u64 | u64
  | s16 | s16s32 | s16s64 | s32 | s32s64 | s64
  | f32 | f32f64 | f64
deriving DecidableEq, Repr

/-- The six comparisons (R104, R220). -/
inductive CmpOp where
  | eq | ne | lt | le | gt | ge
deriving DecidableEq, Repr

/-- A recipe expression: a literal, a reference or a comparison (R104, R220). -/
inductive Expr where
  | lit (n : Int)
  | ref (sym : Sym)
  | cmp (op : CmpOp) (lhs rhs : Expr)
deriving DecidableEq, Repr

/-- A loop descriptor (R220). The guard exists only inside it (R103, R221). -/
structure Loop where
  var   : Sym
  bound : Expr
  guard : Option Expr
deriving DecidableEq, Repr

/-- The operands of an EXTRACT record after its TYPE byte (R101, R252). -/
structure Extract where
  field : Sym
  cond  : Option Expr
  loop  : Option Loop
  count : Expr
deriving DecidableEq, Repr

/-- The instructions, in the order of `spec/opcode_table.json`. -/
inductive Instr where
  /-- START_BLOCK `60 61 N0 N1 N2 N3` (R87, R164). -/
  | startBlock (number : BitVec 32)
  /-- END_BLOCK_LOGICAL `60 62` (R88, R165). -/
  | endBlockLogical
  /-- END_BLOCK_PHYSICAL `60 63` (R88, R166). -/
  | endBlockPhysical
  /-- FILLER `60 64` (R88, R167). -/
  | filler
  /-- START_BANK `60 07 L0..L3 D[0..L)` with `L` the segment's length (R89, R168). -/
  | startBank (segment : List Byte)
  /-- CONTINUE `60 08 L0..L3 D[0..L)` (R89, R169). -/
  | continueBank (segment : List Byte)
  /-- END_BANK `60 0E C0..C3`: the expected CRC and the ignored upper half (R91, R172). -/
  | endBank (crc rsvd : BitVec 16)
  /-- TO_BE_CONTD `60 0F X0..X4` (R90, R171). -/
  | toBeContd (x0 x1 x2 x3 x4 : Byte)
  /-- An unknown verb `60 V` (R92, R174). -/
  | unknownVerb (v : Byte)
  /-- A stray byte met in SCAN (R82, R161). -/
  | stray (b : Byte)
  /-- A block frame: payload, CRC and the ignored upper half of the trailer (R80, R142). -/
  | block (payload : List Byte) (crc rsvd : BitVec 16)
  /-- EXTRACT, TYPE 0x00 (R227). -/
  | extractU16 (a : Extract)
  /-- EXTRACT, TYPE 0x10 (R228). -/
  | extractU16U32 (a : Extract)
  /-- EXTRACT, TYPE 0x20 (R229). -/
  | extractU16U64 (a : Extract)
  /-- EXTRACT, TYPE 0x14 (R230). -/
  | extractU32 (a : Extract)
  /-- EXTRACT, TYPE 0x24 (R231). -/
  | extractU32U64 (a : Extract)
  /-- EXTRACT, TYPE 0x28 (R232). -/
  | extractU64 (a : Extract)
  /-- EXTRACT, TYPE 0x01 (R233). -/
  | extractS16 (a : Extract)
  /-- EXTRACT, TYPE 0x11 (R234). -/
  | extractS16S32 (a : Extract)
  /-- EXTRACT, TYPE 0x21 (R235). -/
  | extractS16S64 (a : Extract)
  /-- EXTRACT, TYPE 0x15 (R236). -/
  | extractS32 (a : Extract)
  /-- EXTRACT, TYPE 0x25 (R237). -/
  | extractS32S64 (a : Extract)
  /-- EXTRACT, TYPE 0x29 (R238). -/
  | extractS64 (a : Extract)
  /-- EXTRACT, TYPE 0x16 (R239). -/
  | extractF32 (a : Extract)
  /-- EXTRACT, TYPE 0x26 (R240). -/
  | extractF32F64 (a : Extract)
  /-- EXTRACT, TYPE 0x2A (R241). -/
  | extractF64 (a : Extract)
  /-- LIT, tag 0x01 (R244). -/
  | lit (n : Int)
  /-- REF, tag 0x02 (R245). -/
  | ref (sym : Sym)
  /-- EQ, tag 0x10 (R246). -/
  | eq (lhs rhs : Expr)
  /-- NE, tag 0x11 (R247). -/
  | ne (lhs rhs : Expr)
  /-- LT, tag 0x12 (R248). -/
  | lt (lhs rhs : Expr)
  /-- LE, tag 0x13 (R249). -/
  | le (lhs rhs : Expr)
  /-- GT, tag 0x14 (R250). -/
  | gt (lhs rhs : Expr)
  /-- GE, tag 0x15 (R251). -/
  | ge (lhs rhs : Expr)
deriving DecidableEq, Repr

/-- The EXTRACT instruction of a type (R101): operation `i` of a recipe is record `i` (R107). -/
def Instr.extract : ExtractType → Extract → Instr
  | .u16, a => .extractU16 a
  | .u16u32, a => .extractU16U32 a
  | .u16u64, a => .extractU16U64 a
  | .u32, a => .extractU32 a
  | .u32u64, a => .extractU32U64 a
  | .u64, a => .extractU64 a
  | .s16, a => .extractS16 a
  | .s16s32, a => .extractS16S32 a
  | .s16s64, a => .extractS16S64 a
  | .s32, a => .extractS32 a
  | .s32s64, a => .extractS32S64 a
  | .s64, a => .extractS64 a
  | .f32, a => .extractF32 a
  | .f32f64, a => .extractF32F64 a
  | .f64, a => .extractF64 a

/-- The comparison instruction of an operator (R104). -/
def Instr.compare : CmpOp → Expr → Expr → Instr
  | .eq, l, r => .eq l r
  | .ne, l, r => .ne l r
  | .lt, l, r => .lt l r
  | .le, l, r => .le l r
  | .gt, l, r => .gt l r
  | .ge, l, r => .ge l r

/-- The instruction at the root of an expression: LIT, REF or a comparison (R104). -/
def Instr.ofExpr : Expr → Instr
  | .lit n => .lit n
  | .ref sym => .ref sym
  | .cmp op l r => .compare op l r

/-- The levels of encoding (`30_encoding.md`). An instruction's first byte names it only within its level:
0x14 is the type U32 in a record and the tag GT in a node. -/
inductive Level where
  | frame | symbol | record | node
deriving DecidableEq, Repr

/-- The level an instruction is encoded at. -/
def Instr.level : Instr → Level
  | .startBlock _ | .endBlockLogical | .endBlockPhysical | .filler | .startBank _ | .continueBank _
  | .endBank _ _ | .toBeContd _ _ _ _ _ | .unknownVerb _ | .stray _ => .symbol
  | .block _ _ _ => .frame
  | .extractU16 _ | .extractU16U32 _ | .extractU16U64 _ | .extractU32 _ | .extractU32U64 _
  | .extractU64 _ | .extractS16 _ | .extractS16S32 _ | .extractS16S64 _ | .extractS32 _
  | .extractS32S64 _ | .extractS64 _ | .extractF32 _ | .extractF32F64 _ | .extractF64 _ => .record
  | .lit _ | .ref _ | .eq _ _ | .ne _ _ | .lt _ _ | .le _ _ | .gt _ _ | .ge _ _ => .node

end Sys2Proof
end

