-- ==== Sys2Proof/WellFormed.lean ====
section
/-! DEFINITION. Well-formedness of an instruction: what its encoding can hold (`30_encoding.md`), and the
depth bound of its expressions (`44_recipe_interpreter.md` R221). -/

namespace Sys2Proof

/-- Why a term is not an instruction that has an encoding. -/
inductive IllFormed where
  /-- A segment of 2^32 bytes or more has no 4-byte length (R89). -/
  | segmentTooLong
  /-- The verb byte of an unknown verb is one of the eight known codes (R92). -/
  | verbIsKnown
  /-- The byte 0x60 is OPCODE and no stray byte (R82). -/
  | strayIsOpcode
  /-- A block's payload does not have 31996 bytes (R80). -/
  | payloadLength
  /-- A literal lies outside -2^63..2^63-1 (R107). -/
  | literalRange
  /-- An expression is deeper than `MAX_EXPR_DEPTH` (R104). -/
  | tooDeep
deriving DecidableEq, Repr

/-- The eight known verb codes (R86, R92). -/
def knownVerbs : List Byte := [0x07, 0x08, 0x0E, 0x0F, 0x61, 0x62, 0x63, 0x64]

/-- The depth of an expression: 1 for LIT and REF, one more than its deeper side for a comparison (R104). -/
def Expr.depth : Expr → Nat
  | .lit _ => 1
  | .ref _ => 1
  | .cmp _ l r => 1 + max l.depth r.depth

/-- A literal that the 8 bytes of LIT can hold (R107). -/
def literalFits (n : Int) : Bool := -9223372036854775808 ≤ n && n < 9223372036854775808

/-- Every literal of the expression fits its 8 bytes. -/
def Expr.literalsFit : Expr → Bool
  | .lit n => literalFits n
  | .ref _ => true
  | .cmp _ l r => l.literalsFit && r.literalsFit

/-- What is wrong with an expression under a depth bound, if anything (R104, R107, R221). -/
def Expr.check (maxDepth : Nat) (e : Expr) : Option IllFormed :=
  if maxDepth < e.depth then some .tooDeep
  else if e.literalsFit then none
  else some .literalRange

/-- The expressions of an EXTRACT record, in the order of the record (R101). -/
def Extract.exprs (a : Extract) : List Expr :=
  a.cond.toList ++ (match a.loop with
    | some l => l.bound :: l.guard.toList
    | none => []) ++ [a.count]

/-- What is wrong with an instruction under a depth bound, if anything. -/
def Instr.check (maxDepth : Nat) : Instr → Option IllFormed
  | .startBlock _ => none
  | .endBlockLogical => none
  | .endBlockPhysical => none
  | .filler => none
  | .startBank seg => if seg.length < 4294967296 then none else some .segmentTooLong
  | .continueBank seg => if seg.length < 4294967296 then none else some .segmentTooLong
  | .endBank _ _ => none
  | .toBeContd _ _ _ _ _ => none
  | .unknownVerb v => if v ∈ knownVerbs then some .verbIsKnown else none
  | .stray b => if b = Config.opcodeByte then some .strayIsOpcode else none
  | .block payload _ _ => if payload.length = Config.payloadLen then none else some .payloadLength
  | .extractU16 a | .extractU16U32 a | .extractU16U64 a | .extractU32 a | .extractU32U64 a
  | .extractU64 a | .extractS16 a | .extractS16S32 a | .extractS16S64 a | .extractS32 a
  | .extractS32S64 a | .extractS64 a | .extractF32 a | .extractF32F64 a | .extractF64 a =>
    a.exprs.findSome? (Expr.check maxDepth)
  | .lit n => (Expr.lit n).check maxDepth
  | .ref sym => (Expr.ref sym).check maxDepth
  | .eq l r => (Expr.cmp .eq l r).check maxDepth
  | .ne l r => (Expr.cmp .ne l r).check maxDepth
  | .lt l r => (Expr.cmp .lt l r).check maxDepth
  | .le l r => (Expr.cmp .le l r).check maxDepth
  | .gt l r => (Expr.cmp .gt l r).check maxDepth
  | .ge l r => (Expr.cmp .ge l r).check maxDepth

/-- An instruction is well-formed when no check finds anything. -/
def Instr.wf (maxDepth : Nat) (i : Instr) : Bool := (i.check maxDepth).isNone

/-- A recipe is well-formed: at most 65535 operations, each a well-formed EXTRACT (R100, R221). -/
def recipeWf (maxDepth : Nat) (recipe : List Instr) : Bool :=
  recipe.length ≤ 65535 && recipe.all fun i => i.level == .record && i.wf maxDepth

end Sys2Proof
end

