-- ==== Sys2Proof/Decode.lean ====
section
/-! DEFINITION. The decoder, total on any bytes and rejecting by name, and the encoder
(`30_encoding.md` R80 to R107), with the byte-order helpers both use (`00_scope.md` R11, `20_memory.md` R65). -/

namespace Sys2Proof

/-- Why the decoder rejects a byte sequence. -/
inductive DecodeError where
  /-- The bytes end before the instruction does (R83; R106 a, b). -/
  | incomplete
  /-- The TYPE byte is none of the 15 legal values (R102). -/
  | badType (b : Byte)
  /-- The FLAGS byte is none of the six legal values (R103). -/
  | badFlags (b : Byte)
  /-- The tag byte begins no expression node (R104). -/
  | badTag (b : Byte)
  /-- The expression is deeper than `MAX_EXPR_DEPTH` (R104, R106 e). -/
  | tooDeep
  /-- Bytes remain after the last record of an image (R106 c). -/
  | trailingBytes
deriving DecidableEq, Repr

/-! ## Byte order -/

/-- `LE(s)`: the unsigned integer whose little-endian bytes are `s` (R11). -/
def leNat : List Byte → Nat
  | [] => 0
  | b :: bs => b.toNat + 256 * leNat bs

/-- `SLE(s)`: the two's-complement signed integer of the same bytes (R11). -/
def sleInt (s : List Byte) : Int :=
  match s.getLast? with
  | some top => if top.getLsbD 7 then (leNat s : Int) - 2 ^ (8 * s.length) else leNat s
  | none => 0

/-- The `n` low bytes of `v`, little-endian. -/
def leBytes : Nat → Nat → List Byte
  | 0, _ => []
  | n + 1, v => BitVec.ofNat 8 v :: leBytes n (v / 256)

/-- `LE32(v)`: the four bytes of a 32-bit field (R65). -/
def le32 (v : BitVec 32) : List Byte := leBytes 4 v.toNat

/-- `LE16(v)`: the two bytes of a 16-bit field (R65). -/
def le16 (v : BitVec 16) : List Byte := leBytes 2 v.toNat

/-- The eight bytes of a signed literal (R104, R107). -/
def sle64 (n : Int) : List Byte := leBytes 8 (n % 18446744073709551616).toNat

/-! ## Taking fields from the front of a byte sequence -/

/-- The first `n` bytes and the rest. -/
def takeBytes (n : Nat) (bs : List Byte) : Except DecodeError (List Byte × List Byte) :=
  if bs.length < n then .error .incomplete else .ok (bs.take n, bs.drop n)

/-- One byte. -/
def takeByte : List Byte → Except DecodeError (Byte × List Byte)
  | [] => .error .incomplete
  | b :: bs => .ok (b, bs)

/-- A 2-byte little-endian field. -/
def takeU16 (bs : List Byte) : Except DecodeError (BitVec 16 × List Byte) := do
  let (f, rest) ← takeBytes 2 bs
  pure (BitVec.ofNat 16 (leNat f), rest)

/-- A 4-byte little-endian field. -/
def takeU32 (bs : List Byte) : Except DecodeError (BitVec 32 × List Byte) := do
  let (f, rest) ← takeBytes 4 bs
  pure (BitVec.ofNat 32 (leNat f), rest)

/-! ## Level 2: the symbols of the bank stream -/

/-- The verb a verb byte selects: a closed set with a default arm (R86, R92, R162). -/
def decodeVerb (v : Byte) : Verb :=
  if v = 0x61 then .startBlock
  else if v = 0x62 then .endBlockLogical
  else if v = 0x63 then .endBlockPhysical
  else if v = 0x64 then .filler
  else if v = 0x07 then .startBank
  else if v = 0x08 then .continueBank
  else if v = 0x0F then .toBeContd
  else if v = 0x0E then .endBank
  else .unknown

/-- A segment: a 4-byte length `L`, then `L` bytes (R89). -/
def takeSegment (bs : List Byte) : Except DecodeError (List Byte × List Byte) := do
  let (len, rest) ← takeU32 bs
  takeBytes len.toNat rest

/-- The verb frame after OPCODE: the verb byte and its argument bytes (R86 to R92). -/
def decodeVerbFrame (bs : List Byte) : Except DecodeError (Instr × List Byte) := do
  let (v, args) ← takeByte bs
  match decodeVerb v with
  | .startBlock => do
    let (n, rest) ← takeU32 args
    pure (.startBlock n, rest)
  | .endBlockLogical => pure (.endBlockLogical, args)
  | .endBlockPhysical => pure (.endBlockPhysical, args)
  | .filler => pure (.filler, args)
  | .startBank => do
    let (seg, rest) ← takeSegment args
    pure (.startBank seg, rest)
  | .continueBank => do
    let (seg, rest) ← takeSegment args
    pure (.continueBank seg, rest)
  | .endBank => do
    let (crc, r1) ← takeU16 args
    let (rsvd, rest) ← takeU16 r1
    pure (.endBank crc rsvd, rest)
  | .toBeContd => do
    let (x0, r0) ← takeByte args
    let (x1, r1) ← takeByte r0
    let (x2, r2) ← takeByte r1
    let (x3, r3) ← takeByte r2
    let (x4, rest) ← takeByte r3
    pure (.toBeContd x0 x1 x2 x3 x4, rest)
  | .unknown => pure (.unknownVerb v, args)

/-- One symbol of the bank stream: a stray byte or a verb frame (R82, R83). -/
def decodeSymbol (bs : List Byte) : Except DecodeError (Instr × List Byte) := do
  let (b, rest) ← takeByte bs
  if b = Config.opcodeByte then decodeVerbFrame rest else pure (.stray b, rest)

/-! ## Level 1: the block frame -/

/-- One block frame, taken by position (R80, R81). -/
def decodeBlock (bs : List Byte) : Except DecodeError (Instr × List Byte) := do
  let (payload, r0) ← takeBytes Config.payloadLen bs
  let (crc, r1) ← takeU16 r0
  let (rsvd, rest) ← takeU16 r1
  pure (.block payload crc rsvd, rest)

/-! ## Level 3: the recipe carrier -/

/-- The TYPE byte (R102): every value outside the table is malformed. -/
def decodeType (b : Byte) : Except DecodeError ExtractType :=
  if b = 0x00 then .ok .u16
  else if b = 0x10 then .ok .u16u32
  else if b = 0x20 then .ok .u16u64
  else if b = 0x14 then .ok .u32
  else if b = 0x24 then .ok .u32u64
  else if b = 0x28 then .ok .u64
  else if b = 0x01 then .ok .s16
  else if b = 0x11 then .ok .s16s32
  else if b = 0x21 then .ok .s16s64
  else if b = 0x15 then .ok .s32
  else if b = 0x25 then .ok .s32s64
  else if b = 0x29 then .ok .s64
  else if b = 0x16 then .ok .f32
  else if b = 0x26 then .ok .f32f64
  else if b = 0x2A then .ok .f64
  else .error (.badType b)

/-- The presence bits `C`, `L` and `G` of the FLAGS byte; `G` without `L` and the reserved bits are
malformed (R103). -/
def decodeFlags (b : Byte) : Except DecodeError (Bool × Bool × Bool) :=
  if b.toNat < 8 ∧ (b.getLsbD 2 → b.getLsbD 1) then .ok (b.getLsbD 0, b.getLsbD 1, b.getLsbD 2)
  else .error (.badFlags b)

/-- The comparison a tag byte selects (R104). -/
def decodeCmp (tag : Byte) : Option CmpOp :=
  if tag = 0x10 then some .eq
  else if tag = 0x11 then some .ne
  else if tag = 0x12 then some .lt
  else if tag = 0x13 then some .le
  else if tag = 0x14 then some .gt
  else if tag = 0x15 then some .ge
  else none

/-- A prefix-coded expression of depth at most the first argument (R104, R106). -/
def decodeExpr : Nat → List Byte → Except DecodeError (Expr × List Byte)
  | 0, _ => .error .tooDeep
  | depth + 1, bs => do
    let (tag, r0) ← takeByte bs
    if tag = 0x01 then do
      let (n, rest) ← takeBytes 8 r0
      pure (.lit (sleInt n), rest)
    else if tag = 0x02 then do
      let (sym, rest) ← takeU16 r0
      pure (.ref sym, rest)
    else
      match decodeCmp tag with
      | some op => do
        let (lhs, r1) ← decodeExpr depth r0
        let (rhs, rest) ← decodeExpr depth r1
        pure (.cmp op lhs rhs, rest)
      | none => .error (.badTag tag)

/-- An expression that a FLAGS bit says is present. -/
def decodeOptExpr (maxDepth : Nat) (present : Bool) (bs : List Byte) : Except DecodeError (Option Expr × List Byte) :=
  match present with
  | false => .ok (none, bs)
  | true => do
    let (e, rest) ← decodeExpr maxDepth bs
    pure (some e, rest)

/-- `LVAR`, `BOUND` and the optional `GUARD` (R101). -/
def decodeLoop (maxDepth : Nat) (present guarded : Bool) (bs : List Byte) : Except DecodeError (Option Loop × List Byte) :=
  match present with
  | false => .ok (none, bs)
  | true => do
    let (var, r0) ← takeU16 bs
    let (bound, r1) ← decodeExpr maxDepth r0
    let (guard, rest) ← decodeOptExpr maxDepth guarded r1
    pure (some { var := var, bound := bound, guard := guard }, rest)

/-- An EXTRACT record (R101, R107). -/
def decodeRecord (maxDepth : Nat) (bs : List Byte) : Except DecodeError (Instr × List Byte) := do
  let (typeByte, r0) ← takeByte bs
  let ty ← decodeType typeByte
  let (flagsByte, r1) ← takeByte r0
  let (c, l, g) ← decodeFlags flagsByte
  let (field, r2) ← takeU16 r1
  let (cond, r3) ← decodeOptExpr maxDepth c r2
  let (loop, r4) ← decodeLoop maxDepth l g r3
  let (count, rest) ← decodeExpr maxDepth r4
  pure (.extract ty { field := field, cond := cond, loop := loop, count := count }, rest)

/-- An expression node with its operands (R104). -/
def decodeNode (maxDepth : Nat) (bs : List Byte) : Except DecodeError (Instr × List Byte) := do
  let (e, rest) ← decodeExpr maxDepth bs
  pure (.ofExpr e, rest)

/-- `n` records, back to back (R100). -/
def decodeRecords (maxDepth : Nat) : Nat → List Byte → Except DecodeError (List Instr × List Byte)
  | 0, bs => .ok ([], bs)
  | n + 1, bs => do
    let (i, r0) ← decodeRecord maxDepth bs
    let (is, rest) ← decodeRecords maxDepth n r0
    pure (i :: is, rest)

/-- A recipe image: `n_ops`, then exactly that many records, and nothing after them (R100, R106).
The well-formedness check of R221 is part of it: the depth bound and the legal types are checked as
the bytes are read. -/
def decodeImage (maxDepth : Nat) (image : List Byte) : Except DecodeError (List Instr) := do
  let (nOps, body) ← takeU16 image
  let (recipe, rest) ← decodeRecords maxDepth nOps.toNat body
  if rest.isEmpty then pure recipe else throw .trailingBytes

/-- The decoder of a level, under a depth bound. -/
def decode (level : Level) (maxDepth : Nat) (bs : List Byte) : Except DecodeError (Instr × List Byte) :=
  match level with
  | .frame => decodeBlock bs
  | .symbol => decodeSymbol bs
  | .record => decodeRecord maxDepth bs
  | .node => decodeNode maxDepth bs

/-! ## The encoder -/

/-- The TYPE byte of a type (R102). -/
def encodeType : ExtractType → Byte
  | .u16 => 0x00
  | .u16u32 => 0x10
  | .u16u64 => 0x20
  | .u32 => 0x14
  | .u32u64 => 0x24
  | .u64 => 0x28
  | .s16 => 0x01
  | .s16s32 => 0x11
  | .s16s64 => 0x21
  | .s32 => 0x15
  | .s32s64 => 0x25
  | .s64 => 0x29
  | .f32 => 0x16
  | .f32f64 => 0x26
  | .f64 => 0x2A

/-- The tag byte of a comparison (R104). -/
def encodeCmp : CmpOp → Byte
  | .eq => 0x10
  | .ne => 0x11
  | .lt => 0x12
  | .le => 0x13
  | .gt => 0x14
  | .ge => 0x15

/-- The bytes of an expression, in prefix order (R104). -/
def encodeExpr : Expr → List Byte
  | .lit n => 0x01 :: sle64 n
  | .ref sym => 0x02 :: le16 sym
  | .cmp op l r => encodeCmp op :: (encodeExpr l ++ encodeExpr r)

/-- The bytes of an expression that may be absent. -/
def encodeOptExpr : Option Expr → List Byte
  | none => []
  | some e => encodeExpr e

/-- The FLAGS byte: `C` in bit 0, `L` in bit 1, `G` in bit 2 (R103). -/
def encodeFlags (a : Extract) : Byte :=
  let c : Byte := if a.cond.isSome then 1 else 0
  match a.loop with
  | none => c
  | some l => c ||| 2 ||| (if l.guard.isSome then 4 else 0)

/-- The bytes of a loop descriptor (R101). -/
def encodeLoop : Option Loop → List Byte
  | none => []
  | some l => le16 l.var ++ encodeExpr l.bound ++ encodeOptExpr l.guard

/-- The bytes of an EXTRACT record (R101). -/
def encodeRecord (ty : ExtractType) (a : Extract) : List Byte :=
  [encodeType ty, encodeFlags a] ++ le16 a.field ++ encodeOptExpr a.cond ++ encodeLoop a.loop
    ++ encodeExpr a.count

/-- A segment's length field and its bytes (R89). -/
def encodeSegment (seg : List Byte) : List Byte := leBytes 4 seg.length ++ seg

/-- The bytes of an instruction, in stream order (R80, R86 to R92, R101, R104). -/
def encode : Instr → List Byte
  | .startBlock n => [0x60, 0x61] ++ le32 n
  | .endBlockLogical => [0x60, 0x62]
  | .endBlockPhysical => [0x60, 0x63]
  | .filler => [0x60, 0x64]
  | .startBank seg => [0x60, 0x07] ++ encodeSegment seg
  | .continueBank seg => [0x60, 0x08] ++ encodeSegment seg
  | .endBank crc rsvd => [0x60, 0x0E] ++ le16 crc ++ le16 rsvd
  | .toBeContd x0 x1 x2 x3 x4 => [0x60, 0x0F, x0, x1, x2, x3, x4]
  | .unknownVerb v => [0x60, v]
  | .stray b => [b]
  | .block payload crc rsvd => payload ++ le16 crc ++ le16 rsvd
  | .extractU16 a => encodeRecord .u16 a
  | .extractU16U32 a => encodeRecord .u16u32 a
  | .extractU16U64 a => encodeRecord .u16u64 a
  | .extractU32 a => encodeRecord .u32 a
  | .extractU32U64 a => encodeRecord .u32u64 a
  | .extractU64 a => encodeRecord .u64 a
  | .extractS16 a => encodeRecord .s16 a
  | .extractS16S32 a => encodeRecord .s16s32 a
  | .extractS16S64 a => encodeRecord .s16s64 a
  | .extractS32 a => encodeRecord .s32 a
  | .extractS32S64 a => encodeRecord .s32s64 a
  | .extractS64 a => encodeRecord .s64 a
  | .extractF32 a => encodeRecord .f32 a
  | .extractF32F64 a => encodeRecord .f32f64 a
  | .extractF64 a => encodeRecord .f64 a
  | .lit n => encodeExpr (.lit n)
  | .ref sym => encodeExpr (.ref sym)
  | .eq l r => encodeExpr (.cmp .eq l r)
  | .ne l r => encodeExpr (.cmp .ne l r)
  | .lt l r => encodeExpr (.cmp .lt l r)
  | .le l r => encodeExpr (.cmp .le l r)
  | .gt l r => encodeExpr (.cmp .gt l r)
  | .ge l r => encodeExpr (.cmp .ge l r)

/-- The image of a recipe: `n_ops` and the records (R100). -/
def encodeImage (recipe : List Instr) : List Byte :=
  leBytes 2 recipe.length ++ (recipe.map encode).flatten

/-! ## The words of the opcode table -/

/-- The `n` low bytes of `w`, the first stream byte the most significant one, as
`spec/opcode_table.json` numbers them (`30_encoding.md`, its opening note). -/
def tableBytes (n w : Nat) : List Byte := (leBytes n w).reverse

/-- The literal 0, the expression whose operand bytes are all zero. -/
def zeroLiteral : List Byte := encodeExpr (.lit 0)

/-- The instruction a decoder answers, its remaining bytes forgotten. -/
def instrOf (r : Except DecodeError (Instr × List Byte)) : Option Instr :=
  match r with
  | .ok (i, _) => some i
  | .error _ => none

/-- The instruction of a table word (log entry 9). A row of two bytes is a verb frame, its argument bytes
zero. A row of one byte is the first byte of a node or of a record; its operands are zero, and where an
expression must stand that expression is the literal 0. Five bytes begin both a record and a comparison;
they are read as the record. A byte that begins neither is a stray byte. A row of no bits is a block frame
of zeros. -/
def decodeTableWord (nbits w : Nat) : Option Instr :=
  if nbits = 0 then instrOf (decodeBlock (List.replicate Config.blockLen 0))
  else if 8 < nbits then
    instrOf (decodeSymbol (tableBytes ((nbits + 7) / 8) w ++ List.replicate 5 0))
  else
    let b := tableBytes 1 w
    (instrOf (decodeNode 1 (b ++ List.replicate 8 0))).or
      ((instrOf (decodeRecord 1 (b ++ [0, 0, 0] ++ zeroLiteral))).or
        ((instrOf (decodeNode 2 (b ++ zeroLiteral ++ zeroLiteral))).or
          (instrOf (decodeSymbol b))))

end Sys2Proof
end

