-- ==== Sys2Proof/Machine/Operands.lean ====
section
/-! DEFINITION. Operand forms: the header of a bank (`00_scope.md` R14), the values of the 15 recipe types
(`44_recipe_interpreter.md` R226 to R242) and the value of an expression (R243 to R251). -/

namespace Sys2Proof.Machine

/-! ## Banks -/

/-- The Bank whose data is `data`: its id and version are the first two 4-byte fields (R14, R173). -/
def bankOf (data : List Byte) : Bank where
  bankId := BitVec.ofNat 32 (leNat (data.take 4))
  bankVersion := BitVec.ofNat 32 (leNat ((data.drop 4).take 4))
  data := data

/-- A Bank record: at least 8 bytes of data, and the fields are those of the data (R14). -/
abbrev Bank.wf (b : Bank) : Prop := Config.bankHdrLen ≤ b.data.length ∧ b = bankOf b.data

/-! ## Recipe types -/

/-- `KIND` of a type (R102). -/
def typeKind : ExtractType → Kind
  | .u16 | .u16u32 | .u16u64 | .u32 | .u32u64 | .u64 => .uint
  | .s16 | .s16s32 | .s16s64 | .s32 | .s32s64 | .s64 => .sint
  | .f32 | .f32f64 | .f64 => .float

/-- `SW`: the storage width of a type, in bytes (R102). -/
def storageBytes : ExtractType → Nat
  | .u16 | .u16u32 | .u16u64 | .s16 | .s16s32 | .s16s64 => 2
  | .u32 | .u32u64 | .s32 | .s32s64 | .f32 | .f32f64 => 4
  | .u64 | .s64 | .f64 => 8

/-- `LW`: the logical width of a type, in bytes (R102). No value depends on it (R228 to R240). -/
def logicalBytes : ExtractType → Nat
  | .u16 | .s16 => 2
  | .u16u32 | .u32 | .s16s32 | .s32 | .f32 => 4
  | .u16u64 | .u32u64 | .u64 | .s16s64 | .s32s64 | .s64 | .f32f64 | .f64 => 8

/-- `value(ty, s)`: the value of the `sw` bytes `s` under a type (R227 to R241). -/
def typedValue (ty : ExtractType) (s : List Byte) : Scalar :=
  match typeKind ty with
  | .uint => .int (leNat s)
  | .sint => .int (sleInt s)
  | .float => if storageBytes ty = 4 then .flt4 (BitVec.ofNat 32 (leNat s)) else .flt8 (BitVec.ofNat 64 (leNat s))

/-- The value a plain operation stores of what it read (R242, R252). -/
def itemValue : Item → Value
  | .one v => .scalar v
  | .many vs => .seq (vs.map .one)

/-- The result mapping with the loop variable bound to `i` (R252, R254). -/
def bindLoopVar (var : Sym) (i : Nat) (ctx : Record) : Record :=
  mapInsert var.toNat (.scalar (.int i)) ctx

/-! ## Expressions -/

/-- The relation a comparison operator names (R246 to R251). -/
def cmpHolds (op : CmpOp) (x y : Int) : Bool :=
  match op with
  | .eq => x == y
  | .ne => x != y
  | .lt => decide (x < y)
  | .le => decide (x ≤ y)
  | .gt => decide (x > y)
  | .ge => decide (x ≥ y)

/-- The value of a comparison: 1 for true, 0 for false (R243). -/
def cmpValue (op : CmpOp) (x y : Int) : Int := if cmpHolds op x y then 1 else 0

/-- `truth(v) = (v ≠ 0)` (R243). -/
def truth (v : Int) : Bool := v != 0

/-- The value of a reference (R245), or the error it raises. -/
def evalRef (ctx : Record) (sym : Sym) : Except (RinCode × Nat) Int :=
  match mapFind sym.toNat ctx with
  | none => .error (.unresolvedSymbol, sym.toNat)
  | some (.scalar (.int n)) => .ok n
  | some _ => .error (.notScalarInteger, sym.toNat)

/-- `eval(ctx, e)`: a mathematical integer, or the code and aux of the first error met, `lhs` before `rhs`
(R243 to R251, R257). -/
def eval (ctx : Record) : Expr → Except (RinCode × Nat) Int
  | .lit n => .ok n
  | .ref sym => evalRef ctx sym
  | .cmp op l r =>
    match eval ctx l with
    | .error e => .error e
    | .ok x =>
      match eval ctx r with
      | .error e => .error e
      | .ok y => .ok (cmpValue op x y)

/-- Evaluate an expression as the RIN does: its value is left in `val`, or the error is raised (R245,
R284). -/
def rinEval (ctx : Record) (e : Expr) (s : State) : Except State (Int × State) :=
  match eval ctx e with
  | .ok v => .ok (v, { s with rin := { s.rin with val := v } })
  | .error (code, aux) => .error (raiseRin code aux s)

/-! ## Typed extraction -/

/-- `extract(ty)`: one value at the cursor (R226). The truncation test comes first, then the capacity. -/
def extract (ty : ExtractType) (s : State) : Except State (Scalar × State) :=
  if s.rin.data.length < s.rin.cursor + storageBytes ty then
    .error (raiseRin .truncatedPayload (storageBytes ty) s)
  else if s.rin.nvals = s.params.maxResultValues then
    .error (raiseRin .capacity 0 s)
  else
    .ok (typedValue ty ((s.rin.data.drop s.rin.cursor).take (storageBytes ty)),
      { s with rin := { s.rin with
          cursor := s.rin.cursor + storageBytes ty, nvals := s.rin.nvals + 1 } })

/-- `n` values in cursor order (R242). -/
def extractList (ty : ExtractType) : Nat → State → Except State (List Scalar × State)
  | 0, s => .ok ([], s)
  | n + 1, s => do
    let (v, s1) ← extract ty s
    let (vs, s2) ← extractList ty n s1
    pure (v :: vs, s2)

/-- What `c` values read in a row are stored as: a scalar for `c = 1`, else a flat `Seq` (R242). -/
def itemOf : List Scalar → Item
  | [v] => .one v
  | vs => .many vs

/-- `extract_n(ty, c)` (R242). -/
def extractItem (ty : ExtractType) (c : Nat) (s : State) : Except State (Item × State) := do
  let (vs, s1) ← extractList ty c s
  pure (itemOf vs, s1)

/-- A count or a bound: its value, which must be at least 0 (R252, R258). -/
def rinCount (ctx : Record) (e : Expr) (s : State) : Except State (Nat × State) := do
  let (c, s1) ← rinEval ctx e s
  if c < 0 then .error (raiseRin .negativeCount 0 s1) else pure (c.toNat, s1)

end Sys2Proof.Machine
end

