-- ==== Sys2Proof/Machine/BankAssembler.lean ====
section
/-! DEFINITION. The bank reassembler BRA (`42_bank_assembler.md`): a state machine that takes one byte of the
bank stream per BRA step, and the meanings of the ten instructions of that stream.

A meaning runs its whole frame: the action of the verb byte, then one BRA step for each argument byte. The
frame release of `BlockValidator.lean` takes the same BRA steps byte by byte, since a frame may straddle two
blocks. -/

namespace Sys2Proof.Machine

/-- Enter a state with nothing else changed (R165 to R167). -/
def braGoto (st : BraState) (s : State) : State := { s with bra := { s.bra with state := st } }

/-- Enter a state that consumes a fixed-size field: SB_NUM, SEG_LEN, EB_CRC or TBC_SKIP (R163). -/
def braEnterField (st : BraState) (s : State) : State :=
  { s with bra := { s.bra with state := st, k := 0, acc := 0 } }

/-- A byte skipped in SCAN (R161). -/
def skipStray (s : State) : State :=
  { s with counters := { s.counters with strayCount := s.counters.strayCount + 1 } }

/-! ## The actions of the verb bytes (R164 to R174) -/

/-- START_BLOCK's verb byte (R164). -/
def verbStartBlock (s : State) : State := braEnterField .sbNum s

/-- END_BLOCK_LOGICAL's verb byte (R165). -/
def verbEndBlockLogical (s : State) : State := braGoto .scan s

/-- END_BLOCK_PHYSICAL's verb byte (R166). -/
def verbEndBlockPhysical (s : State) : State := braGoto .scan s

/-- FILLER's verb byte (R167). -/
def verbFiller (s : State) : State := braGoto .scan s

/-- START_BANK's verb byte: an open, unfinished bank is discarded silently (R168, R179). -/
def verbStartBank (s : State) : State :=
  braEnterField .segLen { s with bra := { s.bra with buf := [], isOpen := true } }

/-- CONTINUE's verb byte: with no bank open it is START_BANK's (R169). -/
def verbContinue (s : State) : State :=
  braEnterField .segLen
    (if s.bra.isOpen then s else { s with bra := { s.bra with buf := [], isOpen := true } })

/-- TO_BE_CONTD's verb byte (R171). Entering TBC_SKIP clears `bra_acc`, as R163 says (log entry 6). -/
def verbToBeContd (s : State) : State := braEnterField .tbcSkip s

/-- END_BANK's verb byte (R172). -/
def verbEndBank (s : State) : State := braEnterField .ebCrc s

/-- An unknown verb (R174). -/
def verbUnknown (s : State) : State :=
  braGoto .scan
    { s with counters := { s.counters with unknownVerbCount := s.counters.unknownVerbCount + 1 } }

/-! ## Fields, segments and the end of a bank -/

/-- The 4-byte segment length is complete (R170). -/
def braSegLen (len : BitVec 32) (s : State) : State :=
  if len = 0 then braGoto .scan s
  else { s with bra := { s.bra with rem := len, state := .segData } }

/-- A segment byte: appended, or BANK_OVERFLOW when the buffer is full (R170, R180). -/
def braSegByte (b : Byte) (s : State) : Outgoing :=
  if s.bra.buf.length = s.params.maxBankBytes then
    .error (raiseError .bankOverflow 0 0 s.bra.buf.length s)
  else
    .ok { s with bra := { s.bra with
      buf := s.bra.buf ++ [b]
      rem := s.bra.rem - 1
      state := if s.bra.rem - 1 = 0 then .scan else s.bra.state } }

/-- A verified bank is placed on BANK_OUT, counted, and handed to EVG; then no bank is open (R173). An
EVENT_OVERFLOW ends the step with the bank already on BANK_OUT (R278). -/
def braEmitBank (s : State) : Outgoing := do
  let bank := bankOf s.bra.buf
  let s1 := { s with
    queues := { s.queues with bankOut := s.queues.bankOut ++ [bank] }
    counters := { s.counters with bankCount := s.counters.bankCount + 1 } }
  let s2 ← evgBank bank s1
  pure { s2 with bra := { s2.bra with buf := [], isOpen := false, state := .scan } }

/-- The END_BANK field is complete: the CRC check, then the length check (R172, R281). -/
def braEndBank (field : BitVec 32) (s : State) : Outgoing :=
  let expected := field.extractLsb' 0 16
  let actual := crc s.bra.buf
  if expected ≠ actual then
    .error (raiseError .bankCrcMismatch expected actual s.bra.buf.length s)
  else if s.bra.buf.length < Config.bankHdrLen then
    .error (raiseError .bankTooShort 0 0 s.bra.buf.length s)
  else braEmitBank s

/-- The width of the field a state collects (R163). -/
def fieldWidth : BraState → Nat
  | .sbNum | .segLen | .ebCrc => 4
  | .tbcSkip => Config.tbcSkipLen
  | .scan | .verb | .segData => 0

/-- The byte of a fixed-size field is kept, but for the five bytes after TO_BE_CONTD (R163). -/
def braFieldByte (b : Byte) (s : State) : State :=
  { s with bra := { s.bra with
    acc := if s.bra.state = .tbcSkip then s.bra.acc else setByte32 s.bra.k b s.bra.acc
    k := s.bra.k + 1 } }

/-- What a complete field does (R163). -/
def braFieldDone (s : State) : Outgoing :=
  match s.bra.state with
  | .sbNum => .ok (braGoto .scan s)
  | .segLen => .ok (braSegLen s.bra.acc s)
  | .tbcSkip => .ok (braGoto .scan s)
  | .ebCrc => braEndBank s.bra.acc s
  | .scan | .verb | .segData => .ok s

/-- A byte of a fixed-size field, never scanned for OPCODE (R163, R176). -/
def braField (b : Byte) (s : State) : Outgoing :=
  let s1 := braFieldByte b s
  if s1.bra.k = fieldWidth s1.bra.state then
    braFieldDone { s1 with bra := { s1.bra with k := 0 } }
  else .ok s1

/-! ## The FSM -/

/-- SCAN: OPCODE begins a verb frame, any other byte is skipped (R161). -/
def braScan (b : Byte) (s : State) : State :=
  if b = Config.opcodeByte then braGoto .verb s else skipStray s

/-- VERB: the byte after OPCODE is a verb whatever its value, 0x60 included (R162, R175). -/
def braVerb (v : Byte) (s : State) : State :=
  match decodeVerb v with
  | .startBlock => verbStartBlock s
  | .endBlockLogical => verbEndBlockLogical s
  | .endBlockPhysical => verbEndBlockPhysical s
  | .filler => verbFiller s
  | .startBank => verbStartBank s
  | .continueBank => verbContinue s
  | .toBeContd => verbToBeContd s
  | .endBank => verbEndBank s
  | .unknown => verbUnknown s

/-- One BRA step (R160). -/
def braByte (b : Byte) (s : State) : Outgoing :=
  match s.bra.state with
  | .scan => .ok (braScan b s)
  | .verb => .ok (braVerb b s)
  | .sbNum | .segLen | .ebCrc | .tbcSkip => braField b s
  | .segData => braSegByte b s

/-- BRA steps for a byte sequence, stopping at the first error (R146). -/
def braBytes : List Byte → State → Outgoing
  | [], s => .ok s
  | b :: bs, s => do
    let s1 ← braByte b s
    braBytes bs s1

/-- EOS at a clean frame boundary: a benign end in every BRA state (R183). -/
def braEos (s : State) : State :=
  let s1 := evgEos { s with
    status := { s.status with
      endFieldTruncated := s.bra.state != .scan
      endOpenBankDropped := s.bra.isOpen }
    bra := { s.bra with buf := [], isOpen := false } }
  { s1 with status := { s1.status with runState := .done } }

/-! ## The meanings -/

/-- START_BLOCK: the block number is consumed and discarded (R87, R164). -/
def execStartBlock (number : BitVec 32) (s : State) : Result :=
  .next (settle (braBytes (le32 number) (verbStartBlock s)))

/-- END_BLOCK_LOGICAL (R165). -/
def execEndBlockLogical (s : State) : Result := .next (verbEndBlockLogical s)

/-- END_BLOCK_PHYSICAL (R166). -/
def execEndBlockPhysical (s : State) : Result := .next (verbEndBlockPhysical s)

/-- FILLER (R167). -/
def execFiller (s : State) : Result := .next (verbFiller s)

/-- START_BANK with its segment (R168, R170). -/
def execStartBank (segment : List Byte) (s : State) : Result :=
  .next (settle (braBytes (encodeSegment segment) (verbStartBank s)))

/-- CONTINUE with its segment (R169, R170). -/
def execContinueBank (segment : List Byte) (s : State) : Result :=
  .next (settle (braBytes (encodeSegment segment) (verbContinue s)))

/-- END_BANK with its CRC field (R172, R173). -/
def execEndBank (crcField rsvd : BitVec 16) (s : State) : Result :=
  .next (settle (braBytes (le16 crcField ++ le16 rsvd) (verbEndBank s)))

/-- TO_BE_CONTD with its five discarded bytes (R171). -/
def execToBeContd (x0 x1 x2 x3 x4 : Byte) (s : State) : Result :=
  .next (settle (braBytes [x0, x1, x2, x3, x4] (verbToBeContd s)))

/-- An unknown verb: counted and skipped; the verb byte's value plays no part (R174). -/
def execUnknownVerb (_v : Byte) (s : State) : Result := .next (verbUnknown s)

/-- A stray byte: counted and skipped; its value plays no part (R161). -/
def execStray (_b : Byte) (s : State) : Result := .next (skipStray s)

end Sys2Proof.Machine
end

