-- ==== Sys2Proof/Machine/BlockValidator.lean ====
section
/-! DEFINITION. The block frame validator BFV (`41_block_validator.md`) and the stream step, with the meaning
of a block frame. -/

namespace Sys2Proof.Machine

/-- Hand the payload bytes of the release in progress to BRA, in offset order, then discard the frame. An
error in BRA or EVG ends the release: the rest of the payload is discarded, and the index and the fill count
stay as they are (R146, R151). -/
def bfvDrain (s : State) : State :=
  match braBytes s.bfv.releasing { s with bfv := { s.bfv with releasing := [] } } with
  | .error t => t
  | .ok t => { t with bfv := { t.bfv with index := t.bfv.index + 1, fill := 0, trl := 0 } }

/-- The payload in the frame buffer: the bytes at offsets 0..31995 (R60). -/
def bfvPayload (s : State) : List Byte := memReadBytes s.bfv.buf 0 Config.payloadLen

/-- `bfv_release()`: a verified frame is released as one atomic macro-step (R146). -/
def bfvRelease (s : State) : State :=
  bfvDrain { s with bfv := { s.bfv with releasing := bfvPayload s } }

/-- A complete frame: its CRC is checked against the low half of the trailer before any byte of it reaches
BRA (R142 to R145). -/
def bfvFrameComplete (s : State) : State :=
  let expected := s.bfv.trl.extractLsb' 0 16
  let actual := crc (bfvPayload s)
  if expected ≠ actual then raiseError .crcMismatch expected actual 0 s else bfvRelease s

/-- Place a frame byte at offset `bfv_fill`: payload bytes in the frame buffer, trailer bytes in `bfv_trl`,
little-endian (R141). -/
def bfvPlace (b : Byte) (s : State) : State :=
  if s.bfv.fill < Config.payloadLen then
    { s with bfv := { s.bfv with
        buf := memWrite s.bfv.fill b s.bfv.buf, fill := s.bfv.fill + 1 } }
  else
    { s with bfv := { s.bfv with
        trl := setByte32 (s.bfv.fill - Config.payloadLen) b s.bfv.trl, fill := s.bfv.fill + 1 } }

/-- `bfv_byte(b)` (R141). The frame buffer has no offset 32000 (R60): a byte there would be a fault, which only
a state that no run reaches can raise. -/
def bfvByte (b : Byte) (s : State) : Result :=
  if s.bfv.fill < Config.blockLen then
    let s1 := bfvPlace b s
    .next (if s1.bfv.fill = Config.blockLen then bfvFrameComplete s1 else s1)
  else .fault .frameBufferRange

/-- Frame bytes in order, until an error ends the stream (R152). -/
def bfvBytes : List Byte → State → Result
  | [], s => .next s
  | b :: bs, s =>
    match bfvByte b s with
    | .next t => if t.status.runState = .error then .next t else bfvBytes bs t
    | .fault r => .fault r
    | .refused r => .refused r

/-- `bfv_eos()`: the clean end at a frame boundary, else SHORT_BLOCK (R147, R148). -/
def bfvEos (s : State) : State :=
  if s.bfv.fill = 0 then braEos s else raiseError .shortBlock 0 0 s.bfv.fill s

/-- `stream_step(sym)` (R140). -/
def streamStep (sym : InSymbol) (s : State) : Result :=
  let s1 := { s with status := { s.status with started := true } }
  match sym with
  | .byte b => bfvByte b s1
  | .eos => .next (bfvEos s1)

/-- A block frame: its 32000 bytes, payload then trailer, placed and checked, and the payload released
(R80, R141 to R146). -/
def execBlock (payload : List Byte) (crcField rsvd : BitVec 16) (s : State) : Result :=
  bfvBytes (payload ++ le16 crcField ++ le16 rsvd) s

end Sys2Proof.Machine
end

