-- ==== Sys2Proof/Machine/Expression.lean ====
section
/-! DEFINITION. The meanings of the expression nodes (`44_recipe_interpreter.md` R243 to R251). A node is
evaluated in the result mapping; its value is left in `val`, or its error ends the command. The operations of
`Recipe.lean` evaluate their expressions with the same `rinEval`. -/

namespace Sys2Proof.Machine

/-- Evaluate a node in the result mapping. -/
def execNode (e : Expr) (s : State) : Result :=
  match rinEval s.rin.ctx e s with
  | .ok (_, t) => .next t
  | .error t => .next t

/-- LIT (R244). -/
def execLit (n : Int) (s : State) : Result := execNode (.lit n) s

/-- REF (R245). -/
def execRef (sym : Sym) (s : State) : Result := execNode (.ref sym) s

/-- EQ (R246). -/
def execEq (lhs rhs : Expr) (s : State) : Result := execNode (.cmp .eq lhs rhs) s

/-- NE (R247). -/
def execNe (lhs rhs : Expr) (s : State) : Result := execNode (.cmp .ne lhs rhs) s

/-- LT (R248). -/
def execLt (lhs rhs : Expr) (s : State) : Result := execNode (.cmp .lt lhs rhs) s

/-- LE (R249). -/
def execLe (lhs rhs : Expr) (s : State) : Result := execNode (.cmp .le lhs rhs) s

/-- GT (R250). -/
def execGt (lhs rhs : Expr) (s : State) : Result := execNode (.cmp .gt lhs rhs) s

/-- GE (R251). -/
def execGe (lhs rhs : Expr) (s : State) : Result := execNode (.cmp .ge lhs rhs) s

end Sys2Proof.Machine
end

