-- ==== Sys2Proof/Machine/Recipe.lean ====
section
/-! DEFINITION. The operation of a recipe, EXTRACT (`44_recipe_interpreter.md` R252 to R259), and its meaning
for each of the 15 types. -/

namespace Sys2Proof.Machine

/-- `pc <- rin_pc + 1`: no operation jumps (R22, R252). -/
def rinAdvance (s : State) : State := { s with rin := { s.rin with pc := s.rin.pc + 1 } }

/-- `rin_ctx(field) <- v` (R252, R256). -/
def rinStore (field : Sym) (v : Value) (s : State) : State :=
  { s with rin := { s.rin with ctx := mapInsert field.toNat v s.rin.ctx } }

/-- A condition or a guard: absent, it is true (R243, R252). -/
def rinTest (ctx : Record) (e : Option Expr) (s : State) : Except State (Bool × State) :=
  match e with
  | none => .ok (true, s)
  | some e => do
    let (v, s1) ← rinEval ctx e s
    pure (truth v, s1)

/-- One iteration of a loop in its iteration context: the guard, then the count, then the extractions; an
iteration whose guard is false consumes nothing (R254, R255, R257). -/
def rinIteration (ty : ExtractType) (count : Expr) (l : Loop) (i : Nat) (s : State) :
    Except State (List Item × State) := do
  let ictx := bindLoopVar l.var i s.rin.ctx
  let (go, s1) ← rinTest ictx l.guard s
  if go then do
    let (c, s2) ← rinCount ictx count s1
    let (item, s3) ← extractItem ty c s2
    pure ([item], s3)
  else pure ([], s1)

/-- The iterations from `i` upward, `n` of them, and the elements they collect (R252, R254). -/
def rinLoop (ty : ExtractType) (count : Expr) (l : Loop) :
    Nat → Nat → State → Except State (List Item × State)
  | 0, _, s => .ok ([], s)
  | n + 1, i, s => do
    let (items, s1) ← rinIteration ty count l i s
    let (more, s2) ← rinLoop ty count l n (i + 1) s1
    pure (items ++ more, s2)

/-- What an operation stores, in its looped or its plain form (R252). -/
def rinValue (ty : ExtractType) (a : Extract) (s : State) : Except State (Value × State) :=
  match a.loop with
  | some l => do
    let (n, s1) ← rinCount s.rin.ctx l.bound s
    let (items, s2) ← rinLoop ty a.count l n 0 s1
    pure (.seq items, s2)
  | none => do
    let (c, s1) ← rinCount s.rin.ctx a.count s
    let (item, s2) ← extractItem ty c s1
    pure (itemValue item, s2)

/-- `exec_op(op)`: the condition, then the value, then the store (R252, R253, R257). -/
def rinOp (ty : ExtractType) (a : Extract) (s : State) : Outgoing := do
  let (go, s1) ← rinTest s.rin.ctx a.cond s
  if go then do
    let (v, s2) ← rinValue ty a s1
    pure (rinAdvance (rinStore a.field v s2))
  else pure (rinAdvance s1)

/-! ## The meanings -/

/-- EXTRACT of type U16 (R227, R252). -/
def execExtractU16 (a : Extract) (s : State) : Result := .next (settle (rinOp .u16 a s))

/-- EXTRACT of type U16:U32 (R228, R252). -/
def execExtractU16U32 (a : Extract) (s : State) : Result := .next (settle (rinOp .u16u32 a s))

/-- EXTRACT of type U16:U64 (R229, R252). -/
def execExtractU16U64 (a : Extract) (s : State) : Result := .next (settle (rinOp .u16u64 a s))

/-- EXTRACT of type U32 (R230, R252). -/
def execExtractU32 (a : Extract) (s : State) : Result := .next (settle (rinOp .u32 a s))

/-- EXTRACT of type U32:U64 (R231, R252). -/
def execExtractU32U64 (a : Extract) (s : State) : Result := .next (settle (rinOp .u32u64 a s))

/-- EXTRACT of type U64 (R232, R252). -/
def execExtractU64 (a : Extract) (s : State) : Result := .next (settle (rinOp .u64 a s))

/-- EXTRACT of type S16 (R233, R252). -/
def execExtractS16 (a : Extract) (s : State) : Result := .next (settle (rinOp .s16 a s))

/-- EXTRACT of type S16:S32 (R234, R252). -/
def execExtractS16S32 (a : Extract) (s : State) : Result := .next (settle (rinOp .s16s32 a s))

/-- EXTRACT of type S16:S64 (R235, R252). -/
def execExtractS16S64 (a : Extract) (s : State) : Result := .next (settle (rinOp .s16s64 a s))

/-- EXTRACT of type S32 (R236, R252). -/
def execExtractS32 (a : Extract) (s : State) : Result := .next (settle (rinOp .s32 a s))

/-- EXTRACT of type S32:S64 (R237, R252). -/
def execExtractS32S64 (a : Extract) (s : State) : Result := .next (settle (rinOp .s32s64 a s))

/-- EXTRACT of type S64 (R238, R252). -/
def execExtractS64 (a : Extract) (s : State) : Result := .next (settle (rinOp .s64 a s))

/-- EXTRACT of type F32 (R239, R252). -/
def execExtractF32 (a : Extract) (s : State) : Result := .next (settle (rinOp .f32 a s))

/-- EXTRACT of type F32:F64 (R240, R252). -/
def execExtractF32F64 (a : Extract) (s : State) : Result := .next (settle (rinOp .f32f64 a s))

/-- EXTRACT of type F64 (R241, R252). -/
def execExtractF64 (a : Extract) (s : State) : Result := .next (settle (rinOp .f64 a s))

end Sys2Proof.Machine
end

