-- ==== Sys2Proof/Machine/Dispatch.lean ====
section
/-! DEFINITION. The dispatch: one arm per constructor of Instr. -/

namespace Sys2Proof.Machine

def exec (i : Instr) (s : State) : Host.Outcome State Fault Refusal :=
  match i with
  | .startBlock number => Sys2Proof.Machine.execStartBlock number s
  | .endBlockLogical => Sys2Proof.Machine.execEndBlockLogical s
  | .endBlockPhysical => Sys2Proof.Machine.execEndBlockPhysical s
  | .filler => Sys2Proof.Machine.execFiller s
  | .startBank segment => Sys2Proof.Machine.execStartBank segment s
  | .continueBank segment => Sys2Proof.Machine.execContinueBank segment s
  | .endBank crc rsvd => Sys2Proof.Machine.execEndBank crc rsvd s
  | .toBeContd x0 x1 x2 x3 x4 => Sys2Proof.Machine.execToBeContd x0 x1 x2 x3 x4 s
  | .unknownVerb v => Sys2Proof.Machine.execUnknownVerb v s
  | .stray b => Sys2Proof.Machine.execStray b s
  | .block payload crc rsvd => Sys2Proof.Machine.execBlock payload crc rsvd s
  | .extractU16 a => Sys2Proof.Machine.execExtractU16 a s
  | .extractU16U32 a => Sys2Proof.Machine.execExtractU16U32 a s
  | .extractU16U64 a => Sys2Proof.Machine.execExtractU16U64 a s
  | .extractU32 a => Sys2Proof.Machine.execExtractU32 a s
  | .extractU32U64 a => Sys2Proof.Machine.execExtractU32U64 a s
  | .extractU64 a => Sys2Proof.Machine.execExtractU64 a s
  | .extractS16 a => Sys2Proof.Machine.execExtractS16 a s
  | .extractS16S32 a => Sys2Proof.Machine.execExtractS16S32 a s
  | .extractS16S64 a => Sys2Proof.Machine.execExtractS16S64 a s
  | .extractS32 a => Sys2Proof.Machine.execExtractS32 a s
  | .extractS32S64 a => Sys2Proof.Machine.execExtractS32S64 a s
  | .extractS64 a => Sys2Proof.Machine.execExtractS64 a s
  | .extractF32 a => Sys2Proof.Machine.execExtractF32 a s
  | .extractF32F64 a => Sys2Proof.Machine.execExtractF32F64 a s
  | .extractF64 a => Sys2Proof.Machine.execExtractF64 a s
  | .lit n => Sys2Proof.Machine.execLit n s
  | .ref sym => Sys2Proof.Machine.execRef sym s
  | .eq lhs rhs => Sys2Proof.Machine.execEq lhs rhs s
  | .ne lhs rhs => Sys2Proof.Machine.execNe lhs rhs s
  | .lt lhs rhs => Sys2Proof.Machine.execLt lhs rhs s
  | .le lhs rhs => Sys2Proof.Machine.execLe lhs rhs s
  | .gt lhs rhs => Sys2Proof.Machine.execGt lhs rhs s
  | .ge lhs rhs => Sys2Proof.Machine.execGe lhs rhs s

end Sys2Proof.Machine
end

