-- ==== Sys2Proof/Machine/Command.lean ====
section
/-! DEFINITION. The host commands (`60_exceptions.md` R294): SEND, CSR_READ, CSR_WRITE, RTAB_WRITE, RTAB_CLEAR,
DECODE and RESET. A command whose precondition fails is refused and changes nothing. -/

namespace Sys2Proof.Machine

/-- SEND: one stream step, where the stream is RUNNING, the configuration is written and the stream stays
below 2^32 frames (R10, R140, R310, R312). -/
def cmdSend (sym : InSymbol) (s : State) : Result :=
  match s.status.runState with
  | .done => .refused .sendAfterEnd
  | .error => .refused .sendAfterError
  | .running =>
    if s.cfg.valid ≠ 7 then .refused .sendBeforeConfig
    else if sym ≠ .eos ∧ s.bfv.index = 0xFFFFFFFF ∧ s.bfv.fill + 1 = Config.blockLen then
      .refused .sendTooManyFrames
    else streamStep sym s

/-- CSR_READ: the register's value is returned to the host, and nothing else happens (R42, R71). -/
def cmdCsrRead (n : Nat) (s : State) : Result :=
  .next { s with host := { s.host with reads := s.host.reads ++ [(n, csrValue n s)] } }

/-- CSR_WRITE: refused for a CFG register once the stream has started (R43, R311). -/
def cmdCsrWrite (n : Nat) (v : BitVec 32) (s : State) : Result :=
  if isCfgRegister n && s.status.started then .refused .cfgWriteAfterStart
  else .next (csrStore n v s)

/-- RTAB_WRITE: adds or replaces the entry (R27, R294, R313). -/
def cmdRtabWrite (id : BankId) (image : List Byte) (s : State) : Result :=
  if s.rin.state = .busy then .refused .rtabWhileBusy
  else if s.params.maxRecipeBytes < image.length then .refused .rtabImageTooLong
  else .next { s with rtab := mapInsert id.toNat image s.rtab }

/-- RTAB_CLEAR: removes the entry, if there is one (R27, R294, R313). -/
def cmdRtabClear (id : BankId) (s : State) : Result :=
  if s.rin.state = .busy then .refused .rtabWhileBusy
  else .next { s with rtab := mapErase id.toNat s.rtab }

/-- The end of a successful DECODE: the record is `rin_ctx` (R222, R225). -/
def rinSucceed (s : State) : State :=
  { s with
    queues := { s.queues with rinOut := s.queues.rinOut ++ [.ok s.rin.bankId s.rin.ctx] }
    rin := { s.rin with out := s.rin.ctx, code := .ok, state := .done } }

/-- The operations of a recipe, in recipe order, until one ends the command (R222, R225). Each is run by
`exec`. -/
def rinRun : List Instr → State → Result
  | [], s => .next (rinSucceed s)
  | i :: is, s =>
    match exec i s with
    | .next t => if t.rin.state = .busy then rinRun is t else .next t
    | .fault r => .fault r
    | .refused r => .refused r

/-- The state a DECODE starts in: BUSY, with the error registers cleared (R222). -/
def rinAccept (bank : Bank) (s : State) : State :=
  { s with rin := { s.rin with
    state := .busy, errPc := 0, errCursor := 0, errAux := 0, bankId := bank.bankId } }

/-- The state a recipe starts in: the cursor at the first byte of the data, the result mapping empty
(R222, R224). -/
def rinStart (bank : Bank) (s : State) : State :=
  { s with rin := { s.rin with data := bank.data, cursor := 0, ctx := [], pc := 0, nvals := 0 } }

/-- DECODE: one RIN command, one step. NO_RECIPE is checked first, then MALFORMED_RECIPE, both before any
byte of the bank is read (R222, R223, R286). -/
def cmdDecode (bank : Bank) (s : State) : Result :=
  if s.rin.state = .busy then .refused .decodeWhileBusy
  else
    let s1 := rinAccept bank s
    match mapFind bank.bankId.toNat s.rtab with
    | none => .next (rinFinish .noRecipe s1)
    | some image =>
      match decodeImage s.params.maxExprDepth image with
      | .error _ => .next (rinFinish .malformedRecipe s1)
      | .ok recipe => rinRun recipe (rinStart bank s1)

/-- RESET: accepted in every state (R300). -/
def cmdReset (s : State) : Result := .next (resetBlock s)

/-- One host command (R294). -/
def hostCommand (c : HostCmd) (s : State) : Result :=
  match c with
  | .send sym => cmdSend sym s
  | .csrRead n => cmdCsrRead n s
  | .csrWrite n v => cmdCsrWrite n v s
  | .rtabWrite id image => cmdRtabWrite id image s
  | .rtabClear id => cmdRtabClear id s
  | .decode bank => cmdDecode bank s
  | .reset => cmdReset s

/-- What a step does: a release in progress goes on to its end; otherwise the host's next command is
performed; with none issued the block is idle, with no state change (R75, R146, R292). -/
def nextAction (s : State) : Result :=
  if s.status.runState = .running ∧ s.bfv.releasing ≠ [] then .next (bfvDrain s)
  else
    match s.host.todo with
    | [] => .next s
    | c :: rest => hostCommand c { s with host := { s.host with todo := rest } }

/-! ## Placing an instruction where the next step runs it (log entry 9) -/

/-- A symbol of the bank stream: the bytes a release in progress is about to hand to BRA in SCAN. -/
def placeSymbol (i : Instr) (s : State) : State :=
  { s with
    status := { s.status with runState := .running }
    bfv := { s.bfv with releasing := encode i }
    bra := { s.bra with state := .scan } }

/-- A recipe of one operation: its image in RTAB under bank id 0, and a DECODE of a bank of that id whose data
is eight zero bytes as the host's next command. -/
def placeOperation (i : Instr) (s : State) : State :=
  { s with
    rtab := mapInsert 0 (encodeImage [i]) s.rtab
    bfv := { s.bfv with releasing := [] }
    rin := { s.rin with state := .idle }
    host := { s.host with todo := .decode (bankOf (List.replicate 8 0)) :: s.host.todo } }

/-- A block frame: all but its last trailer byte in the frame buffer and the trailer register, and the SEND of
that byte as the host's next command. -/
def placeFrame (payload : List Byte) (trailer : BitVec 32) (s : State) : State :=
  { s with
    cfg := { s.cfg with valid := 7 }
    status := { s.status with runState := .running }
    bfv := { s.bfv with
      fill := 31999, trl := trailer.setWidth 24 |>.setWidth 32, releasing := []
      buf := (payload.zipIdx.filter fun c => c.1 ≠ unlistedByte).map fun c => (c.2, c.1) }
    host := { s.host with todo := .send (.byte (trailer.extractLsb' 24 8)) :: s.host.todo } }

/-- An expression node as the count of a U16 operation. -/
def countOperation (e : Expr) : Instr :=
  .extractU16 { field := 0, cond := none, loop := none, count := e }

/-- Place an instruction so that the next step runs it. -/
def placeInstr (i : Instr) (s : State) : State :=
  match i with
  | .block payload crcField rsvd => placeFrame payload (rsvd ++ crcField) s
  | .lit n => placeOperation (countOperation (.lit n)) s
  | .ref sym => placeOperation (countOperation (.ref sym)) s
  | .eq l r => placeOperation (countOperation (.cmp .eq l r)) s
  | .ne l r => placeOperation (countOperation (.cmp .ne l r)) s
  | .lt l r => placeOperation (countOperation (.cmp .lt l r)) s
  | .le l r => placeOperation (countOperation (.cmp .le l r)) s
  | .gt l r => placeOperation (countOperation (.cmp .gt l r)) s
  | .ge l r => placeOperation (countOperation (.cmp .ge l r)) s
  | i => if i.level = .record then placeOperation i s else placeSymbol i s

end Sys2Proof.Machine
end

