-- ==== Sys2Proof/Machine/Step.lean ====
section
/-! DEFINITION. The step: one atomic transition of the block (`00_scope.md` R5, `20_memory.md` R70). -/

namespace Sys2Proof.Machine

/-- One step: what `nextAction` says. -/
def step (s : State) : Host.Outcome State Fault Refusal := nextAction s

/-- The state with the instruction of a table word stored where the next step runs it (log entry 9). A word
that is no instruction changes nothing. -/
def State.withFetchWord (s : State) (nbits w : Nat) : State :=
  match decodeTableWord nbits w with
  | some i => placeInstr i s
  | none => s

end Sys2Proof.Machine
end

