-- ==== Sys2Proof/Safety.lean ====
section
/-! DEFINITION. What counts as a good state of the block, in the terms the statements use: the ranges and
relations that the spec gives the elements of the state, unit by unit. -/

namespace Sys2Proof.Machine

/-- The stream pipeline's state keeps the ranges and relations the spec gives it. -/
structure StreamInv (s : State) : Prop where
  /-- `bfv_fill` is in 0..BLOCK_LEN (R31). -/
  fill_range : s.bfv.fill ≤ Config.blockLen
  /-- A running stream is inside a frame: `bfv_fill` is BLOCK_LEN only after an error (R31). -/
  fill_running : s.status.runState = .running → s.bfv.fill < Config.blockLen
  /-- A stream that is DONE ended at a frame boundary (R147). -/
  fill_done : s.status.runState = .done → s.bfv.fill = 0
  /-- A release is never in progress between steps (R146). -/
  not_releasing : s.bfv.releasing = []
  /-- The frame buffer keeps its canonical form. -/
  frame_wf : Memory.wf s.bfv.buf
  /-- The frame buffer holds payload bytes only (R31). -/
  frame_range : ∀ c ∈ s.bfv.buf, c.1 < Config.payloadLen
  /-- With no bank open the bank buffer is empty (R184). -/
  closed_bank : s.bra.isOpen = false → s.bra.buf = []
  /-- The bank buffer fits its capacity (R35, R180). -/
  bank_fits : s.bra.buf.length ≤ s.params.maxBankBytes
  /-- `bra_k` is in 0..4, and counts to 4 only in TBC_SKIP (R33). -/
  field_count : s.bra.k ≤ 4 ∧ (s.bra.state ≠ .tbcSkip → s.bra.k ≤ 3)
  /-- A segment belongs to an open bank (R168, R169). -/
  segment_open : s.status.runState = .running →
    s.bra.state = .segLen ∨ s.bra.state = .segData → s.bra.isOpen = true
  /-- In SEG_DATA there are bytes of the segment still to copy (R33). -/
  segment_rem : s.status.runState = .running → s.bra.state = .segData → s.bra.rem ≠ 0
  /-- `MAX_EVENT_BANKS ≥ 1` (R208). -/
  event_capacity : 1 ≤ s.params.maxEventBanks
  /-- The event buffer fits its capacity (R36, R208). -/
  event_fits : s.evg.buf.length ≤ s.params.maxEventBanks
  /-- With no event open the event buffer is empty (R203, R205). -/
  closed_event : s.evg.inEvent = false → s.evg.buf = []
  /-- Every emitted Bank has at least 8 bytes, and its id and version are those of its data (R14, R185). -/
  banks_wf : ∀ b ∈ s.queues.bankOut, b.wf
  /-- The open event holds emitted Banks (R44, R78). -/
  open_event_banks : ∀ b ∈ s.evg.buf, b ∈ s.queues.bankOut
  /-- Every emitted Event holds emitted Banks (R44). -/
  event_banks : ∀ e ∈ s.queues.eventOut, ∀ b ∈ e.banks, b ∈ s.queues.bankOut
  /-- The end flags describe only a DONE ending (R30, R276). -/
  end_flags : s.status.runState ≠ .done →
    s.status.endFieldTruncated = false ∧ s.status.endOpenBankDropped = false
      ∧ s.status.endOpenEventDropped = false
  /-- The error registers are 0 unless an error was raised (R29). -/
  error_registers : s.status.runState ≠ .error →
    s.status.errCode = .none ∧ s.status.errIndex = 0 ∧ s.status.errExpected = 0
      ∧ s.status.errActual = 0 ∧ s.status.errAux = 0
  /-- ERROR is entered with a code other than NONE (R271, R276). -/
  error_code : s.status.runState = .error → s.status.errCode ≠ .none
  /-- Input is accepted only when the configuration is written (R43, R310). -/
  started_configured : s.status.started = true → s.cfg.valid = 7
  /-- Before the first symbol the stream is running at byte 0 of a frame (R300). -/
  not_started : s.status.started = false → s.status.runState = .running ∧ s.bfv.fill = 0

/-- The emission counters are the numbers of emitted Banks and Events, modulo 2^32 (R39). -/
structure CounterInv (s : State) : Prop where
  banks  : s.counters.bankCount = BitVec.ofNat 32 s.queues.bankOut.length
  events : s.counters.eventCount = BitVec.ofNat 32 s.queues.eventOut.length

/-- With `KEEP_MARKERS = 1` every event, open or emitted, begins with its start-marker bank (R207). -/
structure MarkerInv (s : State) : Prop where
  /-- Before the first symbol there is no event (R300). -/
  not_started : s.status.started = false → s.evg.inEvent = false ∧ s.queues.eventOut = []
  /-- The open event. -/
  open_event : keepMarkers s = true → s.evg.inEvent = true →
    ∃ b bs, s.evg.buf = b :: bs ∧ b.bankId = s.cfg.startId
  /-- The emitted Events. -/
  emitted : keepMarkers s = true → ∀ e ∈ s.queues.eventOut,
    ∃ b bs, e.banks = b :: bs ∧ b.bankId = s.cfg.startId

/-- A record is a finite map over u16 symbols (R16, R105). -/
def recordWf (r : Record) : Prop := mapWf r ∧ ∀ c ∈ r, c.1 < 65536

/-- The recipe interpreter's state keeps the ranges and relations the spec gives it. -/
structure RinInv (s : State) : Prop where
  /-- BUSY is never observed between steps (R37). -/
  not_busy : s.rin.state ≠ .busy
  /-- `rin_cursor` is in 0..len(rin_data) (R38). -/
  cursor_range : s.rin.cursor ≤ s.rin.data.length
  /-- `rin_nvals` is in 0..MAX_RESULT_VALUES (R38). -/
  values_range : s.rin.nvals ≤ s.params.maxResultValues
  /-- The result mapping is a finite map from symbols. -/
  ctx_wf : recordWf s.rin.ctx
  /-- So is the last record. -/
  out_wf : recordWf s.rin.out
  /-- The error registers are 0 unless an operation raised an error (R285). -/
  error_registers : s.rin.code = .ok ∨ s.rin.code = .noRecipe ∨ s.rin.code = .malformedRecipe →
    s.rin.errPc = 0 ∧ s.rin.errCursor = 0 ∧ s.rin.errAux = 0

/-- The configuration and the recipe table keep their forms. -/
structure TableInv (s : State) : Prop where
  /-- The reserved bits of CFG_FLAGS read as 0 (R26). -/
  flags_reserved : s.cfg.flags &&& ~~~cfgFlagsMask = 0
  /-- RTAB is a finite map over u32 ids (R27). -/
  rtab_wf : mapWf s.rtab ∧ ∀ e ∈ s.rtab, e.1 < 4294967296
  /-- Every image fits `MAX_RECIPE_BYTES` (R27, R294). -/
  rtab_fits : ∀ e ∈ s.rtab, e.2.length ≤ s.params.maxRecipeBytes

/-- A step that ends in no fault. -/
def stepsSafely (s : State) : Prop := ∀ f, step s ≠ .fault f

end Sys2Proof.Machine
end

