-- ==== Sys2Proof/Certificates/Slice0/Obligations.lean ====
section
/-! DEFINITION. The statements for the provers: one proposition `Obligations.<Name>` for each entry of
OBLIGATIONS.json. The definitions under `Sys2Proof.Claims` spell out, from the rules, the states the statements
speak of; they call none of the meanings. -/

open Sys2Proof Sys2Proof.Machine

namespace Sys2Proof.Claims

/-! ## Stream errors and banks -/

/-- The state after `raise Error(code, index, expected, actual, aux)`: only the error registers and `run_state`
change (R276). -/
def errorState (code : StreamError) (expected actual : BitVec 16) (aux : Nat) (s : State) : State :=
  { s with status := { s.status with
      runState := .error, errCode := code, errIndex := s.bfv.index
      errExpected := expected, errActual := actual, errAux := BitVec.ofNat 32 aux } }

/-- The state with the end-of-bank field taken in: BRA in EB_CRC with the four field bytes collected (R163). -/
def crcField (crcf rsvd : BitVec 16) (s : State) : State :=
  { s with bra := { s.bra with state := .ebCrc, k := 0, acc := rsvd ++ crcf } }

/-- The Bank of a byte sequence (R14, R173). -/
def headerBank (data : List Byte) : Bank where
  bankId := BitVec.ofNat 32 (leNat (data.take 4))
  bankVersion := BitVec.ofNat 32 (leNat ((data.drop 4).take 4))
  data := data

/-- The state with the open bank on BANK_OUT and counted, before EVG sees it (R173). -/
def bankEmitted (crcf rsvd : BitVec 16) (s : State) : State :=
  { crcField crcf rsvd s with
    queues := { s.queues with bankOut := s.queues.bankOut ++ [headerBank s.bra.buf] }
    counters := { s.counters with bankCount := s.counters.bankCount + 1 } }

/-- The state with no bank open and BRA in SCAN (R173). -/
def bankClosed (s : State) : State :=
  { s with bra := { s.bra with buf := [], isOpen := false, state := .scan } }

/-- An END_BANK field that passes both checks of R172. -/
def bankVerified (crcf : BitVec 16) (s : State) : Prop := crcf = crc s.bra.buf ∧ 8 ≤ s.bra.buf.length

/-- The state with one more Event on EVENT_OUT, counted (R202, R203). -/
def eventEmitted (banks : List Bank) (s : State) : State :=
  { s with
    queues := { s.queues with eventOut := s.queues.eventOut ++ [{ banks := banks }] }
    counters := { s.counters with eventCount := s.counters.eventCount + 1 } }

/-- The state with a whole frame received: its payload and trailer in place (R141). -/
def frameReceived (m : Memory) (crcf rsvd : BitVec 16) (s : State) : State :=
  { s with bfv := { s.bfv with buf := m, fill := 32000, trl := rsvd ++ crcf } }

/-- The frame buffer `m` is `m0` with the payload stored at offset 0 upward (R141). -/
def payloadStored (payload : List Byte) (m0 m : Memory) : Prop :=
  ∀ a, memRead m a = if a < payload.length then payload.getD a 0 else memRead m0 a

/-! ## The recipe interpreter -/

/-- The state after `raise RinError(code, pc, cursor, aux)` (R284). -/
def rinFailed (code : RinCode) (aux : Nat) (s : State) : State :=
  { s with
    queues := { s.queues with rinOut := s.queues.rinOut ++ [.fail s.rin.bankId code] }
    rin := { s.rin with
      errPc := BitVec.ofNat 32 s.rin.pc, errCursor := BitVec.ofNat 32 s.rin.cursor
      errAux := BitVec.ofNat 32 aux, code := code, state := .done } }

/-- The state with the value of the last expression evaluated (the model's own field, log entry 4). -/
def withVal (v : Int) (s : State) : State := { s with rin := { s.rin with val := v } }

/-- The instruction answers this next state, whatever it leaves in the model's own field `val` (log entry 4). -/
def runsTo (i : Instr) (s t : State) : Prop := ∃ v, exec i s = .next (withVal v t)

/-- The first byte of every record of a type. -/
def typeByte (make : Extract → Instr) (b : Byte) : Prop := ∀ a, (encode (make a)).head? = some b

/-- An operation that reads one value into a field: no condition, no loop, count 1. -/
def single (field : Sym) : Extract := { field := field, cond := none, loop := none, count := .lit 1 }

/-- The `n` bytes at the cursor hold `v`, little-endian. -/
def bytesAtCursor (n v : Nat) (s : State) : Prop :=
  s.rin.cursor + n ≤ s.rin.data.length ∧ (s.rin.data.drop s.rin.cursor).take n = leBytes n v

/-- The state after such an operation. -/
def oneStored (field : Sym) (v : Scalar) (n : Nat) (s : State) : State :=
  { s with rin := { s.rin with
      cursor := s.rin.cursor + n, nvals := s.rin.nvals + 1, pc := s.rin.pc + 1
      ctx := mapInsert field.toNat (.scalar v) s.rin.ctx } }

/-- The `n` values of a type that stand from an offset of the data upward (R242). -/
def valuesAt (ty : ExtractType) (data : List Byte) (off n : Nat) : List Scalar :=
  (List.range n).map fun k => typedValue ty ((data.drop (off + k * storageBytes ty)).take (storageBytes ty))

/-- What a plain operation stores: the one value, or the list (R242). -/
def plainValue : List Scalar → Value
  | [v] => .scalar v
  | vs => .seq (vs.map .one)

/-- The element one iteration contributes: the one value, or the list (R256). -/
def loopElement : List Scalar → Item
  | [v] => .one v
  | vs => .many vs

/-- A condition is absent or evaluates to a value other than 0 (R243). -/
def condHolds (ctx : Record) (cond : Option Expr) : Prop :=
  cond = none ∨ ∃ e v, cond = some e ∧ eval ctx e = .ok v ∧ v ≠ 0

/-- The iteration context: the result mapping with the loop variable bound (R254). -/
def iterationCtx (l : Loop) (i : Nat) (s : State) : Record := mapInsert l.var.toNat (.scalar (.int i)) s.rin.ctx

/-- The guards of the first `n` iterations evaluate, and `go i` says whether iteration `i` runs (R255). -/
def guardsAre (l : Loop) (go : Nat → Bool) (n : Nat) (s : State) : Prop :=
  ∀ i, i < n → match l.guard with
    | none => go i = true
    | some g => ∃ v, eval (iterationCtx l i s) g = .ok v ∧ go i = (v != 0)

/-- The counts of those of the first `n` iterations that run (R252). -/
def countsAre (count : Expr) (l : Loop) (go : Nat → Bool) (cnt : Nat → Nat) (n : Nat) (s : State) : Prop :=
  ∀ i, i < n → go i = true → eval (iterationCtx l i s) count = .ok (cnt i : Int)

/-- How many values the first `n` iterations read. -/
def readBefore (go : Nat → Bool) (cnt : Nat → Nat) (n : Nat) : Nat :=
  ((List.range n).map fun i => if go i then cnt i else 0).sum

/-- The state with `n` more values of a type read. -/
def valuesRead (ty : ExtractType) (n : Nat) (s : State) : State :=
  { s with rin := { s.rin with
      cursor := s.rin.cursor + n * storageBytes ty, nvals := s.rin.nvals + n } }

/-- `n` more values of a type fit the data and the capacity. -/
def valuesFit (ty : ExtractType) (n : Nat) (s : State) : Prop :=
  s.rin.cursor + n * storageBytes ty ≤ s.rin.data.length ∧ s.rin.nvals + n ≤ s.params.maxResultValues

/-- The state after an operation that stored a value under its field. -/
def fieldStored (field : Sym) (v : Value) (s : State) : State :=
  { s with rin := { s.rin with pc := s.rin.pc + 1, ctx := mapInsert field.toNat v s.rin.ctx } }

/-- The state in which the operations of a DECODE start (R222, R224). -/
def recipeStarted (bank : Bank) (s : State) : State :=
  { s with rin := { s.rin with
      state := .busy, errPc := 0, errCursor := 0, errAux := 0, bankId := bank.bankId
      data := bank.data, cursor := 0, ctx := [], pc := 0, nvals := 0 } }

/-- The state after a DECODE that ends before its recipe starts (R222, R285); `id` is what it leaves in the model's
own field `bankId` (log entry 4). -/
def decodeRejected (bank : Bank) (code : RinCode) (id : BankId) (s : State) : State :=
  { s with
    queues := { s.queues with rinOut := s.queues.rinOut ++ [.fail bank.bankId code] }
    rin := { s.rin with
      state := .done, code := code, errPc := 0, errCursor := 0, errAux := 0, bankId := id } }

/-- Operations in recipe order, each run by `exec`, until one leaves BUSY; after the last one the record is
reported (R222, R225). -/
def runOperations : List Instr → State → State
  | [], s =>
    { s with
      queues := { s.queues with rinOut := s.queues.rinOut ++ [.ok s.rin.bankId s.rin.ctx] }
      rin := { s.rin with out := s.rin.ctx, code := .ok, state := .done } }
  | i :: is, s =>
    match exec i s with
    | .next t => if t.rin.state = .busy then runOperations is t else t
    | _ => s

/-- The units that the stream pipeline owns (R21). -/
def sameStream (s t : State) : Prop :=
  t.status = s.status ∧ t.bfv = s.bfv ∧ t.bra = s.bra ∧ t.evg = s.evg ∧ t.counters = s.counters
    ∧ t.queues.bankOut = s.queues.bankOut ∧ t.queues.eventOut = s.queues.eventOut

/-- The configuration and the recipe table. -/
def sameSettings (s t : State) : Prop := t.params = s.params ∧ t.cfg = s.cfg ∧ t.rtab = s.rtab

/-- The host's next command is not RESET. -/
def noReset (s : State) : Prop := s.host.todo.head? ≠ some .reset

end Sys2Proof.Claims

open Sys2Proof.Claims

/-! ## Encodings -/

/-- Decoding the encoding of a well-formed instruction, at its level, gives the instruction back and consumes
exactly its bytes (R80, R83, R86 to R92, R101 to R104, R107). -/
def Obligations.DecodeEncodeAgree : Prop :=
  ∀ (maxDepth : Nat) (i : Instr) (rest : List Byte), i.wf maxDepth = true →
    decode i.level maxDepth (encode i ++ rest) = .ok (i, rest)

/-- Whatever the decoder accepts is a well-formed instruction of the level, and the bytes it consumed are the
encoding of that instruction (R83, R106). -/
def Obligations.DecodedBytesAreTheEncoding : Prop :=
  ∀ (level : Level) (maxDepth : Nat) (bs rest : List Byte) (i : Instr),
    decode level maxDepth bs = .ok (i, rest) →
    i.wf maxDepth = true ∧ i.level = level ∧ encode i ++ rest = bs

/-- The images that decode are exactly the encodings of the well-formed recipes (R100, R106, R107, R221). -/
def Obligations.ImagesAreRecipes : Prop :=
  ∀ (maxDepth : Nat) (image : List Byte) (recipe : List Instr),
    decodeImage maxDepth image = .ok recipe ↔ recipeWf maxDepth recipe = true ∧ encodeImage recipe = image

/-- A few encodings written out from the rules decode to the instructions they stand for (R86, R101, R104). -/
def Obligations.WordsOfTheSpecDecode : Prop :=
  decodeSymbol [0x60, 0x61, 0x05, 0x00, 0x00, 0x00] = .ok (.startBlock 5, []) ∧
  decodeSymbol [0x60, 0x07, 0x02, 0x00, 0x00, 0x00, 0xAA, 0x60] = .ok (.startBank [0xAA, 0x60], []) ∧
  decodeSymbol [0x60, 0x0E, 0xB5, 0x80, 0x12, 0x34] = .ok (.endBank 0x80B5 0x3412, []) ∧
  decodeSymbol [0x60, 0x60, 0x64] = .ok (.unknownVerb 0x60, [0x64]) ∧
  decodeRecord 1 [0x14, 0x00, 0x00, 0x00, 0x01, 0x01, 0x00, 0x00, 0x00, 0x00, 0x00, 0x00, 0x00] =
    .ok (.extractU32 (single 0), []) ∧
  decodeNode 2 [0x15, 0x02, 0x01, 0x00, 0x01, 0x02, 0x00, 0x00, 0x00, 0x00, 0x00, 0x00, 0x00] =
    .ok (.ge (.ref 1) (.lit 2), [])

/-- A TYPE byte is legal exactly when its fields are, and then kind and widths are those fields (R102); a FLAGS
byte is legal exactly when it is one of the six values, and then C, L and G are its bits 0, 1 and 2 (R103). -/
def Obligations.CarrierBytesLegal : Prop :=
  (∀ b : Byte,
    ((∃ ty, decodeType b = .ok ty) ↔
      (b.extractLsb' 6 2 = 0 ∧ b.extractLsb' 0 2 ≠ 3 ∧ b.extractLsb' 2 2 ≠ 3 ∧ b.extractLsb' 4 2 ≠ 3
        ∧ b.extractLsb' 2 2 ≤ b.extractLsb' 4 2 ∧ (b.extractLsb' 0 2 = 2 → b.extractLsb' 2 2 ≠ 0))) ∧
    ∀ ty, decodeType b = .ok ty →
      typeKind ty = (if b.extractLsb' 0 2 = 0 then .uint else if b.extractLsb' 0 2 = 1 then .sint else .float)
      ∧ storageBytes ty = 2 ^ (1 + (b.extractLsb' 2 2).toNat)
      ∧ logicalBytes ty = 2 ^ (1 + (b.extractLsb' 4 2).toNat)) ∧
  (∀ b : Byte,
    ((∃ f, decodeFlags b = .ok f) ↔ b = 0x00 ∨ b = 0x01 ∨ b = 0x02 ∨ b = 0x03 ∨ b = 0x06 ∨ b = 0x07) ∧
    ∀ c l g, decodeFlags b = .ok (c, l, g) → c = b.getLsbD 0 ∧ l = b.getLsbD 1 ∧ g = b.getLsbD 2)

/-! ## The CRC engine -/

/-- The bit-serial form of the CRC gives the same result as the table form. R127 marks the sentence as the spec's own
derivation, checked by computation: "It gives the same 16-bit result as rule R126 for every input." -/
def Obligations.CrcBitSerialForm : Prop := ∀ bytes : List Byte, crcSerial bytes = crc bytes

/-- The result is the bit reversal of the running state; the CRC can be continued from the state after a prefix; any
all-zero sequence, the empty one included, gives 0. The three are the spec's own derivations: "So the result is the
16-bit bit-reversal of `s`" (R125), "The CRC may be computed incrementally" (R128), "Any all-zero sequence gives
0x0000" (R126). -/
def Obligations.CrcRunningState : Prop :=
  (∀ s : BitVec 16, crcFinish s = s.reverse) ∧
  (∀ p q : List Byte, crc (p ++ q) = crcFinish (crcRun (crcRun 0 p) q)) ∧
  (∀ n : Nat, crc (List.replicate n 0) = 0)

/-- Changing one byte of a sequence always changes its CRC. R144 says so from general knowledge of a flipped bit ("a
single flipped payload bit always changes the CRC") and quotes the source: "corrupting any payload byte causes
`CrcMismatch`". -/
def Obligations.CrcDetectsByteChange : Prop :=
  ∀ (bytes : List Byte) (k : Nat) (b : Byte) (h : k < bytes.length), b ≠ bytes[k] →
    crc (bytes.set k b) ≠ crc bytes

/-! ## The block frame validator -/

/-- A SEND of a byte that does not complete a frame stores it at offset `bfv_fill`, a payload byte in the frame
buffer and a trailer byte in `bfv_trl`, and changes nothing else but the fill count and `started` (R140, R141,
R145). -/
def Obligations.SendFillsFrame : Prop :=
  ∀ (b : Byte) (s : State), s.status.runState = .running → s.cfg.valid = 7 → s.bfv.fill + 1 < 32000 →
    Memory.wf s.bfv.buf →
    ∃ (m : Memory) (trl : BitVec 32),
      hostCommand (.send (.byte b)) s = .next { s with
        status := { s.status with started := true }
        bfv := { s.bfv with buf := m, trl := trl, fill := s.bfv.fill + 1 } } ∧
      (∀ a, memRead m a = if a = s.bfv.fill ∧ s.bfv.fill < 31996 then b else memRead s.bfv.buf a) ∧
      (∀ j, j < 4 → trl.extractLsb' (8 * j) 8 =
        if s.bfv.fill = 31996 + j then b else s.bfv.trl.extractLsb' (8 * j) 8)

/-- A block whose CRC matches is released: its payload goes through BRA byte by byte in offset order, and then
the index advances and the frame is discarded; an error in BRA or EVG ends the release (R141 to R146, R151). The
field `bfv.releasing`, empty during and after the release, is the model's own (log entry 4). -/
def Obligations.BlockReleased : Prop :=
  ∀ (payload : List Byte) (rsvd : BitVec 16) (s : State), payload.length = 31996 →
    s.status.runState = .running → s.bfv.fill = 0 → Memory.wf s.bfv.buf →
    ∃ m, payloadStored payload s.bfv.buf m ∧
      exec (.block payload (crc payload) rsvd) s = .next
        (match braBytes payload
            { frameReceived m (crc payload) rsvd s with
              bfv := { (frameReceived m (crc payload) rsvd s).bfv with releasing := [] } } with
         | .ok t => { t with bfv := { t.bfv with index := t.bfv.index + 1, fill := 0, trl := 0 } }
         | .error t => t)

/-- A block whose CRC does not match raises CRC_MISMATCH: no byte of it reaches BRA (R142, R144, R278). -/
def Obligations.BlockCrcMismatch : Prop :=
  ∀ (payload : List Byte) (crcf rsvd : BitVec 16) (s : State), payload.length = 31996 → crcf ≠ crc payload →
    s.status.runState = .running → s.bfv.fill = 0 → Memory.wf s.bfv.buf →
    ∃ m, payloadStored payload s.bfv.buf m ∧
      exec (.block payload crcf rsvd) s =
        .next (errorState .crcMismatch crcf (crc payload) 0 (frameReceived m crcf rsvd s))

/-- The model's own stop (log entry 5): a block's bytes find no offset in a frame buffer that is already full. -/
def Obligations.BlockNeedsRoom : Prop :=
  ∀ (payload : List Byte) (crcf rsvd : BitVec 16) (s : State), payload.length = 31996 → 32000 ≤ s.bfv.fill →
    exec (.block payload crcf rsvd) s = .fault .frameBufferRange

/-- Sending the 32000 bytes of a frame one step at a time is running the BLOCK instruction (R61, R140 to R146). That
the commands stand in `host.todo` and that no release is in progress in `bfv.releasing` speaks of the model's own
fields (log entries 4 and 10); that BLOCK itself does not set `started` is log entry 15. -/
def Obligations.FrameIsItsSends : Prop :=
  ∀ (payload : List Byte) (crcf rsvd : BitVec 16) (rest : List HostCmd) (s : State),
    payload.length = 31996 → s.status.runState = .running → s.cfg.valid = 7 → s.bfv.fill = 0 →
    s.bfv.releasing = [] → s.bfv.index ≠ 0xFFFFFFFF →
    Sys2Proof.core.run 32000
      ({ s with host := { s.host with
          todo := (payload ++ le16 crcf ++ le16 rsvd).map (fun b => HostCmd.send (.byte b)) ++ rest } } : State) =
    exec (.block payload crcf rsvd) { s with
      status := { s.status with started := true }
      host := { s.host with todo := rest } }

/-- EOS with a partial frame raises SHORT_BLOCK with the number of its bytes, and produces nothing (R148). -/
def Obligations.ShortBlockAtEos : Prop :=
  ∀ s : State, s.status.runState = .running → s.cfg.valid = 7 → 1 ≤ s.bfv.fill → s.bfv.fill ≤ 31999 →
    hostCommand (.send .eos) s =
      .next (errorState .shortBlock 0 0 s.bfv.fill { s with status := { s.status with started := true } })

/-- EOS at a frame boundary ends the stream in every BRA state: the flags record what was dropped, and the open
bank and the open event are discarded (R183, R205). -/
def Obligations.CleanEndAtEos : Prop :=
  ∀ s : State, s.status.runState = .running → s.cfg.valid = 7 → s.bfv.fill = 0 →
    hostCommand (.send .eos) s = .next { s with
      status := { s.status with
        started := true, runState := .done
        endFieldTruncated := decide (s.bra.state ≠ .scan)
        endOpenBankDropped := s.bra.isOpen
        endOpenEventDropped := s.evg.inEvent }
      bra := { s.bra with buf := [], isOpen := false }
      evg := { inEvent := false, buf := [] } }

/-- SEND is refused after the end of the stream, after an error, and before the configuration is written; a step
leaves DONE and ERROR only where the host's next command is RESET (R312). -/
def Obligations.SendRefused : Prop :=
  ∀ (sym : InSymbol) (s : State),
    (s.status.runState = .done → hostCommand (.send sym) s = .refused .sendAfterEnd) ∧
    (s.status.runState = .error → hostCommand (.send sym) s = .refused .sendAfterError) ∧
    (s.status.runState = .running → s.cfg.valid ≠ 7 → hostCommand (.send sym) s = .refused .sendBeforeConfig) ∧
    (∀ t, s.status.runState ≠ .running → noReset s → step s = .next t → t.status.runState = s.status.runState)

/-! ## The bank reassembler -/

/-- END_BLOCK_LOGICAL, END_BLOCK_PHYSICAL and FILLER have their two-byte encodings and write nothing but
`bra_state` (R165, R166, R167). -/
def Obligations.NoOpVerbsRun : Prop :=
  ∀ (i : Instr) (v : Byte) (s : State),
    (i = .endBlockLogical ∧ v = 0x62) ∨ (i = .endBlockPhysical ∧ v = 0x63) ∨ (i = .filler ∧ v = 0x64) →
    encode i = [0x60, v] ∧ exec i s = .next { s with bra := { s.bra with state := .scan } }

/-- A stray byte is counted and skipped, and OPCODE enters VERB (R161); an unknown verb, which is every value but
the eight, consumes two bytes, is counted and changes no bank state (R92, R174). -/
def Obligations.SkippedSymbolsRun : Prop :=
  (∀ (b : Byte) (s : State), exec (.stray b) s =
    .next { s with counters := { s.counters with strayCount := s.counters.strayCount + 1 } }) ∧
  (∀ (b : Byte) (s : State), s.bra.state = .scan → braByte b s =
    .ok (if b = 0x60 then { s with bra := { s.bra with state := .verb } }
      else { s with counters := { s.counters with strayCount := s.counters.strayCount + 1 } })) ∧
  (∀ (v : Byte) (rest : List Byte) (s : State),
    v ∉ ([0x07, 0x08, 0x0E, 0x0F, 0x61, 0x62, 0x63, 0x64] : List Byte) →
    decodeSymbol (0x60 :: v :: rest) = .ok (.unknownVerb v, rest) ∧
    exec (.unknownVerb v) s = .next { s with
      bra := { s.bra with state := .scan }
      counters := { s.counters with unknownVerbCount := s.counters.unknownVerbCount + 1 } })

/-- START_BLOCK's number is collected and discarded: it touches no bank and no stream state (R164). TO_BE_CONTD
discards five bytes, whatever they are, and leaves the bank open or closed as it was; the value it leaves in `bra_acc`
is not stated (R163 against R171; log entry 6). -/
def Obligations.DiscardedFieldsRun : Prop :=
  (∀ (number : BitVec 32) (s : State),
    encode (.startBlock number) = [0x60, 0x61] ++ le32 number ∧
    exec (.startBlock number) s = .next { s with bra := { s.bra with state := .scan, k := 0, acc := number } }) ∧
  (∀ (x0 x1 x2 x3 x4 : Byte) (s : State), ∃ acc,
    encode (.toBeContd x0 x1 x2 x3 x4) = [0x60, 0x0F, x0, x1, x2, x3, x4] ∧
    exec (.toBeContd x0 x1 x2 x3 x4) s = .next { s with bra := { s.bra with state := .scan, k := 0, acc := acc } })

/-- The bytes a segment is appended to: none for START_BANK, which discards an open bank, and for CONTINUE the open
bank's, if one is open (R168, R169). -/
def Sys2Proof.Claims.segmentBase (i : Instr) (seg base : List Byte) (s : State) : Prop :=
  (i = .startBank seg ∧ base = []) ∨ (i = .continueBank seg ∧ base = if s.bra.isOpen then s.bra.buf else [])

/-- A segment that fits is appended to the bank buffer, and the bank is open (R168, R169, R170, R177, R179). -/
def Obligations.SegmentAppended : Prop :=
  ∀ (i : Instr) (seg base : List Byte) (s : State), segmentBase i seg base s →
    base.length + seg.length ≤ s.params.maxBankBytes → seg.length < 2 ^ 32 →
    exec i s = .next { s with bra := { s.bra with
      state := .scan, k := 0, acc := BitVec.ofNat 32 seg.length
      rem := if seg = [] then s.bra.rem else 0
      isOpen := true, buf := base ++ seg } }

/-- A segment that does not fit raises BANK_OVERFLOW at the first byte that finds the buffer full; the bytes before
it stay appended (R170, R180, R276, R277; R278 derives the same). -/
def Obligations.SegmentOverflows : Prop :=
  ∀ (i : Instr) (seg base : List Byte) (s : State), segmentBase i seg base s →
    base.length ≤ s.params.maxBankBytes → s.params.maxBankBytes < base.length + seg.length →
    seg.length < 2 ^ 32 →
    exec i s = .next (errorState .bankOverflow 0 0 s.params.maxBankBytes { s with bra := { s.bra with
      state := .segData, k := 0, acc := BitVec.ofNat 32 seg.length
      rem := BitVec.ofNat 32 (base.length + seg.length - s.params.maxBankBytes)
      isOpen := true, buf := base ++ seg.take (s.params.maxBankBytes - base.length) } })

/-- END_BANK checks the CRC first and the length second; neither failure emits a Bank (R172, R277). -/
def Obligations.EndBankRejects : Prop :=
  ∀ (crcf rsvd : BitVec 16) (s : State),
    (crcf ≠ crc s.bra.buf → exec (.endBank crcf rsvd) s = .next
      (errorState .bankCrcMismatch crcf (crc s.bra.buf) s.bra.buf.length (crcField crcf rsvd s))) ∧
    (crcf = crc s.bra.buf → s.bra.buf.length < 8 → exec (.endBank crcf rsvd) s = .next
      (errorState .bankTooShort 0 0 s.bra.buf.length (crcField crcf rsvd s)))

/-- A verified bank that is no start marker: outside an event it is emitted on BANK_OUT only; inside one, a bank
that is no stop marker joins the event (R173, R203, R204). -/
def Obligations.EndBankMember : Prop :=
  ∀ (crcf rsvd : BitVec 16) (s : State), bankVerified crcf s → (headerBank s.bra.buf).bankId ≠ s.cfg.startId →
    (s.evg.inEvent = false →
      exec (.endBank crcf rsvd) s = .next (bankClosed (bankEmitted crcf rsvd s))) ∧
    (s.evg.inEvent = true → (headerBank s.bra.buf).bankId ≠ s.cfg.stopId →
      s.evg.buf.length ≠ s.params.maxEventBanks →
      exec (.endBank crcf rsvd) s = .next { bankClosed (bankEmitted crcf rsvd s) with
        evg := { inEvent := true, buf := s.evg.buf ++ [headerBank s.bra.buf] } })

/-- A verified start-marker bank: an open event with banks is emitted first, then a new event opens, holding the
marker if KEEP_MARKERS is 1. The start test comes before the stop test (R201, R202). -/
def Obligations.EndBankStartsEvent : Prop :=
  ∀ (crcf rsvd : BitVec 16) (s : State), bankVerified crcf s → (headerBank s.bra.buf).bankId = s.cfg.startId →
    exec (.endBank crcf rsvd) s = .next
      { (if s.evg.inEvent = true ∧ s.evg.buf ≠ [] then
            eventEmitted s.evg.buf (bankClosed (bankEmitted crcf rsvd s))
          else bankClosed (bankEmitted crcf rsvd s)) with
        evg := { inEvent := true
                 buf := if s.cfg.flags.getLsbD 0 then [headerBank s.bra.buf] else [] } }

/-- A verified stop-marker bank inside an event: the event is emitted, with the marker if KEEP_MARKERS is 1, even
when it holds no bank, and closed (R203, R207). -/
def Obligations.EndBankStopsEvent : Prop :=
  ∀ (crcf rsvd : BitVec 16) (s : State), bankVerified crcf s → (headerBank s.bra.buf).bankId ≠ s.cfg.startId →
    (headerBank s.bra.buf).bankId = s.cfg.stopId → s.evg.inEvent = true →
    (s.cfg.flags.getLsbD 0 = true → s.evg.buf.length ≠ s.params.maxEventBanks) →
    exec (.endBank crcf rsvd) s = .next
      { eventEmitted (s.evg.buf ++ if s.cfg.flags.getLsbD 0 then [headerBank s.bra.buf] else [])
          (bankClosed (bankEmitted crcf rsvd s)) with
        evg := { inEvent := false, buf := [] } }

/-- A bank that would be appended to a full event raises EVENT_OVERFLOW: the Bank is on BANK_OUT and counted, but
not in the event, and BRA and EVG are frozen (R208, R276, R277, R281; R278 derives the same). -/
def Obligations.EndBankEventOverflow : Prop :=
  ∀ (crcf rsvd : BitVec 16) (s : State), bankVerified crcf s → (headerBank s.bra.buf).bankId ≠ s.cfg.startId →
    s.evg.inEvent = true → s.evg.buf.length = s.params.maxEventBanks →
    ((headerBank s.bra.buf).bankId = s.cfg.stopId → s.cfg.flags.getLsbD 0 = true) →
    exec (.endBank crcf rsvd) s =
      .next (errorState .eventOverflow 0 0 s.evg.buf.length (bankEmitted crcf rsvd s))

/-- The segments of a bank, with TO_BE_CONTD frames and stray bytes between them, form one Bank whose data is their
concatenation; the CRC and the header are taken over it. The spec derives it (R95, R178): "The segments of one bank
are concatenated in stream order." -/
def Obligations.SegmentsFormBank : Prop :=
  ∀ (seg : List Byte) (more : List (List Byte × List Byte)) (x0 x1 x2 x3 x4 : Byte) (rsvd : BitVec 16)
    (s : State), s.bra.state = .scan → seg.length < 2 ^ 32 →
    (∀ p ∈ more, (∀ b ∈ p.1, b ≠ 0x60) ∧ p.2.length < 2 ^ 32) →
    ∀ data, data = seg ++ (more.map Prod.snd).flatten →
    8 ≤ data.length → data.length ≤ s.params.maxBankBytes → s.evg.inEvent = false →
    (headerBank data).bankId ≠ s.cfg.startId →
    ∃ t, braBytes (encode (.startBank seg)
        ++ (more.map fun p => encode (.toBeContd x0 x1 x2 x3 x4) ++ p.1 ++ encode (.continueBank p.2)).flatten
        ++ encode (.endBank (crc data) rsvd)) s = .ok t ∧
      t.queues = { s.queues with bankOut := s.queues.bankOut ++ [headerBank data] } ∧
      t.counters.bankCount = s.counters.bankCount + 1 ∧
      t.bra.state = .scan ∧ t.bra.isOpen = false ∧ t.bra.buf = [] ∧ t.evg = s.evg ∧ t.status = s.status

/-- Bytes other than 0x60 inserted where BRA is in SCAN change only `stray_count`: every Bank, Event and error is
as without them. The spec derives it (R181): "BRA resynchronises itself." -/
def Obligations.StraysResynchronise : Prop :=
  ∀ (junk rest : List Byte) (s : State), s.bra.state = .scan → (∀ b ∈ junk, b ≠ 0x60) →
    braBytes (junk ++ rest) s =
      (match braBytes rest s with
       | .ok t => .ok { t with counters := { t.counters with
           strayCount := t.counters.strayCount + BitVec.ofNat 32 junk.length } }
       | .error t => .error { t with counters := { t.counters with
           strayCount := t.counters.strayCount + BitVec.ofNat 32 junk.length } })

/-- Two verified blocks do what BRA does over the concatenation of their payloads: "Block boundaries are invisible in
`S`" (R62), so that fields and segments may straddle a boundary, as R182 derives. -/
def Obligations.PayloadsConcatenate : Prop :=
  ∀ (p q : List Byte) (r1 r2 : BitVec 16) (s t : State), p.length = 31996 → q.length = 31996 →
    s.status.runState = .running → s.bfv.fill = 0 → Memory.wf s.bfv.buf → braBytes (p ++ q) s = .ok t →
    ∃ u v, exec (.block p (crc p) r1) s = .next u ∧ exec (.block q (crc q) r2) u = .next v ∧
      v = { t with bfv := v.bfv } ∧ v.bfv.fill = 0 ∧ v.bfv.trl = 0 ∧ v.bfv.index = s.bfv.index + 2

/-! ## A step runs the decoded instruction -/

/-- A step that finds a release in progress, with BRA in SCAN, runs the symbol that the next bytes decode to, and goes
on with the bytes after it unless that symbol raised an error. This first clause is about the model's own field
`bfv.releasing` (log entry 4), which stands for the loop of R146: R146 runs that loop inside one step, so no run
reaches a state between steps in which the field holds bytes (log entry 10), and such a state is where `withFetchWord`
places a symbol (log entry 9). A step that performs a DECODE runs the operations that the bank's recipe image decodes
to, in order (R222, R225). -/
def Obligations.StepRunsDecoded : Prop :=
  (∀ (s : State) (i : Instr) (rest : List Byte), s.status.runState = .running → s.bra.state = .scan →
    decodeSymbol s.bfv.releasing = .ok (i, rest) →
    ∃ t, exec i { s with bfv := { s.bfv with releasing := [] } } = .next t ∧
      step s = .next (if t.status.runState = .error then t
        else bfvDrain { t with bfv := { t.bfv with releasing := rest } })) ∧
  (∀ (s : State) (bank : Bank) (rest : List HostCmd) (image : List Byte) (recipe : List Instr),
    s.bfv.releasing = [] → s.host.todo = .decode bank :: rest → s.rin.state ≠ .busy →
    mapFind bank.bankId.toNat s.rtab = some image → decodeImage s.params.maxExprDepth image = .ok recipe →
    step s = .next (runOperations recipe
      (recipeStarted bank { s with host := { s.host with todo := rest } })))

/-- A plain operation runs the node of its count: where the node ends the command, so does the operation; a
negative value is NEGATIVE_COUNT; any other value is the count (R245, R252, R258). Three of the model's choices stand
in it: that a node is run by `exec` at all (log entry 14), that its value is read from the field `val` (log entry 4),
and that an error leaves the partial mapping and `rin_pc` as they were (log entry 11). -/
def Obligations.OperationRunsCountNode : Prop :=
  ∀ (ty : ExtractType) (field : Sym) (count : Expr) (s t : State), s.rin.state = .busy →
    exec (.ofExpr count) s = .next t →
    (t.rin.state ≠ .busy →
      exec (.extract ty { field := field, cond := none, loop := none, count := count }) s = .next t) ∧
    (t.rin.state = .busy → t.rin.val < 0 →
      exec (.extract ty { field := field, cond := none, loop := none, count := count }) s =
        .next (rinFailed .negativeCount 0 t)) ∧
    (t.rin.state = .busy → 0 ≤ t.rin.val →
      exec (.extract ty { field := field, cond := none, loop := none, count := count }) s =
        exec (.extract ty { field := field, cond := none, loop := none, count := .lit t.rin.val }) t)

/-! ## The recipe interpreter -/

/-- The twelve integer types: the TYPE byte, the storage bytes read, and the unsigned or two's-complement integer
stored; a wider logical width extends the storage bits, and the spec's own derivation that this changes no value is
part of what is stated (R227 to R238). -/
def Obligations.IntegerTypesExtract : Prop :=
  (typeByte .extractU16 0x00 ∧ typeByte .extractU16U32 0x10 ∧ typeByte .extractU16U64 0x20 ∧
    typeByte .extractU32 0x14 ∧ typeByte .extractU32U64 0x24 ∧ typeByte .extractU64 0x28 ∧
    typeByte .extractS16 0x01 ∧ typeByte .extractS16S32 0x11 ∧ typeByte .extractS16S64 0x21 ∧
    typeByte .extractS32 0x15 ∧ typeByte .extractS32S64 0x25 ∧ typeByte .extractS64 0x29) ∧
  ∀ (field : Sym) (s : State), s.rin.nvals ≠ s.params.maxResultValues →
    (∀ v : BitVec 16, bytesAtCursor 2 v.toNat s →
      runsTo (.extractU16 (single field)) s (oneStored field (.int v.toNat) 2 s) ∧
      runsTo (.extractU16U32 (single field)) s (oneStored field (.int (v.setWidth 32).toNat) 2 s) ∧
      runsTo (.extractU16U64 (single field)) s (oneStored field (.int (v.setWidth 64).toNat) 2 s) ∧
      runsTo (.extractS16 (single field)) s (oneStored field (.int v.toInt) 2 s) ∧
      runsTo (.extractS16S32 (single field)) s (oneStored field (.int (v.signExtend 32).toInt) 2 s) ∧
      runsTo (.extractS16S64 (single field)) s (oneStored field (.int (v.signExtend 64).toInt) 2 s)) ∧
    (∀ v : BitVec 32, bytesAtCursor 4 v.toNat s →
      runsTo (.extractU32 (single field)) s (oneStored field (.int v.toNat) 4 s) ∧
      runsTo (.extractU32U64 (single field)) s (oneStored field (.int (v.setWidth 64).toNat) 4 s) ∧
      runsTo (.extractS32 (single field)) s (oneStored field (.int v.toInt) 4 s) ∧
      runsTo (.extractS32S64 (single field)) s (oneStored field (.int (v.signExtend 64).toInt) 4 s)) ∧
    (∀ v : BitVec 64, bytesAtCursor 8 v.toNat s →
      runsTo (.extractU64 (single field)) s (oneStored field (.int v.toNat) 8 s) ∧
      runsTo (.extractS64 (single field)) s (oneStored field (.int v.toInt) 8 s))

/-- The three float types: the TYPE byte, the storage bytes read, and the raw bit pattern stored; F32:F64 stores what
F32 does (R239, R240, R241). -/
def Obligations.FloatTypesExtract : Prop :=
  (typeByte .extractF32 0x16 ∧ typeByte .extractF32F64 0x26 ∧ typeByte .extractF64 0x2A) ∧
  ∀ (field : Sym) (s : State), s.rin.nvals ≠ s.params.maxResultValues →
    (∀ v : BitVec 32, bytesAtCursor 4 v.toNat s →
      runsTo (.extractF32 (single field)) s (oneStored field (.flt4 v) 4 s) ∧
      runsTo (.extractF32F64 (single field)) s (oneStored field (.flt4 v) 4 s)) ∧
    (∀ v : BitVec 64, bytesAtCursor 8 v.toNat s →
      runsTo (.extractF64 (single field)) s (oneStored field (.flt8 v) 8 s))

/-- A plain operation of any type whose values all fit reads `c` of them in cursor order and stores the one value or
the list (R226, R242, R252). That the field `val` keeps the count is the model's choice (log entry 4). -/
def Obligations.PlainOperationStores : Prop :=
  ∀ (ty : ExtractType) (a : Extract) (c : Nat) (s : State), a.loop = none → condHolds s.rin.ctx a.cond →
    eval s.rin.ctx a.count = .ok (c : Int) → valuesFit ty c s →
    exec (.extract ty a) s = .next (fieldStored a.field
      (plainValue (valuesAt ty s.rin.data s.rin.cursor c)) (valuesRead ty c (withVal c s)))

/-- A false condition skips the whole operation: nothing is stored, nothing is read, and neither bound, guard nor
count is evaluated (R253). -/
def Obligations.FalseConditionSkips : Prop :=
  ∀ (ty : ExtractType) (a : Extract) (e : Expr) (s : State), a.cond = some e → eval s.rin.ctx e = .ok 0 →
    runsTo (.extract ty a) s { s with rin := { s.rin with pc := s.rin.pc + 1 } }

/-- A looped operation whose iterations all succeed stores the list of their elements in increasing order of the
loop variable; an iteration whose guard is false reads and adds nothing (R252, R254, R255, R256). -/
def Obligations.LoopedOperationStores : Prop :=
  ∀ (ty : ExtractType) (a : Extract) (l : Loop) (n : Nat) (go : Nat → Bool) (cnt : Nat → Nat) (s : State),
    a.loop = some l → condHolds s.rin.ctx a.cond → eval s.rin.ctx l.bound = .ok (n : Int) →
    guardsAre l go n s → countsAre a.count l go cnt n s → valuesFit ty (readBefore go cnt n) s →
    ∃ v, exec (.extract ty a) s = .next (fieldStored a.field
      (.seq (((List.range n).filter go).map fun i => loopElement (valuesAt ty s.rin.data
        (s.rin.cursor + readBefore go cnt i * storageBytes ty) (cnt i))))
      (valuesRead ty (readBefore go cnt n) (withVal v s)))

/-- A looped operation ends at the first iteration that fails, with the error of its guard, of its count or of its
extraction, which is TRUNCATED_PAYLOAD at the value that does not fit and CAPACITY at the value that is one too many,
the truncation test first, at the cursor where that happens (R226, R252, R255, R257, R258, R259, R285). That the partial mapping and `rin_pc`
stay as they were at the error is the model's choice (log entry 11). -/
def Obligations.LoopedOperationFails : Prop :=
  ∀ (ty : ExtractType) (a : Extract) (l : Loop) (n j : Nat) (go : Nat → Bool) (cnt : Nat → Nat) (s : State),
    a.loop = some l → condHolds s.rin.ctx a.cond → eval s.rin.ctx l.bound = .ok (n : Int) → j < n →
    guardsAre l go j s → countsAre a.count l go cnt j s → valuesFit ty (readBefore go cnt j) s →
    (∀ g code aux, l.guard = some g → eval (iterationCtx l j s) g = .error (code, aux) →
      ∃ v, exec (.extract ty a) s =
        .next (rinFailed code aux (valuesRead ty (readBefore go cnt j) (withVal v s)))) ∧
    (condHolds (iterationCtx l j s) l.guard →
      (∀ code aux, eval (iterationCtx l j s) a.count = .error (code, aux) →
        ∃ v, exec (.extract ty a) s =
          .next (rinFailed code aux (valuesRead ty (readBefore go cnt j) (withVal v s)))) ∧
      (∀ c, eval (iterationCtx l j s) a.count = .ok c → c < 0 →
        exec (.extract ty a) s =
          .next (rinFailed .negativeCount 0 (valuesRead ty (readBefore go cnt j) (withVal c s)))) ∧
      (∀ c k : Nat, eval (iterationCtx l j s) a.count = .ok (c : Int) → k < c →
        valuesFit ty (readBefore go cnt j + k) s →
        (s.rin.data.length < s.rin.cursor + (readBefore go cnt j + k + 1) * storageBytes ty →
          exec (.extract ty a) s = .next (rinFailed .truncatedPayload (storageBytes ty)
            (valuesRead ty (readBefore go cnt j + k) (withVal c s)))) ∧
        (s.rin.cursor + (readBefore go cnt j + k + 1) * storageBytes ty ≤ s.rin.data.length →
          s.rin.nvals + (readBefore go cnt j + k) = s.params.maxResultValues →
          exec (.extract ty a) s = .next (rinFailed .capacity 0
            (valuesRead ty (readBefore go cnt j + k) (withVal c s))))))

/-- The errors of a plain operation: the error of its condition or its count, NEGATIVE_COUNT (which a negative bound
raises too), TRUNCATED_PAYLOAD at the value that does not fit, and CAPACITY at the value that is one too many,
the truncation test first (R226, R252, R257, R258, R259, R285). That the partial mapping and `rin_pc` stay as they
were at the error is the model's choice (log entry 11). -/
def Obligations.OperationErrors : Prop :=
  ∀ (ty : ExtractType) (a : Extract) (s : State),
    (∀ e code aux, a.cond = some e → eval s.rin.ctx e = .error (code, aux) →
      exec (.extract ty a) s = .next (rinFailed code aux s)) ∧
    (condHolds s.rin.ctx a.cond →
      (∀ e code aux, (a.loop = none ∧ e = a.count) ∨ (∃ l, a.loop = some l ∧ e = l.bound) →
        eval s.rin.ctx e = .error (code, aux) →
        ∃ v, exec (.extract ty a) s = .next (rinFailed code aux (withVal v s))) ∧
      (∀ e c, (a.loop = none ∧ e = a.count) ∨ (∃ l, a.loop = some l ∧ e = l.bound) →
        eval s.rin.ctx e = .ok c → c < 0 →
        exec (.extract ty a) s = .next (rinFailed .negativeCount 0 (withVal c s))) ∧
      (∀ c k : Nat, a.loop = none → eval s.rin.ctx a.count = .ok (c : Int) → k < c → valuesFit ty k s →
        (s.rin.data.length < s.rin.cursor + (k + 1) * storageBytes ty →
          exec (.extract ty a) s = .next (rinFailed .truncatedPayload (storageBytes ty)
            (valuesRead ty k (withVal c s)))) ∧
        (s.rin.cursor + (k + 1) * storageBytes ty ≤ s.rin.data.length →
          s.rin.nvals + k = s.params.maxResultValues →
          exec (.extract ty a) s = .next (rinFailed .capacity 0 (valuesRead ty k (withVal c s))))))

/-- Every operation, in every state, ends in a next state that differs in the RIN and RIN_OUT only: either `rin_pc`
advances and at most its own field of the mapping changes, or the command ends with one Fail entry and the mapping,
`rin_out` and `rin_pc` are as before (R252, R261, R262, R284); that the mapping and `rin_pc` are is the model's choice
(log entry 11). -/
def Obligations.OperationFrame : Prop :=
  ∀ (ty : ExtractType) (a : Extract) (s : State), ∃ t, exec (.extract ty a) s = .next t ∧
    sameStream s t ∧ sameSettings s t ∧ t.host = s.host ∧
    t.rin.data = s.rin.data ∧ t.rin.out = s.rin.out ∧ t.rin.bankId = s.rin.bankId ∧
    s.rin.cursor ≤ t.rin.cursor ∧
    ((t.rin.pc = s.rin.pc + 1 ∧ t.rin.state = s.rin.state ∧ t.rin.code = s.rin.code ∧
        t.rin.errPc = s.rin.errPc ∧ t.rin.errCursor = s.rin.errCursor ∧ t.rin.errAux = s.rin.errAux ∧
        t.queues.rinOut = s.queues.rinOut ∧
        (∀ k, k ≠ a.field.toNat → mapFind k t.rin.ctx = mapFind k s.rin.ctx)) ∨
      (t.rin.state = .done ∧ t.rin.pc = s.rin.pc ∧ t.rin.ctx = s.rin.ctx ∧
        t.rin.code ≠ .ok ∧ t.rin.code ≠ .noRecipe ∧ t.rin.code ≠ .malformedRecipe ∧
        t.rin.errPc = BitVec.ofNat 32 s.rin.pc ∧ t.rin.errCursor = BitVec.ofNat 32 t.rin.cursor ∧
        t.queues.rinOut = s.queues.rinOut ++ [.fail s.rin.bankId t.rin.code]))

/-- LIT gives its literal (R244); REF gives the scalar integer stored under its symbol, or raises UNRESOLVED_SYMBOL
or NOT_SCALAR_INTEGER with the symbol (R245). The model's choices in it: that a node is run by `exec` (log entry 14),
that its value is kept in the field `val` (log entry 4), and that an error leaves the partial mapping and `rin_pc` as
they were (log entry 11). -/
def Obligations.LiteralAndReferenceRun : Prop :=
  ∀ (s : State),
    (∀ n, encode (.lit n) = 0x01 :: sle64 n ∧ exec (.lit n) s = .next (withVal n s)) ∧
    (∀ (sym : Sym) (n : Int), mapFind sym.toNat s.rin.ctx = some (.scalar (.int n)) →
      exec (.ref sym) s = .next (withVal n s)) ∧
    (∀ sym : Sym, encode (.ref sym) = 0x02 :: le16 sym ∧
      (mapFind sym.toNat s.rin.ctx = none →
        exec (.ref sym) s = .next (rinFailed .unresolvedSymbol sym.toNat s))) ∧
    (∀ (sym : Sym) (v : Value), mapFind sym.toNat s.rin.ctx = some v → (∀ n, v ≠ .scalar (.int n)) →
      exec (.ref sym) s = .next (rinFailed .notScalarInteger sym.toNat s))

/-- The six comparisons give 1 or 0 from the values of their sides, which are mathematical integers; the error of
the left side comes before that of the right side (R246 to R251, R257). The model's choices in it: that a node is run
by `exec` (log entry 14), that its value is kept in the field `val` (log entry 4), and that an error leaves the partial
mapping and `rin_pc` as they were (log entry 11). -/
def Obligations.ComparisonsRun : Prop :=
  ∀ (lhs rhs : Expr) (s : State),
    (encode (.eq lhs rhs) = 0x10 :: (encodeExpr lhs ++ encodeExpr rhs) ∧
      encode (.ne lhs rhs) = 0x11 :: (encodeExpr lhs ++ encodeExpr rhs) ∧
      encode (.lt lhs rhs) = 0x12 :: (encodeExpr lhs ++ encodeExpr rhs) ∧
      encode (.le lhs rhs) = 0x13 :: (encodeExpr lhs ++ encodeExpr rhs) ∧
      encode (.gt lhs rhs) = 0x14 :: (encodeExpr lhs ++ encodeExpr rhs) ∧
      encode (.ge lhs rhs) = 0x15 :: (encodeExpr lhs ++ encodeExpr rhs)) ∧
    (∀ x y : Int, eval s.rin.ctx lhs = .ok x → eval s.rin.ctx rhs = .ok y →
      exec (.eq lhs rhs) s = .next (withVal (if x = y then 1 else 0) s) ∧
      exec (.ne lhs rhs) s = .next (withVal (if x ≠ y then 1 else 0) s) ∧
      exec (.lt lhs rhs) s = .next (withVal (if x < y then 1 else 0) s) ∧
      exec (.le lhs rhs) s = .next (withVal (if x ≤ y then 1 else 0) s) ∧
      exec (.gt lhs rhs) s = .next (withVal (if x > y then 1 else 0) s) ∧
      exec (.ge lhs rhs) s = .next (withVal (if x ≥ y then 1 else 0) s)) ∧
    (∀ op code aux, eval s.rin.ctx lhs = .error (code, aux) →
      exec (.compare op lhs rhs) s = .next (rinFailed code aux s)) ∧
    (∀ op x code aux, eval s.rin.ctx lhs = .ok x → eval s.rin.ctx rhs = .error (code, aux) →
      exec (.compare op lhs rhs) s = .next (rinFailed code aux s))

/-- The value of an expression is what running its root node leaves: `eval` answers `v` exactly when the node leaves
`v` and changes nothing else (R243). That a node is run by `exec` is the model's choice (log entry 14), and so is the
field `val` (log entry 4). -/
def Obligations.NodeLeavesValue : Prop :=
  ∀ (e : Expr) (v : Int) (s : State),
    eval s.rin.ctx e = .ok v ↔ exec (.ofExpr e) s = .next (withVal v s)

/-- A DECODE of a bank with no recipe ends with NO_RECIPE, and one whose image encodes no well-formed recipe with
MALFORMED_RECIPE; both end before any byte of the bank is read (R222, R223, R286). That `rin_data`, the cursor, the
mapping, `rin_pc` and `rin_nvals` stay as they were is the model's choice (log entry 11). -/
def Obligations.RecipeCheckedFirst : Prop :=
  ∀ (bank : Bank) (s : State), s.rin.state ≠ .busy →
    (mapFind bank.bankId.toNat s.rtab = none →
      ∃ id, hostCommand (.decode bank) s = .next (decodeRejected bank .noRecipe id s)) ∧
    (∀ image, mapFind bank.bankId.toNat s.rtab = some image →
      (∀ recipe, recipeWf s.params.maxExprDepth recipe = true → encodeImage recipe ≠ image) →
      ∃ id, hostCommand (.decode bank) s = .next (decodeRejected bank .malformedRecipe id s))

/-- Every accepted DECODE completes in its one step, whatever the bank, the recipe and the state: it adds exactly one
entry to RIN_OUT, a record that `rin_out` holds or a Fail that leaves `rin_out` as it was, and touches no other unit
(R222, R261, R262, R287). The spec derives that it reports one code (R286): "One DECODE reports exactly one code." -/
def Obligations.DecodeReportsOnce : Prop :=
  ∀ (bank : Bank) (s : State), s.rin.state ≠ .busy →
    ∃ t, hostCommand (.decode bank) s = .next t ∧ t.rin.state = .done ∧
      sameStream s t ∧ sameSettings s t ∧ t.host = s.host ∧
      ((t.rin.code = .ok ∧ t.queues.rinOut = s.queues.rinOut ++ [.ok bank.bankId t.rin.out] ∧
          t.rin.errPc = 0 ∧ t.rin.errCursor = 0 ∧ t.rin.errAux = 0) ∨
        (t.rin.code ≠ .ok ∧ t.queues.rinOut = s.queues.rinOut ++ [.fail bank.bankId t.rin.code] ∧
          t.rin.out = s.rin.out))

/-- A DECODE reads only RTAB and its operand: from two states with the same table and parameters it reports the same
entry and the same error registers, whatever the stream and earlier commands left. The spec derives it (R261):
"Decoding the same bank with the same recipe twice gives the same result". -/
def Obligations.DecodeReadsTableAndBank : Prop :=
  ∀ (bank : Bank) (s s' : State), s.rin.state ≠ .busy → s'.rin.state ≠ .busy →
    s'.rtab = s.rtab → s'.params = s.params →
    ∃ t t' entry, hostCommand (.decode bank) s = .next t ∧ hostCommand (.decode bank) s' = .next t' ∧
      t.queues.rinOut = s.queues.rinOut ++ [entry] ∧ t'.queues.rinOut = s'.queues.rinOut ++ [entry] ∧
      t'.rin.code = t.rin.code ∧ t'.rin.errPc = t.rin.errPc ∧ t'.rin.errCursor = t.rin.errCursor ∧
      t'.rin.errAux = t.rin.errAux

/-- A stream step neither reads nor writes the RIN, the recipe table and RIN_OUT: with other contents of the three it
does the same to everything else (R21, R287). -/
def Obligations.StreamIgnoresInterpreter : Prop :=
  ∀ (sym : InSymbol) (s : State) (rin : Rin) (rtab : FinMap (List Byte)) (results : List RinResult),
    hostCommand (.send sym)
        { s with rin := rin, rtab := rtab, queues := { s.queues with rinOut := results } } =
      (match hostCommand (.send sym) s with
       | .next t => .next { t with rin := rin, rtab := rtab, queues := { t.queues with rinOut := results } }
       | .fault f => .fault f
       | .refused r => .refused r) ∧
    ∀ t, hostCommand (.send sym) s = .next t →
      t.rin = s.rin ∧ t.rtab = s.rtab ∧ t.queues.rinOut = s.queues.rinOut

/-! ## Host commands -/

/-- CSR_READ has no side effect, and the register map is that of R42: the listed registers, the fields of STATUS and
RIN_STATUS, and 0 for every other number and every reserved bit. That the value read is recorded in the model's own
`host.reads` is log entry 4. -/
def Obligations.RegistersRead : Prop :=
  ∀ s : State,
    (∀ n, hostCommand (.csrRead n) s =
      .next { s with host := { s.host with reads := s.host.reads ++ [(n, csrValue n s)] } }) ∧
    csrValue 0x00 s = s.cfg.startId ∧ csrValue 0x01 s = s.cfg.stopId ∧
    (csrValue 0x02 s).getLsbD 0 = s.cfg.flags.getLsbD 0 ∧ (csrValue 0x02 s).extractLsb' 1 31 = 0 ∧
    ((csrValue 0x08 s).extractLsb' 0 2 = (match s.status.runState with
        | .running => 0 | .done => 1 | .error => 2) ∧
      (csrValue 0x08 s).extractLsb' 2 2 = 0 ∧
      (csrValue 0x08 s).extractLsb' 4 4 = (match s.status.errCode with
        | .none => 0 | .shortBlock => 1 | .crcMismatch => 2 | .bankCrcMismatch => 3 | .bankTooShort => 4
        | .bankOverflow => 5 | .eventOverflow => 6) ∧
      (csrValue 0x08 s).getLsbD 8 = s.bra.isOpen ∧ (csrValue 0x08 s).getLsbD 9 = s.evg.inEvent ∧
      (csrValue 0x08 s).getLsbD 10 = s.status.endFieldTruncated ∧
      (csrValue 0x08 s).getLsbD 11 = s.status.endOpenBankDropped ∧
      (csrValue 0x08 s).getLsbD 12 = s.status.endOpenEventDropped ∧
      (csrValue 0x08 s).getLsbD 13 = s.status.started ∧ (csrValue 0x08 s).extractLsb' 14 18 = 0) ∧
    csrValue 0x09 s = s.status.errIndex ∧ csrValue 0x0A s = s.status.errExpected.setWidth 32 ∧
    csrValue 0x0B s = s.status.errActual.setWidth 32 ∧ csrValue 0x0C s = s.status.errAux ∧
    csrValue 0x10 s = s.bfv.index ∧ csrValue 0x11 s = s.counters.bankCount ∧
    csrValue 0x12 s = s.counters.eventCount ∧ csrValue 0x13 s = s.counters.strayCount ∧
    csrValue 0x14 s = s.counters.unknownVerbCount ∧
    ((csrValue 0x18 s).extractLsb' 0 2 = (match s.rin.state with
        | .idle => 0 | .busy => 1 | .done => 2) ∧
      (csrValue 0x18 s).extractLsb' 2 2 = 0 ∧
      (csrValue 0x18 s).extractLsb' 4 4 = (match s.rin.code with
        | .ok => 0 | .noRecipe => 1 | .truncatedPayload => 2 | .malformedRecipe => 3 | .unresolvedSymbol => 4
        | .notScalarInteger => 5 | .negativeCount => 6 | .capacity => 7) ∧
      (csrValue 0x18 s).extractLsb' 8 24 = 0) ∧
    csrValue 0x19 s = s.rin.errPc ∧ csrValue 0x1A s = s.rin.errCursor ∧ csrValue 0x1B s = s.rin.errAux ∧
    (∀ n, n ∉ [0x00, 0x01, 0x02, 0x08, 0x09, 0x0A, 0x0B, 0x0C, 0x10, 0x11, 0x12, 0x13, 0x14, 0x18, 0x19, 0x1A, 0x1B] →
      csrValue n s = 0)

/-- A CFG write before the stream starts stores the value, the reserved bits of CFG_FLAGS as 0, and marks the register
written; a write to any other register changes nothing; a CFG write after the stream has started is refused (R26,
R42, R43, R311). -/
def Obligations.RegistersWritten : Prop :=
  ∀ (v : BitVec 32) (s : State),
    (s.status.started = false →
      hostCommand (.csrWrite 0x00 v) s =
        .next { s with cfg := { s.cfg with startId := v, valid := s.cfg.valid ||| 0b001 } } ∧
      hostCommand (.csrWrite 0x01 v) s =
        .next { s with cfg := { s.cfg with stopId := v, valid := s.cfg.valid ||| 0b010 } } ∧
      hostCommand (.csrWrite 0x02 v) s =
        .next { s with cfg := { s.cfg with flags := v &&& 1, valid := s.cfg.valid ||| 0b100 } }) ∧
    (s.status.started = true → ∀ n, n < 3 →
      hostCommand (.csrWrite n v) s = .refused .cfgWriteAfterStart) ∧
    (∀ n, 3 ≤ n → hostCommand (.csrWrite n v) s = .next s)

/-- RTAB_WRITE adds or replaces the entry of its id, RTAB_CLEAR removes it, and no other entry changes (R27, R77). -/
def Obligations.RecipeTableWritten : Prop :=
  ∀ (id : BankId) (s : State), s.rin.state ≠ .busy → mapWf s.rtab →
    (∀ image : List Byte, image.length ≤ s.params.maxRecipeBytes →
      ∃ r, hostCommand (.rtabWrite id image) s = .next { s with rtab := r } ∧
        ∀ id' : BankId, mapFind id'.toNat r = if id' = id then some image else mapFind id'.toNat s.rtab) ∧
    (∃ r, hostCommand (.rtabClear id) s = .next { s with rtab := r } ∧
      ∀ id' : BankId, mapFind id'.toNat r = if id' = id then none else mapFind id'.toNat s.rtab)

/-- The other host-protocol violations: the RIN is BUSY, an image is longer than MAX_RECIPE_BYTES, and the frame that
would be the 2^32-th is complete (R294, R313, R314). The last one is the model's choice, log entry 8: R10 says that a
model may refuse such streams. -/
def Obligations.HostViolationsRefused : Prop :=
  ∀ (s : State),
    (s.rin.state = .busy →
      (∀ id image, hostCommand (.rtabWrite id image) s = .refused .rtabWhileBusy) ∧
      (∀ id, hostCommand (.rtabClear id) s = .refused .rtabWhileBusy) ∧
      (∀ bank, hostCommand (.decode bank) s = .refused .decodeWhileBusy)) ∧
    (∀ id image, s.rin.state ≠ .busy → s.params.maxRecipeBytes < image.length →
      hostCommand (.rtabWrite id image) s = .refused .rtabImageTooLong) ∧
    (∀ b, s.status.runState = .running → s.cfg.valid = 7 → s.bfv.index = 0xFFFFFFFF → s.bfv.fill = 31999 →
      hostCommand (.send (.byte b)) s = .refused .sendTooManyFrames)

/-- RESET is accepted in every state: every element takes its value after RESET, the output queues are cleared, and
the CFG registers, `cfg_valid` and RTAB keep theirs (R49, R300, R301). What the frame buffer then reads as, and the
model's own fields of the RIN, are left open. -/
def Obligations.ResetRestores : Prop :=
  ∀ s : State, ∃ (m : Memory) (id : BankId) (v : Int), hostCommand .reset s = .next {
    params := s.params, cfg := s.cfg, rtab := s.rtab, host := s.host
    status := {
      runState := .running, started := false
      errCode := .none, errIndex := 0, errExpected := 0, errActual := 0, errAux := 0
      endFieldTruncated := false, endOpenBankDropped := false, endOpenEventDropped := false }
    bfv := { fill := 0, buf := m, trl := 0, index := 0, releasing := [] }
    bra := { state := .scan, k := 0, acc := 0, rem := 0, isOpen := false, buf := [] }
    evg := { inEvent := false, buf := [] }
    counters := { bankCount := 0, eventCount := 0, strayCount := 0, unknownVerbCount := 0 }
    queues := { bankOut := [], eventOut := [], rinOut := [] }
    rin := {
      state := .idle, code := .ok, errPc := 0, errCursor := 0, errAux := 0
      data := [], cursor := 0, pc := 0, nvals := 0, ctx := [], out := [], bankId := id, val := v } }

/-- Power-on is the RESET state with RTAB empty and no CFG register written; no SEND is accepted in it (R302, R310).
What the CFG registers hold there is the model's choice (log entry 1) and is not stated. -/
def Obligations.PowerOnState : Prop :=
  hostCommand .reset State.reset = .next State.reset ∧ State.reset.rtab = [] ∧ State.reset.cfg.valid = 0b000 ∧
  ∀ sym, hostCommand (.send sym) State.reset = .refused .sendBeforeConfig

/-- Between commands the block is idle, with no state change (R292), and it performs the host's commands in the order
issued (R75, R294). That the commands issued stand in the model's own `host.todo`, and that no release is in progress in
`bfv.releasing`, is log entries 4 and 10. -/
def Obligations.IdleOrNextCommand : Prop :=
  ∀ s : State, s.bfv.releasing = [] →
    (s.host.todo = [] → step s = .next s) ∧
    (∀ c rest, s.host.todo = c :: rest →
      step s = hostCommand c { s with host := { s.host with todo := rest } })

/-! ## Invariants and whole-machine rules -/

/-- The state after power-on meets every invariant. -/
def Obligations.PowerOnMeetsInvariants : Prop :=
  StreamInv State.reset ∧ CounterInv State.reset ∧ MarkerInv State.reset ∧ RinInv State.reset
    ∧ TableInv State.reset

/-- From a state that meets the stream invariant no step ends in a fault, and every step keeps the ranges and
relations of the stream pipeline's state (R29 to R36). Two of them are the spec's own derivations: "The invariant
`bra_open = 0 ⇒ bra_buf = []` holds in every reachable state" (R184), and the length of emitted Banks (R185). -/
def Obligations.StreamInvKept : Prop :=
  ∀ s : State, StreamInv s → stepsSafely s ∧ ∀ t, step s = .next t → StreamInv t

/-- Every step keeps the emission counters equal to the numbers of emitted Banks and Events, modulo 2^32 (R39). -/
def Obligations.CounterInvKept : Prop := ∀ s t : State, CounterInv s → step s = .next t → CounterInv t

/-- Every step keeps, under KEEP_MARKERS = 1, that every open or emitted event begins with its start marker. The spec
derives it (R207): "With `KEEP_MARKERS = 1`, every emitted Event begins with its start-marker bank." -/
def Obligations.MarkerInvKept : Prop :=
  ∀ s t : State, StreamInv s → MarkerInv s → step s = .next t → MarkerInv t

/-- Every step keeps the ranges and relations of the RIN's state (BUSY is never seen, the cursor stays inside the
data, the records stay finite maps), the reserved bits of CFG_FLAGS 0, and RTAB a finite map of images that fit (R26,
R27, R37, R38, R285, R313). -/
def Obligations.InterpreterInvKept : Prop :=
  ∀ s t : State, step s = .next t → (RinInv s → RinInv t) ∧ (TableInv s → TableInv t)

/-- DONE and ERROR are terminal: without RESET a step leaves every element of the stream pipeline, and everything it
has emitted, as it is (R28, R276, R279). -/
def Obligations.EndedStreamIsFrozen : Prop :=
  ∀ s t : State, s.status.runState ≠ .running → noReset s → step s = .next t → sameStream s t

/-- The output queues only grow, unless RESET clears them (R44, R300). -/
def Obligations.OutputsOnlyGrow : Prop :=
  ∀ s t : State, noReset s → step s = .next t →
    s.queues.bankOut <+: t.queues.bankOut ∧ s.queues.eventOut <+: t.queues.eventOut
      ∧ s.queues.rinOut <+: t.queues.rinOut
end

