-- ==== Sys2Proof/Laws/Bytes.lean ====
section
/-! SUPPORT. Laws of the little-endian byte order (`20_memory.md` R65). -/

namespace Sys2Proof

@[simp] theorem leBytes_length (n v : Nat) : (leBytes n v).length = n := by
  induction n generalizing v with
  | zero => rfl
  | succ n ih => simp [leBytes, ih]

theorem leNat_leBytes (n v : Nat) : leNat (leBytes n v) = v % 256 ^ n := by
  induction n generalizing v with
  | zero => simp [leBytes, leNat, Nat.mod_one]
  | succ n ih =>
    have h : 256 ^ (n + 1) = 256 * 256 ^ n := by rw [Nat.pow_succ, Nat.mul_comm]
    rw [leBytes, leNat, ih, BitVec.toNat_ofNat, h, Nat.mod_mul]

theorem leNat_lt (bs : List Byte) : leNat bs < 256 ^ bs.length := by
  induction bs with
  | nil => simp [leNat]
  | cons b bs ih =>
    have := b.isLt
    rw [leNat, List.length_cons, Nat.pow_succ]
    omega

theorem leBytes_leNat (bs : List Byte) : leBytes bs.length (leNat bs) = bs := by
  induction bs with
  | nil => rfl
  | cons b bs ih =>
    have hb := b.isLt
    have h1 : (b.toNat + 256 * leNat bs) / 256 = leNat bs := by omega
    have h2 : BitVec.ofNat 8 (b.toNat + 256 * leNat bs) = b := by
      apply BitVec.eq_of_toNat_eq
      rw [BitVec.toNat_ofNat]
      omega
    rw [List.length_cons, leNat, leBytes, h1, h2, ih]

/-- A value that its bytes can hold is read back. -/
theorem leNat_leBytes_of_lt {n v : Nat} (h : v < 256 ^ n) : leNat (leBytes n v) = v := by
  rw [leNat_leBytes, Nat.mod_eq_of_lt h]

@[simp] theorem le32_length (v : BitVec 32) : (le32 v).length = 4 := by simp [le32]

@[simp] theorem le16_length (v : BitVec 16) : (le16 v).length = 2 := by simp [le16]

@[simp] theorem leNat_le32 (v : BitVec 32) : leNat (le32 v) = v.toNat := leNat_leBytes_of_lt v.isLt

@[simp] theorem leNat_le16 (v : BitVec 16) : leNat (le16 v) = v.toNat := leNat_leBytes_of_lt v.isLt

/-! ## Taking fields -/

theorem takeBytes_append {n : Nat} {f : List Byte} (h : f.length = n) (rest : List Byte) :
    takeBytes n (f ++ rest) = .ok (f, rest) := by
  subst h
  simp [takeBytes]

/-- What `takeBytes` can answer. -/
theorem takeBytes_ok {n : Nat} {bs f rest : List Byte} (h : takeBytes n bs = .ok (f, rest)) :
    f.length = n ∧ bs = f ++ rest := by
  unfold takeBytes at h
  split at h
  · simp at h
  · rename_i hn
    simp only [Except.ok.injEq, Prod.mk.injEq] at h
    obtain ⟨rfl, rfl⟩ := h
    exact ⟨by simp; omega, (List.take_append_drop n bs).symm⟩

@[simp] theorem takeU16_le16 (v : BitVec 16) (rest : List Byte) : takeU16 (le16 v ++ rest) = .ok (v, rest) := by
  rw [takeU16, takeBytes_append (le16_length v)]
  show Except.ok (BitVec.ofNat 16 (leNat (le16 v)), rest) = _
  simp

@[simp] theorem takeU32_le32 (v : BitVec 32) (rest : List Byte) : takeU32 (le32 v ++ rest) = .ok (v, rest) := by
  rw [takeU32, takeBytes_append (le32_length v)]
  show Except.ok (BitVec.ofNat 32 (leNat (le32 v)), rest) = _
  simp

end Sys2Proof
end

