-- ==== Sys2Proof/Laws/Memory.lean ====
section
/-! SUPPORT. Laws of finite maps and of byte-addressed memory: what a read after a write gives, and that
every operation keeps the canonical form. -/

namespace Sys2Proof.Machine

variable {α : Type}

/-! ## Reading after an update -/

theorem mapFind_mapInsert (k k' : Nat) (v : α) (m : FinMap α) :
    mapFind k' (mapInsert k v m) = if k' = k then some v else mapFind k' m := by
  induction m with
  | nil => simp [mapInsert, mapFind]
  | cons c m ih =>
    obtain ⟨k₀, v₀⟩ := c
    simp only [mapInsert]
    split
    · simp [mapFind]
    · split
      · subst_vars
        simp only [mapFind]
        split <;> rfl
      · simp only [mapFind, ih]
        split <;> split <;> first | rfl | omega

theorem mapFind_mapErase_other {k k' : Nat} (h : k' ≠ k) (m : FinMap α) :
    mapFind k' (mapErase k m) = mapFind k' m := by
  induction m with
  | nil => rfl
  | cons c m ih =>
    obtain ⟨k₀, v₀⟩ := c
    simp only [mapErase]
    split
    · subst_vars; simp [mapFind, h]
    · simp [mapFind, ih]

/-- A key below every key of a map is not in it. -/
theorem mapFind_none_of_lt {k : Nat} {m : FinMap α} (h : ∀ k' ∈ m.map Prod.fst, k < k') :
    mapFind k m = none := by
  induction m with
  | nil => rfl
  | cons c m ih =>
    have h0 : k < c.1 := h c.1 (by simp)
    have : k ≠ c.1 := by omega
    simp only [mapFind, this, if_false]
    exact ih fun k' hk => h k' (by simp [hk])

theorem mapFind_mapErase_same {k : Nat} {m : FinMap α} (h : mapWf m) : mapFind k (mapErase k m) = none := by
  induction m with
  | nil => rfl
  | cons c m ih =>
    obtain ⟨k₀, v₀⟩ := c
    rw [mapWf, List.map_cons, List.pairwise_cons] at h
    simp only [mapErase]
    split
    · subst_vars; exact mapFind_none_of_lt h.1
    · rename_i hne
      simp [mapFind, hne, ih h.2]

theorem mapFind_mem {k : Nat} {v : α} {m : FinMap α} (h : mapFind k m = some v) : (k, v) ∈ m := by
  induction m with
  | nil => simp [mapFind] at h
  | cons c m ih =>
    obtain ⟨k₀, v₀⟩ := c
    simp only [mapFind] at h
    split at h
    · simp_all
    · exact List.mem_cons_of_mem _ (ih h)

/-! ## The canonical form -/

theorem mem_mapInsert {k : Nat} {v : α} {m : FinMap α} {c : Nat × α} (h : c ∈ mapInsert k v m) :
    c = (k, v) ∨ c ∈ m := by
  induction m with
  | nil => simpa [mapInsert] using h
  | cons d m ih =>
    obtain ⟨k₀, v₀⟩ := d
    simp only [mapInsert] at h
    split at h
    · simpa using h
    · split at h
      · rcases List.mem_cons.1 h with h | h
        · exact .inl h
        · exact .inr (List.mem_cons_of_mem _ h)
      · rcases List.mem_cons.1 h with h | h
        · exact .inr (h ▸ List.mem_cons_self)
        · exact (ih h).imp_right (List.mem_cons_of_mem _)

theorem mem_mapErase {k : Nat} {m : FinMap α} {c : Nat × α} (h : c ∈ mapErase k m) : c ∈ m := by
  induction m with
  | nil => simp [mapErase] at h
  | cons d m ih =>
    obtain ⟨k₀, v₀⟩ := d
    simp only [mapErase] at h
    split at h
    · exact List.mem_cons_of_mem _ h
    · rcases List.mem_cons.1 h with h | h
      · exact h ▸ List.mem_cons_self
      · exact List.mem_cons_of_mem _ (ih h)

theorem mapInsert_wf {k : Nat} {v : α} {m : FinMap α} (h : mapWf m) : mapWf (mapInsert k v m) := by
  induction m with
  | nil => simp [mapInsert, mapWf]
  | cons d m ih =>
    obtain ⟨k₀, v₀⟩ := d
    rw [mapWf, List.map_cons, List.pairwise_cons] at h
    simp only [mapInsert]
    split
    · rename_i hlt
      rw [mapWf, List.map_cons, List.pairwise_cons, List.map_cons, List.pairwise_cons]
      refine ⟨?_, h⟩
      intro k' hk'
      rcases List.mem_cons.1 hk' with rfl | hk'
      · exact hlt
      · exact Nat.lt_trans hlt (h.1 k' hk')
    · rename_i hnlt
      split
      · subst_vars
        rw [mapWf, List.map_cons, List.pairwise_cons]
        exact h
      · rename_i hne
        rw [mapWf, List.map_cons, List.pairwise_cons]
        refine ⟨?_, ih h.2⟩
        intro k' hk'
        obtain ⟨c, hc, rfl⟩ := List.mem_map.1 hk'
        rcases mem_mapInsert hc with rfl | hc
        · show k₀ < k
          omega
        · exact h.1 _ (List.mem_map_of_mem hc)

theorem mapErase_wf {k : Nat} {m : FinMap α} (h : mapWf m) : mapWf (mapErase k m) := by
  induction m with
  | nil => simp [mapErase, mapWf]
  | cons d m ih =>
    obtain ⟨k₀, v₀⟩ := d
    rw [mapWf, List.map_cons, List.pairwise_cons] at h
    simp only [mapErase]
    split
    · exact h.2
    · rw [mapWf, List.map_cons, List.pairwise_cons]
      refine ⟨?_, ih h.2⟩
      intro k' hk'
      obtain ⟨c, hc, rfl⟩ := List.mem_map.1 hk'
      exact h.1 _ (List.mem_map_of_mem (mem_mapErase hc))

/-! ## Memory -/

theorem memWrite_wf {a : Nat} {b : Byte} {m : Memory} (h : m.wf) : (memWrite a b m).wf := by
  unfold memWrite
  split
  · exact ⟨mapErase_wf h.1, fun c hc => h.2 c (mem_mapErase hc)⟩
  · refine ⟨mapInsert_wf h.1, fun c hc => ?_⟩
    rcases mem_mapInsert hc with rfl | hc
    · assumption
    · exact h.2 c hc

theorem memRead_memWrite_other {a a' : Nat} (h : a' ≠ a) (b : Byte) (m : Memory) :
    memRead (memWrite a b m) a' = memRead m a' := by
  unfold memRead memWrite
  split
  · rw [mapFind_mapErase_other h]
  · rw [mapFind_mapInsert, if_neg h]

theorem memRead_memWrite_same {a : Nat} {b : Byte} {m : Memory} (h : m.wf) : memRead (memWrite a b m) a = b := by
  unfold memRead memWrite
  split
  · subst_vars; rw [mapFind_mapErase_same h.1]; rfl
  · rw [mapFind_mapInsert, if_pos rfl]; rfl

/-- A read after a write. -/
theorem memRead_memWrite {m : Memory} (h : m.wf) (a a' : Nat) (b : Byte) :
    memRead (memWrite a b m) a' = if a' = a then b else memRead m a' := by
  split
  · subst_vars; exact memRead_memWrite_same h
  · exact memRead_memWrite_other ‹_› b m

/-- The memory of `State.reset` is in canonical form. -/
theorem reset_memory_wf : Memory.wf State.reset.bfv.buf := by simp [State.reset, Memory.wf, mapWf]

@[simp] theorem memReadBytes_length (m : Memory) (a n : Nat) : (memReadBytes m a n).length = n := by
  simp [memReadBytes]

end Sys2Proof.Machine
end

