-- ==== Sys2Proof/Laws/State.lean ====
section
/-! SUPPORT. The fields of a state after each of the model's named updates: one lemma per unit, true by
`rfl`, so that no later proof unfolds a record update. -/

namespace Sys2Proof.Machine

variable (s : State)

/-! ## `raiseError` -/

@[simp] theorem raiseError_params (c : StreamError) (x y : BitVec 16) (n : Nat) : (raiseError c x y n s).params = s.params := rfl
@[simp] theorem raiseError_cfg (c : StreamError) (x y : BitVec 16) (n : Nat) : (raiseError c x y n s).cfg = s.cfg := rfl
@[simp] theorem raiseError_rtab (c : StreamError) (x y : BitVec 16) (n : Nat) : (raiseError c x y n s).rtab = s.rtab := rfl
@[simp] theorem raiseError_bfv (c : StreamError) (x y : BitVec 16) (n : Nat) : (raiseError c x y n s).bfv = s.bfv := rfl
@[simp] theorem raiseError_bra (c : StreamError) (x y : BitVec 16) (n : Nat) : (raiseError c x y n s).bra = s.bra := rfl
@[simp] theorem raiseError_evg (c : StreamError) (x y : BitVec 16) (n : Nat) : (raiseError c x y n s).evg = s.evg := rfl
@[simp] theorem raiseError_counters (c : StreamError) (x y : BitVec 16) (n : Nat) : (raiseError c x y n s).counters = s.counters := rfl
@[simp] theorem raiseError_queues (c : StreamError) (x y : BitVec 16) (n : Nat) : (raiseError c x y n s).queues = s.queues := rfl
@[simp] theorem raiseError_rin (c : StreamError) (x y : BitVec 16) (n : Nat) : (raiseError c x y n s).rin = s.rin := rfl
@[simp] theorem raiseError_host (c : StreamError) (x y : BitVec 16) (n : Nat) : (raiseError c x y n s).host = s.host := rfl

/-! ## `rinFinish` -/

@[simp] theorem rinFinish_params (c : RinCode) : (rinFinish c s).params = s.params := rfl
@[simp] theorem rinFinish_cfg (c : RinCode) : (rinFinish c s).cfg = s.cfg := rfl
@[simp] theorem rinFinish_rtab (c : RinCode) : (rinFinish c s).rtab = s.rtab := rfl
@[simp] theorem rinFinish_status (c : RinCode) : (rinFinish c s).status = s.status := rfl
@[simp] theorem rinFinish_bfv (c : RinCode) : (rinFinish c s).bfv = s.bfv := rfl
@[simp] theorem rinFinish_bra (c : RinCode) : (rinFinish c s).bra = s.bra := rfl
@[simp] theorem rinFinish_evg (c : RinCode) : (rinFinish c s).evg = s.evg := rfl
@[simp] theorem rinFinish_counters (c : RinCode) : (rinFinish c s).counters = s.counters := rfl
@[simp] theorem rinFinish_host (c : RinCode) : (rinFinish c s).host = s.host := rfl

/-! ## `raiseRin` -/

@[simp] theorem raiseRin_params (c : RinCode) (n : Nat) : (raiseRin c n s).params = s.params := rfl
@[simp] theorem raiseRin_cfg (c : RinCode) (n : Nat) : (raiseRin c n s).cfg = s.cfg := rfl
@[simp] theorem raiseRin_rtab (c : RinCode) (n : Nat) : (raiseRin c n s).rtab = s.rtab := rfl
@[simp] theorem raiseRin_status (c : RinCode) (n : Nat) : (raiseRin c n s).status = s.status := rfl
@[simp] theorem raiseRin_bfv (c : RinCode) (n : Nat) : (raiseRin c n s).bfv = s.bfv := rfl
@[simp] theorem raiseRin_bra (c : RinCode) (n : Nat) : (raiseRin c n s).bra = s.bra := rfl
@[simp] theorem raiseRin_evg (c : RinCode) (n : Nat) : (raiseRin c n s).evg = s.evg := rfl
@[simp] theorem raiseRin_counters (c : RinCode) (n : Nat) : (raiseRin c n s).counters = s.counters := rfl
@[simp] theorem raiseRin_host (c : RinCode) (n : Nat) : (raiseRin c n s).host = s.host := rfl

/-! ## `rinAdvance` -/

@[simp] theorem rinAdvance_params : (rinAdvance s).params = s.params := rfl
@[simp] theorem rinAdvance_cfg : (rinAdvance s).cfg = s.cfg := rfl
@[simp] theorem rinAdvance_rtab : (rinAdvance s).rtab = s.rtab := rfl
@[simp] theorem rinAdvance_status : (rinAdvance s).status = s.status := rfl
@[simp] theorem rinAdvance_bfv : (rinAdvance s).bfv = s.bfv := rfl
@[simp] theorem rinAdvance_bra : (rinAdvance s).bra = s.bra := rfl
@[simp] theorem rinAdvance_evg : (rinAdvance s).evg = s.evg := rfl
@[simp] theorem rinAdvance_counters : (rinAdvance s).counters = s.counters := rfl
@[simp] theorem rinAdvance_queues : (rinAdvance s).queues = s.queues := rfl
@[simp] theorem rinAdvance_host : (rinAdvance s).host = s.host := rfl

/-! ## `rinStore` -/

@[simp] theorem rinStore_params (f : Sym) (v : Value) : (rinStore f v s).params = s.params := rfl
@[simp] theorem rinStore_cfg (f : Sym) (v : Value) : (rinStore f v s).cfg = s.cfg := rfl
@[simp] theorem rinStore_rtab (f : Sym) (v : Value) : (rinStore f v s).rtab = s.rtab := rfl
@[simp] theorem rinStore_status (f : Sym) (v : Value) : (rinStore f v s).status = s.status := rfl
@[simp] theorem rinStore_bfv (f : Sym) (v : Value) : (rinStore f v s).bfv = s.bfv := rfl
@[simp] theorem rinStore_bra (f : Sym) (v : Value) : (rinStore f v s).bra = s.bra := rfl
@[simp] theorem rinStore_evg (f : Sym) (v : Value) : (rinStore f v s).evg = s.evg := rfl
@[simp] theorem rinStore_counters (f : Sym) (v : Value) : (rinStore f v s).counters = s.counters := rfl
@[simp] theorem rinStore_queues (f : Sym) (v : Value) : (rinStore f v s).queues = s.queues := rfl
@[simp] theorem rinStore_host (f : Sym) (v : Value) : (rinStore f v s).host = s.host := rfl

/-! ## `rinAccept` -/

@[simp] theorem rinAccept_params (b : Bank) : (rinAccept b s).params = s.params := rfl
@[simp] theorem rinAccept_cfg (b : Bank) : (rinAccept b s).cfg = s.cfg := rfl
@[simp] theorem rinAccept_rtab (b : Bank) : (rinAccept b s).rtab = s.rtab := rfl
@[simp] theorem rinAccept_status (b : Bank) : (rinAccept b s).status = s.status := rfl
@[simp] theorem rinAccept_bfv (b : Bank) : (rinAccept b s).bfv = s.bfv := rfl
@[simp] theorem rinAccept_bra (b : Bank) : (rinAccept b s).bra = s.bra := rfl
@[simp] theorem rinAccept_evg (b : Bank) : (rinAccept b s).evg = s.evg := rfl
@[simp] theorem rinAccept_counters (b : Bank) : (rinAccept b s).counters = s.counters := rfl
@[simp] theorem rinAccept_queues (b : Bank) : (rinAccept b s).queues = s.queues := rfl
@[simp] theorem rinAccept_host (b : Bank) : (rinAccept b s).host = s.host := rfl

/-! ## `rinStart` -/

@[simp] theorem rinStart_params (b : Bank) : (rinStart b s).params = s.params := rfl
@[simp] theorem rinStart_cfg (b : Bank) : (rinStart b s).cfg = s.cfg := rfl
@[simp] theorem rinStart_rtab (b : Bank) : (rinStart b s).rtab = s.rtab := rfl
@[simp] theorem rinStart_status (b : Bank) : (rinStart b s).status = s.status := rfl
@[simp] theorem rinStart_bfv (b : Bank) : (rinStart b s).bfv = s.bfv := rfl
@[simp] theorem rinStart_bra (b : Bank) : (rinStart b s).bra = s.bra := rfl
@[simp] theorem rinStart_evg (b : Bank) : (rinStart b s).evg = s.evg := rfl
@[simp] theorem rinStart_counters (b : Bank) : (rinStart b s).counters = s.counters := rfl
@[simp] theorem rinStart_queues (b : Bank) : (rinStart b s).queues = s.queues := rfl
@[simp] theorem rinStart_host (b : Bank) : (rinStart b s).host = s.host := rfl

/-! ## `rinSucceed` -/

@[simp] theorem rinSucceed_params : (rinSucceed s).params = s.params := rfl
@[simp] theorem rinSucceed_cfg : (rinSucceed s).cfg = s.cfg := rfl
@[simp] theorem rinSucceed_rtab : (rinSucceed s).rtab = s.rtab := rfl
@[simp] theorem rinSucceed_status : (rinSucceed s).status = s.status := rfl
@[simp] theorem rinSucceed_bfv : (rinSucceed s).bfv = s.bfv := rfl
@[simp] theorem rinSucceed_bra : (rinSucceed s).bra = s.bra := rfl
@[simp] theorem rinSucceed_evg : (rinSucceed s).evg = s.evg := rfl
@[simp] theorem rinSucceed_counters : (rinSucceed s).counters = s.counters := rfl
@[simp] theorem rinSucceed_host : (rinSucceed s).host = s.host := rfl

/-! ## `braGoto` -/

@[simp] theorem braGoto_params (st : BraState) : (braGoto st s).params = s.params := rfl
@[simp] theorem braGoto_cfg (st : BraState) : (braGoto st s).cfg = s.cfg := rfl
@[simp] theorem braGoto_rtab (st : BraState) : (braGoto st s).rtab = s.rtab := rfl
@[simp] theorem braGoto_status (st : BraState) : (braGoto st s).status = s.status := rfl
@[simp] theorem braGoto_bfv (st : BraState) : (braGoto st s).bfv = s.bfv := rfl
@[simp] theorem braGoto_evg (st : BraState) : (braGoto st s).evg = s.evg := rfl
@[simp] theorem braGoto_counters (st : BraState) : (braGoto st s).counters = s.counters := rfl
@[simp] theorem braGoto_queues (st : BraState) : (braGoto st s).queues = s.queues := rfl
@[simp] theorem braGoto_rin (st : BraState) : (braGoto st s).rin = s.rin := rfl
@[simp] theorem braGoto_host (st : BraState) : (braGoto st s).host = s.host := rfl

/-! ## `braEnterField` -/

@[simp] theorem braEnterField_params (st : BraState) : (braEnterField st s).params = s.params := rfl
@[simp] theorem braEnterField_cfg (st : BraState) : (braEnterField st s).cfg = s.cfg := rfl
@[simp] theorem braEnterField_rtab (st : BraState) : (braEnterField st s).rtab = s.rtab := rfl
@[simp] theorem braEnterField_status (st : BraState) : (braEnterField st s).status = s.status := rfl
@[simp] theorem braEnterField_bfv (st : BraState) : (braEnterField st s).bfv = s.bfv := rfl
@[simp] theorem braEnterField_evg (st : BraState) : (braEnterField st s).evg = s.evg := rfl
@[simp] theorem braEnterField_counters (st : BraState) : (braEnterField st s).counters = s.counters := rfl
@[simp] theorem braEnterField_queues (st : BraState) : (braEnterField st s).queues = s.queues := rfl
@[simp] theorem braEnterField_rin (st : BraState) : (braEnterField st s).rin = s.rin := rfl
@[simp] theorem braEnterField_host (st : BraState) : (braEnterField st s).host = s.host := rfl

/-! ## `braFieldByte` -/

@[simp] theorem braFieldByte_params (b : Byte) : (braFieldByte b s).params = s.params := rfl
@[simp] theorem braFieldByte_cfg (b : Byte) : (braFieldByte b s).cfg = s.cfg := rfl
@[simp] theorem braFieldByte_rtab (b : Byte) : (braFieldByte b s).rtab = s.rtab := rfl
@[simp] theorem braFieldByte_status (b : Byte) : (braFieldByte b s).status = s.status := rfl
@[simp] theorem braFieldByte_bfv (b : Byte) : (braFieldByte b s).bfv = s.bfv := rfl
@[simp] theorem braFieldByte_evg (b : Byte) : (braFieldByte b s).evg = s.evg := rfl
@[simp] theorem braFieldByte_counters (b : Byte) : (braFieldByte b s).counters = s.counters := rfl
@[simp] theorem braFieldByte_queues (b : Byte) : (braFieldByte b s).queues = s.queues := rfl
@[simp] theorem braFieldByte_rin (b : Byte) : (braFieldByte b s).rin = s.rin := rfl
@[simp] theorem braFieldByte_host (b : Byte) : (braFieldByte b s).host = s.host := rfl

/-! ## `skipStray` -/

@[simp] theorem skipStray_params : (skipStray s).params = s.params := rfl
@[simp] theorem skipStray_cfg : (skipStray s).cfg = s.cfg := rfl
@[simp] theorem skipStray_rtab : (skipStray s).rtab = s.rtab := rfl
@[simp] theorem skipStray_status : (skipStray s).status = s.status := rfl
@[simp] theorem skipStray_bfv : (skipStray s).bfv = s.bfv := rfl
@[simp] theorem skipStray_bra : (skipStray s).bra = s.bra := rfl
@[simp] theorem skipStray_evg : (skipStray s).evg = s.evg := rfl
@[simp] theorem skipStray_queues : (skipStray s).queues = s.queues := rfl
@[simp] theorem skipStray_rin : (skipStray s).rin = s.rin := rfl
@[simp] theorem skipStray_host : (skipStray s).host = s.host := rfl

/-! ## `verbUnknown` -/

@[simp] theorem verbUnknown_params : (verbUnknown s).params = s.params := rfl
@[simp] theorem verbUnknown_cfg : (verbUnknown s).cfg = s.cfg := rfl
@[simp] theorem verbUnknown_rtab : (verbUnknown s).rtab = s.rtab := rfl
@[simp] theorem verbUnknown_status : (verbUnknown s).status = s.status := rfl
@[simp] theorem verbUnknown_bfv : (verbUnknown s).bfv = s.bfv := rfl
@[simp] theorem verbUnknown_evg : (verbUnknown s).evg = s.evg := rfl
@[simp] theorem verbUnknown_queues : (verbUnknown s).queues = s.queues := rfl
@[simp] theorem verbUnknown_rin : (verbUnknown s).rin = s.rin := rfl
@[simp] theorem verbUnknown_host : (verbUnknown s).host = s.host := rfl

/-! ## `verbToBeContd` -/

@[simp] theorem verbToBeContd_params : (verbToBeContd s).params = s.params := rfl
@[simp] theorem verbToBeContd_cfg : (verbToBeContd s).cfg = s.cfg := rfl
@[simp] theorem verbToBeContd_rtab : (verbToBeContd s).rtab = s.rtab := rfl
@[simp] theorem verbToBeContd_status : (verbToBeContd s).status = s.status := rfl
@[simp] theorem verbToBeContd_bfv : (verbToBeContd s).bfv = s.bfv := rfl
@[simp] theorem verbToBeContd_bra :
    (verbToBeContd s).bra = { s.bra with state := .tbcSkip, k := 0, acc := 0 } := rfl
@[simp] theorem verbToBeContd_evg : (verbToBeContd s).evg = s.evg := rfl
@[simp] theorem verbToBeContd_counters : (verbToBeContd s).counters = s.counters := rfl
@[simp] theorem verbToBeContd_queues : (verbToBeContd s).queues = s.queues := rfl
@[simp] theorem verbToBeContd_rin : (verbToBeContd s).rin = s.rin := rfl
@[simp] theorem verbToBeContd_host : (verbToBeContd s).host = s.host := rfl

/-! ## `verbStartBank` -/

@[simp] theorem verbStartBank_params : (verbStartBank s).params = s.params := rfl
@[simp] theorem verbStartBank_cfg : (verbStartBank s).cfg = s.cfg := rfl
@[simp] theorem verbStartBank_rtab : (verbStartBank s).rtab = s.rtab := rfl
@[simp] theorem verbStartBank_status : (verbStartBank s).status = s.status := rfl
@[simp] theorem verbStartBank_bfv : (verbStartBank s).bfv = s.bfv := rfl
@[simp] theorem verbStartBank_evg : (verbStartBank s).evg = s.evg := rfl
@[simp] theorem verbStartBank_counters : (verbStartBank s).counters = s.counters := rfl
@[simp] theorem verbStartBank_queues : (verbStartBank s).queues = s.queues := rfl
@[simp] theorem verbStartBank_rin : (verbStartBank s).rin = s.rin := rfl
@[simp] theorem verbStartBank_host : (verbStartBank s).host = s.host := rfl

/-! ## `emitEvent` -/

@[simp] theorem emitEvent_params : (emitEvent s).params = s.params := rfl
@[simp] theorem emitEvent_cfg : (emitEvent s).cfg = s.cfg := rfl
@[simp] theorem emitEvent_rtab : (emitEvent s).rtab = s.rtab := rfl
@[simp] theorem emitEvent_status : (emitEvent s).status = s.status := rfl
@[simp] theorem emitEvent_bfv : (emitEvent s).bfv = s.bfv := rfl
@[simp] theorem emitEvent_bra : (emitEvent s).bra = s.bra := rfl
@[simp] theorem emitEvent_evg : (emitEvent s).evg = s.evg := rfl
@[simp] theorem emitEvent_rin : (emitEvent s).rin = s.rin := rfl
@[simp] theorem emitEvent_host : (emitEvent s).host = s.host := rfl

/-! ## `evgEos` -/

@[simp] theorem evgEos_params : (evgEos s).params = s.params := rfl
@[simp] theorem evgEos_cfg : (evgEos s).cfg = s.cfg := rfl
@[simp] theorem evgEos_rtab : (evgEos s).rtab = s.rtab := rfl
@[simp] theorem evgEos_bfv : (evgEos s).bfv = s.bfv := rfl
@[simp] theorem evgEos_bra : (evgEos s).bra = s.bra := rfl
@[simp] theorem evgEos_counters : (evgEos s).counters = s.counters := rfl
@[simp] theorem evgEos_queues : (evgEos s).queues = s.queues := rfl
@[simp] theorem evgEos_rin : (evgEos s).rin = s.rin := rfl
@[simp] theorem evgEos_host : (evgEos s).host = s.host := rfl

/-! ## `braEos` -/

@[simp] theorem braEos_params : (braEos s).params = s.params := rfl
@[simp] theorem braEos_cfg : (braEos s).cfg = s.cfg := rfl
@[simp] theorem braEos_rtab : (braEos s).rtab = s.rtab := rfl
@[simp] theorem braEos_bfv : (braEos s).bfv = s.bfv := rfl
@[simp] theorem braEos_counters : (braEos s).counters = s.counters := rfl
@[simp] theorem braEos_queues : (braEos s).queues = s.queues := rfl
@[simp] theorem braEos_rin : (braEos s).rin = s.rin := rfl
@[simp] theorem braEos_host : (braEos s).host = s.host := rfl

/-! ## `resetBlock` -/

@[simp] theorem resetBlock_params : (resetBlock s).params = s.params := rfl
@[simp] theorem resetBlock_cfg : (resetBlock s).cfg = s.cfg := rfl
@[simp] theorem resetBlock_rtab : (resetBlock s).rtab = s.rtab := rfl
@[simp] theorem resetBlock_host : (resetBlock s).host = s.host := rfl

/-! ## The fields that an update writes -/

@[simp] theorem raiseError_status (c : StreamError) (x y : BitVec 16) (n : Nat) :
    (raiseError c x y n s).status = { s.status with
      errCode := c, errIndex := s.bfv.index, errExpected := x, errActual := y
      errAux := BitVec.ofNat 32 n, runState := .error } := rfl

@[simp] theorem rinFinish_rin (c : RinCode) : (rinFinish c s).rin = { s.rin with code := c, state := .done } := rfl

@[simp] theorem rinFinish_queues (c : RinCode) :
    (rinFinish c s).queues = { s.queues with rinOut := s.queues.rinOut ++ [.fail s.rin.bankId c] } := rfl

@[simp] theorem raiseRin_rin (c : RinCode) (n : Nat) :
    (raiseRin c n s).rin = { s.rin with
      errPc := BitVec.ofNat 32 s.rin.pc, errCursor := BitVec.ofNat 32 s.rin.cursor
      errAux := BitVec.ofNat 32 n, code := c, state := .done } := rfl

@[simp] theorem raiseRin_queues (c : RinCode) (n : Nat) :
    (raiseRin c n s).queues = { s.queues with rinOut := s.queues.rinOut ++ [.fail s.rin.bankId c] } := rfl

@[simp] theorem rinAdvance_rin : (rinAdvance s).rin = { s.rin with pc := s.rin.pc + 1 } := rfl

@[simp] theorem rinStore_rin (f : Sym) (v : Value) :
    (rinStore f v s).rin = { s.rin with ctx := mapInsert f.toNat v s.rin.ctx } := rfl

@[simp] theorem rinSucceed_rin : (rinSucceed s).rin = { s.rin with out := s.rin.ctx, code := .ok, state := .done } :=
  rfl

@[simp] theorem rinSucceed_queues :
    (rinSucceed s).queues = { s.queues with rinOut := s.queues.rinOut ++ [.ok s.rin.bankId s.rin.ctx] } := rfl

@[simp] theorem braGoto_bra (st : BraState) : (braGoto st s).bra = { s.bra with state := st } := rfl

@[simp] theorem braEnterField_bra (st : BraState) :
    (braEnterField st s).bra = { s.bra with state := st, k := 0, acc := 0 } := rfl

@[simp] theorem skipStray_counters :
    (skipStray s).counters = { s.counters with strayCount := s.counters.strayCount + 1 } := rfl

@[simp] theorem emitEvent_queues :
    (emitEvent s).queues = { s.queues with eventOut := s.queues.eventOut ++ [{ banks := s.evg.buf }] } := rfl

@[simp] theorem emitEvent_counters :
    (emitEvent s).counters = { s.counters with eventCount := s.counters.eventCount + 1 } := rfl

@[simp] theorem settle_ok : settle (.ok s) = s := rfl

@[simp] theorem settle_error : settle (.error s) = s := rfl

end Sys2Proof.Machine
end

