-- ==== Sys2Proof/Laws/Recipe.lean ====
section
/-! SUPPORT. What the operations of the recipe interpreter can do, said once each: evaluating an expression,
extracting a value, a loop and a whole operation. -/

namespace Sys2Proof.Machine

/-! ## Reading -/

/-- The states that evaluating and extracting lead to: the cursor moves forward inside the data, the number of
values stays in its range, and only the cursor, that number and the last expression's value change. -/
structure RinReads (s t : State) : Prop where
  eq : t = { s with rin := { s.rin with cursor := t.rin.cursor, nvals := t.rin.nvals, val := t.rin.val } }
  forward : s.rin.cursor ≤ t.rin.cursor
  inside : s.rin.cursor ≤ s.rin.data.length → t.rin.cursor ≤ s.rin.data.length
  counted : s.rin.nvals ≤ s.params.maxResultValues → t.rin.nvals ≤ s.params.maxResultValues

theorem RinReads.refl (s : State) : RinReads s s := ⟨rfl, Nat.le_refl _, id, id⟩

theorem RinReads.data {s t : State} (h : RinReads s t) : t.rin.data = s.rin.data := by rw [h.eq]

theorem RinReads.params {s t : State} (h : RinReads s t) : t.params = s.params := by rw [h.eq]

theorem RinReads.ctx {s t : State} (h : RinReads s t) : t.rin.ctx = s.rin.ctx := by rw [h.eq]

theorem RinReads.trans {s t u : State} (h : RinReads s t) (k : RinReads t u) : RinReads s u where
  eq := by rw [k.eq, h.eq]
  forward := Nat.le_trans h.forward k.forward
  inside := fun hs => h.data ▸ k.inside (h.data.symm ▸ h.inside hs)
  counted := fun hs => h.params ▸ k.counted (h.params.symm ▸ h.counted hs)

/-- What a reading operation answers: a result with a state it reads to, or the state in which an error was
raised from a state it reads to (R284). -/
inductive ReadOutcome {α : Type} (s : State) : Except State (α × State) → Prop
  | ok {a : α} {t : State} (reads : RinReads s t) : ReadOutcome s (.ok (a, t))
  | error {u : State} (code : RinCode) (aux : Nat) (reads : RinReads s u)
      (failed : code ≠ .ok ∧ code ≠ .noRecipe ∧ code ≠ .malformedRecipe) :
      ReadOutcome s (.error (raiseRin code aux u))

theorem ReadOutcome.bind {α β : Type} {s : State} {r : Except State (α × State)}
    {f : α × State → Except State (β × State)} (h : ReadOutcome s r)
    (hf : ∀ a t, ReadOutcome t (f (a, t))) : ReadOutcome s (r >>= f) := by
  cases h with
  | error code aux reads failed => exact .error code aux reads failed
  | @ok a t reads =>
    show ReadOutcome s (f (a, t))
    generalize hr : f (a, t) = r'
    have := hr ▸ hf a t
    cases this with
    | ok reads' => exact .ok (reads.trans reads')
    | error code aux reads' failed => exact .error code aux (reads.trans reads') failed

theorem ReadOutcome.pure {α : Type} (a : α) (s : State) : ReadOutcome s (pure (a, s)) := .ok (.refl s)

/-! ## Expressions -/

/-- What evaluating can do: it answers the value, kept in `val`, or raises the error of the evaluation. -/
theorem rinEval_cases (ctx : Record) (e : Expr) (s : State) :
    (∃ v, eval ctx e = .ok v ∧ rinEval ctx e s = .ok (v, { s with rin := { s.rin with val := v } })) ∨
    (∃ code aux, eval ctx e = .error (code, aux) ∧ rinEval ctx e s = .error (raiseRin code aux s)) := by
  unfold rinEval
  cases h : eval ctx e with
  | ok v => exact .inl ⟨v, rfl, rfl⟩
  | error x => exact .inr ⟨x.1, x.2, rfl, rfl⟩

/-- An evaluation fails with one of two codes, and its aux is a symbol (R245). -/
theorem eval_error {ctx : Record} {e : Expr} {code : RinCode} {aux : Nat} (h : eval ctx e = .error (code, aux)) :
    (code = .unresolvedSymbol ∨ code = .notScalarInteger) ∧ aux < 65536 := by
  induction e with
  | lit n => simp [eval] at h
  | ref sym =>
    have := sym.isLt
    simp only [eval, evalRef] at h
    split at h
    · simp only [Except.error.injEq, Prod.mk.injEq] at h
      exact ⟨.inl h.1.symm, by omega⟩
    · simp at h
    · simp only [Except.error.injEq, Prod.mk.injEq] at h
      exact ⟨.inr h.1.symm, by omega⟩
  | cmp op l r ihl ihr =>
    simp only [eval] at h
    split at h
    · rename_i hl
      exact ihl (hl.trans h)
    · split at h
      · rename_i hr
        exact ihr (hr.trans h)
      · simp at h

theorem rinEval_outcome (ctx : Record) (e : Expr) (s : State) : ReadOutcome s (rinEval ctx e s) := by
  rcases rinEval_cases ctx e s with ⟨v, -, h⟩ | ⟨code, aux, he, h⟩ <;> rw [h]
  · exact .ok ⟨rfl, Nat.le_refl _, id, id⟩
  · refine .error code aux (.refl s) ?_
    rcases (eval_error he).1 with rfl | rfl <;> decide

theorem rinTest_outcome (ctx : Record) (e : Option Expr) (s : State) : ReadOutcome s (rinTest ctx e s) := by
  cases e with
  | none => exact .pure true s
  | some e => exact (rinEval_outcome ctx e s).bind fun v t => .pure (truth v) t

theorem rinCount_outcome (ctx : Record) (e : Expr) (s : State) : ReadOutcome s (rinCount ctx e s) := by
  refine (rinEval_outcome ctx e s).bind fun c t => ?_
  dsimp only
  split
  · exact .error _ _ (.refl t) (by decide)
  · exact .pure _ t

/-! ## Extraction -/

/-- What extracting one value can do (R226). -/
theorem extract_cases (ty : ExtractType) (s : State) :
    (s.rin.data.length < s.rin.cursor + storageBytes ty ∧
      extract ty s = .error (raiseRin .truncatedPayload (storageBytes ty) s)) ∨
    (s.rin.cursor + storageBytes ty ≤ s.rin.data.length ∧ s.rin.nvals = s.params.maxResultValues ∧
      extract ty s = .error (raiseRin .capacity 0 s)) ∨
    (s.rin.cursor + storageBytes ty ≤ s.rin.data.length ∧ s.rin.nvals ≠ s.params.maxResultValues ∧
      extract ty s = .ok (typedValue ty ((s.rin.data.drop s.rin.cursor).take (storageBytes ty)),
        { s with rin := { s.rin with
            cursor := s.rin.cursor + storageBytes ty, nvals := s.rin.nvals + 1 } })) := by
  unfold extract
  split
  · exact .inl ⟨‹_›, rfl⟩
  · split
    · exact .inr (.inl ⟨by omega, ‹_›, rfl⟩)
    · exact .inr (.inr ⟨by omega, ‹_›, rfl⟩)

theorem extract_outcome (ty : ExtractType) (s : State) : ReadOutcome s (extract ty s) := by
  rcases extract_cases ty s with ⟨-, h⟩ | ⟨-, -, h⟩ | ⟨hc, hn, h⟩ <;> rw [h]
  · exact .error _ _ (.refl s) (by decide)
  · exact .error _ _ (.refl s) (by decide)
  · exact .ok ⟨rfl, Nat.le_add_right _ _, fun _ => hc, fun _ => by
      show s.rin.nvals + 1 ≤ _
      omega⟩

theorem extractList_outcome (ty : ExtractType) (n : Nat) (s : State) : ReadOutcome s (extractList ty n s) := by
  induction n generalizing s with
  | zero => exact .ok (.refl s)
  | succ n ih => exact (extract_outcome ty s).bind fun v t => (ih t).bind fun vs u => .pure (v :: vs) u

theorem extractItem_outcome (ty : ExtractType) (c : Nat) (s : State) : ReadOutcome s (extractItem ty c s) :=
  (extractList_outcome ty c s).bind fun vs t => .pure (itemOf vs) t

/-- Values that all fit are read in cursor order (R242). -/
theorem extractList_fits (ty : ExtractType) (n : Nat) {s : State}
    (hc : s.rin.cursor + n * storageBytes ty ≤ s.rin.data.length)
    (hn : s.rin.nvals + n ≤ s.params.maxResultValues) :
    extractList ty n s = .ok
      ((List.range n).map fun k =>
          typedValue ty ((s.rin.data.drop (s.rin.cursor + k * storageBytes ty)).take (storageBytes ty)),
        { s with rin := { s.rin with
            cursor := s.rin.cursor + n * storageBytes ty, nvals := s.rin.nvals + n } }) := by
  induction n generalizing s with
  | zero => simp [extractList]
  | succ n ih =>
    rw [Nat.succ_mul] at hc
    rcases extract_cases ty s with ⟨h, -⟩ | ⟨-, h, -⟩ | ⟨-, -, h⟩
    · omega
    · omega
    · simp only [extractList, h, bind, Except.bind]
      rw [ih]
      · simp only [pure, Except.pure, List.range_succ_eq_map, List.map_cons, List.map_map]
        congr 2
        · simp only [Nat.zero_mul, Nat.add_zero, List.cons.injEq, true_and]
          apply List.map_congr_left
          intro k _
          simp only [Function.comp_apply, Nat.succ_eq_add_one, Nat.succ_mul]
          congr 3
          omega
        · simp only [State.mk.injEq, Rin.mk.injEq, and_true, true_and]
          exact ⟨by rw [Nat.succ_mul]; omega, by omega⟩
      · show s.rin.cursor + storageBytes ty + n * storageBytes ty ≤ s.rin.data.length
        omega
      · show s.rin.nvals + 1 + n ≤ s.params.maxResultValues
        omega

/-! ## The operation -/

theorem rinIteration_outcome (ty : ExtractType) (count : Expr) (l : Loop) (i : Nat) (s : State) :
    ReadOutcome s (rinIteration ty count l i s) := by
  refine (rinTest_outcome _ l.guard s).bind fun go t => ?_
  dsimp only
  split
  · exact (rinCount_outcome _ count t).bind fun c u => (extractItem_outcome ty c u).bind fun item v => .pure [item] v
  · exact .pure [] t

theorem rinLoop_outcome (ty : ExtractType) (count : Expr) (l : Loop) (n i : Nat) (s : State) :
    ReadOutcome s (rinLoop ty count l n i s) := by
  induction n generalizing i s with
  | zero => exact .ok (.refl s)
  | succ n ih =>
    exact (rinIteration_outcome ty count l i s).bind fun items t =>
      (ih (i + 1) t).bind fun more u => .pure (items ++ more) u

theorem rinValue_outcome (ty : ExtractType) (a : Extract) (s : State) : ReadOutcome s (rinValue ty a s) := by
  unfold rinValue
  split
  · exact (rinCount_outcome _ _ s).bind fun n t =>
      (rinLoop_outcome ty a.count _ n 0 t).bind fun items u => .pure (Value.seq items) u
  · exact (rinCount_outcome _ _ s).bind fun c t =>
      (extractItem_outcome ty c t).bind fun item u => .pure (itemValue item) u

/-- What an operation can do (R252): it is skipped by its condition; or it stores a value under its field; or it
ends the command with an error. -/
inductive OpOutcome (a : Extract) (s : State) : Outgoing → Prop
  | skipped {t : State} (reads : RinReads s t) (cond : a.cond ≠ none) : OpOutcome a s (.ok (rinAdvance t))
  | stored {t : State} (v : Value) (reads : RinReads s t) : OpOutcome a s (.ok (rinAdvance (rinStore a.field v t)))
  | failed {u : State} (code : RinCode) (aux : Nat) (reads : RinReads s u)
      (failed : code ≠ .ok ∧ code ≠ .noRecipe ∧ code ≠ .malformedRecipe) :
      OpOutcome a s (.error (raiseRin code aux u))

theorem rinOp_outcome (ty : ExtractType) (a : Extract) (s : State) : OpOutcome a s (rinOp ty a s) := by
  unfold rinOp
  have h := rinTest_outcome s.rin.ctx a.cond s
  generalize hr : rinTest s.rin.ctx a.cond s = r at h
  cases h with
  | error code aux reads failed => exact .failed code aux reads failed
  | @ok go t reads =>
    simp only [bind, Except.bind]
    split
    · have h2 := rinValue_outcome ty a t
      generalize rinValue ty a t = r2 at h2
      cases h2 with
      | error code aux reads' failed => exact .failed code aux (reads.trans reads') failed
      | ok reads' => exact .stored _ (reads.trans reads')
    · refine .skipped reads fun hc => ?_
      rw [hc] at hr
      simp only [rinTest, Except.ok.injEq, Prod.mk.injEq] at hr
      simp_all

/-- Every EXTRACT runs `rinOp` of its type, and its operation ends in a next state. -/
theorem exec_extract (ty : ExtractType) (a : Extract) (s : State) :
    exec (.extract ty a) s = .next (settle (rinOp ty a s)) := by
  cases ty <;> rfl

/-- Every expression node runs `execNode`. -/
theorem exec_ofExpr (e : Expr) (s : State) : exec (.ofExpr e) s = execNode e s := by
  cases e with
  | lit n => rfl
  | ref sym => rfl
  | cmp op l r => cases op <;> rfl

end Sys2Proof.Machine
end

