-- ==== Sys2Proof/Laws/Stream.lean ====
section
/-! SUPPORT. What the operations of the stream pipeline can do, said once each: the event grouper, one BRA
step, a sequence of BRA steps, and the fields and segments of a verb frame. -/

namespace Sys2Proof.Machine

/-! ## The event grouper -/

/-- Appending to the event buffer overflows or appends, and does nothing else (R208). -/
theorem evgAppend_cases (bank : Bank) (s : State) :
    (s.evg.buf.length = s.params.maxEventBanks ∧
      evgAppend bank s = .error (raiseError .eventOverflow 0 0 s.evg.buf.length s)) ∨
    (s.evg.buf.length ≠ s.params.maxEventBanks ∧
      evgAppend bank s = .ok { s with evg := { s.evg with buf := s.evg.buf ++ [bank] } }) := by
  unfold evgAppend
  split
  · exact .inl ⟨‹_›, rfl⟩
  · exact .inr ⟨‹_›, rfl⟩

/-- The state after the forced emission of a start marker (R202). -/
theorem evgStart_eq (bank : Bank) (s : State) :
    evgStart bank s =
      { (if s.evg.inEvent && !s.evg.buf.isEmpty then emitEvent s else s) with
        evg := { inEvent := true, buf := if keepMarkers s then [bank] else [] } } := rfl

/-- What a bank can do in the event grouper (R200 to R204): it is a start marker; or it is passed over; or it is
appended to the open event; or it is a stop marker that closes the event; or the event buffer overflows. -/
theorem evgBank_cases (bank : Bank) (s : State) :
    (bank.bankId = s.cfg.startId ∧ evgBank bank s = .ok (evgStart bank s)) ∨
    (bank.bankId ≠ s.cfg.startId ∧
      ((s.evg.inEvent = false ∧ evgBank bank s = .ok s) ∨
       (s.evg.inEvent = true ∧
         ((bank.bankId ≠ s.cfg.stopId ∧ s.evg.buf.length ≠ s.params.maxEventBanks ∧
             evgBank bank s = .ok { s with evg := { s.evg with buf := s.evg.buf ++ [bank] } }) ∨
          (bank.bankId = s.cfg.stopId ∧ keepMarkers s = false ∧
             evgBank bank s = .ok { emitEvent s with evg := { inEvent := false, buf := [] } }) ∨
          (bank.bankId = s.cfg.stopId ∧ keepMarkers s = true ∧ s.evg.buf.length ≠ s.params.maxEventBanks ∧
             evgBank bank s = .ok
               { emitEvent { s with evg := { s.evg with buf := s.evg.buf ++ [bank] } } with
                 evg := { inEvent := false, buf := [] } }) ∨
          ((bank.bankId = s.cfg.stopId → keepMarkers s = true) ∧
             s.evg.buf.length = s.params.maxEventBanks ∧
             evgBank bank s = .error (raiseError .eventOverflow 0 0 s.evg.buf.length s)))))) := by
  unfold evgBank
  by_cases h1 : bank.bankId = s.cfg.startId
  · exact .inl ⟨h1, by rw [if_pos h1]; rfl⟩
  refine .inr ⟨h1, ?_⟩
  simp only [if_neg h1]
  cases hin : s.evg.inEvent with
  | false =>
    refine .inl ⟨rfl, ?_⟩
    split
    · simp [evgStop, hin, pure, Except.pure]
    · simp [evgOther, hin, pure, Except.pure]
  | true =>
    refine .inr ⟨rfl, ?_⟩
    by_cases h2 : bank.bankId = s.cfg.stopId
    · simp only [if_pos h2]
      cases hk : keepMarkers s with
      | false => exact .inr (.inl ⟨h2, rfl, by simp [evgStop, hin, hk]; rfl⟩)
      | true =>
        rcases evgAppend_cases bank s with ⟨hl, he⟩ | ⟨hl, he⟩
        · exact .inr (.inr (.inr ⟨fun _ => rfl, hl, by simp [evgStop, hin, hk, he]⟩))
        · exact .inr (.inr (.inl ⟨h2, rfl, hl, by simp [evgStop, hin, hk, he]⟩))
    · simp only [if_neg h2]
      rcases evgAppend_cases bank s with ⟨hl, he⟩ | ⟨hl, he⟩
      · exact .inr (.inr (.inr ⟨fun h => absurd h h2, hl, by simp [evgOther, hin, he]⟩))
      · exact .inl ⟨h2, hl, by simp [evgOther, hin, he]⟩

/-! ## The reassembler -/

/-- What a complete END_BANK field can do (R172, R173). -/
theorem braEndBank_cases (field : BitVec 32) (s : State) :
    (field.extractLsb' 0 16 ≠ crc s.bra.buf ∧
      braEndBank field s =
        .error (raiseError .bankCrcMismatch (field.extractLsb' 0 16) (crc s.bra.buf) s.bra.buf.length s)) ∨
    (field.extractLsb' 0 16 = crc s.bra.buf ∧ s.bra.buf.length < Config.bankHdrLen ∧
      braEndBank field s = .error (raiseError .bankTooShort 0 0 s.bra.buf.length s)) ∨
    (field.extractLsb' 0 16 = crc s.bra.buf ∧ Config.bankHdrLen ≤ s.bra.buf.length ∧
      braEndBank field s = braEmitBank s) := by
  unfold braEndBank
  dsimp only
  split
  · exact .inl ⟨‹_›, rfl⟩
  · rename_i h
    split
    · exact .inr (.inl ⟨not_not.1 h, ‹_›, rfl⟩)
    · exact .inr (.inr ⟨not_not.1 h, by omega, rfl⟩)

/-- What a segment byte can do (R170). -/
theorem braSegByte_cases (b : Byte) (s : State) :
    (s.bra.buf.length = s.params.maxBankBytes ∧
      braSegByte b s = .error (raiseError .bankOverflow 0 0 s.bra.buf.length s)) ∨
    (s.bra.buf.length ≠ s.params.maxBankBytes ∧
      braSegByte b s = .ok { s with bra := { s.bra with
        buf := s.bra.buf ++ [b]
        rem := s.bra.rem - 1
        state := if s.bra.rem - 1 = 0 then .scan else s.bra.state } }) := by
  unfold braSegByte
  split
  · exact .inl ⟨‹_›, rfl⟩
  · exact .inr ⟨‹_›, rfl⟩

@[simp] theorem braBytes_nil (s : State) : braBytes [] s = .ok s := rfl

theorem braBytes_cons (b : Byte) (bs : List Byte) (s : State) :
    braBytes (b :: bs) s = braByte b s >>= braBytes bs := rfl

/-- BRA steps for a concatenation: the first part, then the second (R62). -/
theorem braBytes_append (bs cs : List Byte) (s : State) :
    braBytes (bs ++ cs) s = braBytes bs s >>= braBytes cs := by
  induction bs generalizing s with
  | nil => rfl
  | cons b bs ih =>
    rw [List.cons_append, braBytes_cons, braBytes_cons, bind_assoc]
    congr 1
    funext t
    exact ih t

/-! ## What the pipeline leaves alone -/

/-- The units BRA and EVG do not write (R261, R276, R287). -/
structure PipelineFrame (s t : State) : Prop where
  params : t.params = s.params
  cfg : t.cfg = s.cfg
  rtab : t.rtab = s.rtab
  bfv : t.bfv = s.bfv
  rin : t.rin = s.rin
  host : t.host = s.host
  rinOut : t.queues.rinOut = s.queues.rinOut

theorem PipelineFrame.refl (s : State) : PipelineFrame s s := ⟨rfl, rfl, rfl, rfl, rfl, rfl, rfl⟩

theorem PipelineFrame.trans {s t u : State} (h : PipelineFrame s t) (k : PipelineFrame t u) :
    PipelineFrame s u :=
  ⟨k.1.trans h.1, k.2.trans h.2, k.3.trans h.3, k.4.trans h.4, k.5.trans h.5, k.6.trans h.6, k.7.trans h.7⟩

/-- What an operation of the pipeline answers: a state with the frame above and the same status, or a state with
that frame that holds an error. -/
inductive PipelineOutcome (s : State) : Outgoing → Prop
  | ok {t : State} (frame : PipelineFrame s t) (status : t.status = s.status) : PipelineOutcome s (.ok t)
  | error {t : State} (frame : PipelineFrame s t) (raised : t.status.runState = .error)
      (code : t.status.errCode ≠ .none) : PipelineOutcome s (.error t)

theorem PipelineOutcome.bind {s : State} {r : Outgoing} {f : State → Outgoing} (h : PipelineOutcome s r)
    (hf : ∀ t, PipelineOutcome t (f t)) : PipelineOutcome s (r >>= f) := by
  cases h with
  | error frame raised code => exact .error frame raised code
  | @ok t frame status =>
    show PipelineOutcome s (f t)
    cases hft : f t with
    | ok u =>
      have := hft ▸ hf t
      cases this with
      | ok frame' status' => exact .ok (frame.trans frame') (status'.trans status)
    | error u =>
      have := hft ▸ hf t
      cases this with
      | error frame' raised code => exact .error (frame.trans frame') raised code

theorem raiseError_outcome {c : StreamError} (hc : c ≠ .none) (x y : BitVec 16) (n : Nat) (s : State) :
    PipelineOutcome s (.error (raiseError c x y n s)) :=
  .error ⟨rfl, rfl, rfl, rfl, rfl, rfl, rfl⟩ rfl hc

theorem evgBank_outcome (bank : Bank) (s : State) : PipelineOutcome s (evgBank bank s) := by
  rcases evgBank_cases bank s with ⟨-, h⟩ | ⟨-, ⟨-, h⟩ | ⟨-, ⟨-, -, h⟩ | ⟨-, -, h⟩ | ⟨-, -, -, h⟩ | ⟨-, -, h⟩⟩⟩ <;> rw [h]
  · rw [evgStart_eq]
    split <;> exact .ok ⟨rfl, rfl, rfl, rfl, rfl, rfl, rfl⟩ rfl
  · exact .ok (.refl s) rfl
  · exact .ok ⟨rfl, rfl, rfl, rfl, rfl, rfl, rfl⟩ rfl
  · exact .ok ⟨rfl, rfl, rfl, rfl, rfl, rfl, rfl⟩ rfl
  · exact .ok ⟨rfl, rfl, rfl, rfl, rfl, rfl, rfl⟩ rfl
  · exact raiseError_outcome (by decide) ..

theorem braEmitBank_outcome (s : State) : PipelineOutcome s (braEmitBank s) := by
  unfold braEmitBank
  have h := evgBank_outcome (bankOf s.bra.buf) { s with
    queues := { s.queues with bankOut := s.queues.bankOut ++ [bankOf s.bra.buf] }
    counters := { s.counters with bankCount := s.counters.bankCount + 1 } }
  dsimp only
  generalize evgBank (bankOf s.bra.buf) _ = r at h ⊢
  cases h with
  | ok frame status => exact .ok ⟨frame.1, frame.2, frame.3, frame.4, frame.5, frame.6, frame.7⟩ status
  | error frame raised code =>
    exact .error ⟨frame.1, frame.2, frame.3, frame.4, frame.5, frame.6, frame.7⟩ raised code

theorem braEndBank_outcome (field : BitVec 32) (s : State) : PipelineOutcome s (braEndBank field s) := by
  rcases braEndBank_cases field s with ⟨-, h⟩ | ⟨-, -, h⟩ | ⟨-, -, h⟩ <;> rw [h]
  · exact raiseError_outcome (by decide) ..
  · exact raiseError_outcome (by decide) ..
  · exact braEmitBank_outcome s

/-- A state that differs in `bra` and the diagnostic counters only is an outcome of the pipeline. -/
theorem PipelineOutcome.bra {s : State} (b : Bra) (c : Counters) :
    PipelineOutcome s (.ok { s with bra := b, counters := c }) :=
  .ok ⟨rfl, rfl, rfl, rfl, rfl, rfl, rfl⟩ rfl

theorem braFieldDone_outcome (s : State) : PipelineOutcome s (braFieldDone s) := by
  unfold braFieldDone
  split
  · exact .bra _ s.counters
  · unfold braSegLen
    split <;> exact .bra _ s.counters
  · exact .bra _ s.counters
  · exact braEndBank_outcome _ s
  all_goals exact .ok (.refl s) rfl

theorem braField_outcome (b : Byte) (s : State) : PipelineOutcome s (braField b s) := by
  unfold braField
  dsimp only
  split
  · refine PipelineOutcome.bind (r := .ok _) ?_ braFieldDone_outcome
    exact .bra _ s.counters
  · exact .bra _ s.counters

theorem braByte_outcome (b : Byte) (s : State) : PipelineOutcome s (braByte b s) := by
  unfold braByte
  split
  · unfold braScan
    split <;> exact .bra _ _
  · unfold braVerb
    split
    all_goals first
      | exact .bra _ _
      | (unfold verbContinue; split <;> exact .bra _ s.counters)
  · exact braField_outcome b s
  · exact braField_outcome b s
  · exact braField_outcome b s
  · exact braField_outcome b s
  · rcases braSegByte_cases b s with ⟨-, h⟩ | ⟨-, h⟩ <;> rw [h]
    · exact raiseError_outcome (by decide) ..
    · exact .bra _ s.counters

/-- What a sequence of BRA steps can do. -/
theorem braBytes_outcome (bs : List Byte) (s : State) : PipelineOutcome s (braBytes bs s) := by
  induction bs generalizing s with
  | nil => exact .ok (.refl s) rfl
  | cons b bs ih => exact (braByte_outcome b s).bind ih

/-! ## Scanning -/

@[simp] theorem braByte_scan {s : State} (h : s.bra.state = .scan) (b : Byte) : braByte b s = .ok (braScan b s) := by
  simp [braByte, h]

/-- Bytes other than OPCODE in SCAN are counted and skipped (R161, R181). -/
theorem braBytes_strays (bs : List Byte) {s : State} (h : s.bra.state = .scan)
    (hb : ∀ b ∈ bs, b ≠ Config.opcodeByte) :
    braBytes bs s = .ok { s with counters := { s.counters with
      strayCount := s.counters.strayCount + BitVec.ofNat 32 bs.length } } := by
  induction bs generalizing s with
  | nil => simp
  | cons b bs ih =>
    have h1 : braByte b s = .ok (skipStray s) := by
      rw [braByte_scan h, braScan, if_neg (hb b (by simp))]
    rw [braBytes_cons, h1]
    show braBytes bs (skipStray s) = _
    rw [ih (by exact h) fun c hc => hb c (List.mem_cons_of_mem _ hc)]
    simp only [skipStray, List.length_cons, Except.ok.injEq, State.mk.injEq, Counters.mk.injEq, and_true, true_and]
    rw [BitVec.ofNat_add, BitVec.add_assoc, BitVec.add_comm (BitVec.ofNat 32 bs.length)]
    rfl

/-! ## Fixed-size fields -/

/-- The four bytes of a field register, each written once. -/
theorem setByte32_four (b0 b1 b2 b3 : Byte) (acc : BitVec 32) :
    setByte32 3 b3 (setByte32 2 b2 (setByte32 1 b1 (setByte32 0 b0 acc))) = b3 ++ b2 ++ b1 ++ b0 := by
  apply BitVec.eq_of_getLsbD_eq
  intro i hi
  simp only [setByte32, BitVec.getLsbD_or, BitVec.getLsbD_and, BitVec.getLsbD_not, BitVec.getLsbD_shiftLeft,
    BitVec.getLsbD_append, BitVec.getLsbD_setWidth]
  have : i < 32 := hi
  interval_cases i <;> simp

/-- Four bytes of a field, kept little-endian, and then what the complete field does (R163). -/
theorem braBytes_field (b0 b1 b2 b3 : Byte) {s : State}
    (hs : s.bra.state = .sbNum ∨ s.bra.state = .segLen ∨ s.bra.state = .ebCrc) (hk : s.bra.k = 0) :
    braBytes [b0, b1, b2, b3] s =
      braFieldDone { s with bra := { s.bra with k := 0, acc := b3 ++ b2 ++ b1 ++ b0 } } := by
  rw [← setByte32_four b0 b1 b2 b3 s.bra.acc]
  rcases hs with hs | hs | hs <;>
    simp [braBytes, braByte, braField, braFieldByte, fieldWidth, hs, hk, bind, Except.bind] <;>
    cases braFieldDone _ <;> rfl

theorem le32_eq (v : BitVec 32) : le32 v =
    [v.extractLsb' 0 8, v.extractLsb' 8 8, v.extractLsb' 16 8, v.extractLsb' 24 8] := by
  simp only [le32, leBytes, List.cons.injEq, and_true]
  refine ⟨?_, ?_, ?_, ?_⟩ <;> apply BitVec.eq_of_toNat_eq <;>
    simp [BitVec.extractLsb'_toNat, Nat.shiftRight_eq_div_pow, Nat.div_div_eq_div_mul]

theorem append_four (v : BitVec 32) :
    v.extractLsb' 24 8 ++ v.extractLsb' 16 8 ++ v.extractLsb' 8 8 ++ v.extractLsb' 0 8 = v := by
  apply BitVec.eq_of_getLsbD_eq
  intro i hi
  simp only [BitVec.getLsbD_append, BitVec.getLsbD_extractLsb']
  have : i < 32 := hi
  interval_cases i <;> simp

/-- The four bytes of a 32-bit value are collected as that value. -/
theorem braBytes_le32 (v : BitVec 32) {s : State}
    (hs : s.bra.state = .sbNum ∨ s.bra.state = .segLen ∨ s.bra.state = .ebCrc) (hk : s.bra.k = 0) :
    braBytes (le32 v) s = braFieldDone { s with bra := { s.bra with k := 0, acc := v } } := by
  rw [le32_eq, braBytes_field _ _ _ _ hs hk, append_four]

/-- The END_BANK field: the expected CRC in the low half (R91). -/
theorem le16_append (c r : BitVec 16) : le16 c ++ le16 r = le32 (r ++ c) := by
  have h : (r ++ c : BitVec 32).toNat = r.toNat * 65536 + c.toNat := by
    rw [BitVec.toNat_append, ← Nat.shiftLeft_add_eq_or_of_lt c.isLt, Nat.shiftLeft_eq]
  have hc : c.toNat < 65536 := c.isLt
  simp only [le16, le32, h, leBytes, List.cons_append, List.nil_append, List.cons.injEq, and_true]
  refine ⟨?_, ?_, ?_, ?_⟩ <;> apply BitVec.eq_of_toNat_eq <;> simp only [BitVec.toNat_ofNat] <;> omega
/-! ## Segments -/

/-- Segment bytes that fit are copied; the last one ends the segment (R170). -/
theorem braBytes_segment (seg : List Byte) {s : State} (hs : s.bra.state = .segData)
    (hne : seg ≠ []) (hrem : s.bra.rem = BitVec.ofNat 32 seg.length) (hlen : seg.length < 2 ^ 32)
    (hfit : s.bra.buf.length + seg.length ≤ s.params.maxBankBytes) :
    braBytes seg s = .ok { s with bra := { s.bra with
      buf := s.bra.buf ++ seg, rem := 0, state := .scan } } := by
  induction seg generalizing s with
  | nil => exact absurd rfl hne
  | cons b bs ih =>
    rw [List.length_cons] at hrem hlen hfit
    have hstep : s.bra.rem - 1 = BitVec.ofNat 32 bs.length := by
      rw [hrem, BitVec.ofNat_add]
      exact BitVec.add_sub_cancel _ _
    have h1 : braByte b s = braSegByte b s := by simp [braByte, hs]
    rcases braSegByte_cases b s with ⟨hfull, -⟩ | ⟨-, h2⟩
    · omega
    rw [braBytes_cons, h1, h2, hstep]
    cases bs with
    | nil => simp; rfl
    | cons c cs =>
      have hnz : BitVec.ofNat 32 (c :: cs).length ≠ 0 := by
        intro h
        have h0 : (BitVec.ofNat 32 (c :: cs).length).toNat = 0 := by rw [h]; rfl
        rw [BitVec.toNat_ofNat, List.length_cons] at h0
        rw [List.length_cons] at hlen
        omega
      simp only [hnz, if_false]
      show braBytes (c :: cs) _ = _
      rw [ih]
      · simp
      · exact hs
      · exact List.cons_ne_nil c cs
      · rfl
      · omega
      · simp only [List.length_append, List.length_cons, List.length_nil] at hfit ⊢
        omega

/-- Segment bytes that do not fit raise BANK_OVERFLOW when the buffer is full (R170, R180). -/
theorem braBytes_segment_overflow (seg : List Byte) {s : State} (hs : s.bra.state = .segData)
    (hrem : s.bra.rem = BitVec.ofNat 32 seg.length) (hlen : seg.length < 2 ^ 32)
    (hbuf : s.bra.buf.length ≤ s.params.maxBankBytes)
    (hover : s.params.maxBankBytes < s.bra.buf.length + seg.length) :
    braBytes seg s = .error (raiseError .bankOverflow 0 0 s.params.maxBankBytes { s with bra := { s.bra with
      buf := s.bra.buf ++ seg.take (s.params.maxBankBytes - s.bra.buf.length)
      rem := BitVec.ofNat 32 (s.bra.buf.length + seg.length - s.params.maxBankBytes) } }) := by
  induction seg generalizing s with
  | nil => simp only [List.length_nil] at hover; omega
  | cons b bs ih =>
    rw [List.length_cons] at hrem hlen hover
    have h1 : braByte b s = braSegByte b s := by simp [braByte, hs]
    rw [braBytes_cons, h1]
    rcases braSegByte_cases b s with ⟨hfull, h2⟩ | ⟨hroom, h2⟩
    · rw [h2, ← hfull]
      simp only [bind, Except.bind, Nat.sub_self, List.take_zero, List.append_nil, Nat.add_sub_cancel_left,
        List.length_cons, ← hrem]
    · have hstep : s.bra.rem - 1 = BitVec.ofNat 32 bs.length := by
        rw [hrem, BitVec.ofNat_add]
        exact BitVec.add_sub_cancel _ _
      have hnz : BitVec.ofNat 32 bs.length ≠ 0 := by
        intro h
        have h0 : (BitVec.ofNat 32 bs.length).toNat = 0 := by rw [h]; rfl
        rw [BitVec.toNat_ofNat] at h0
        omega
      rw [h2, hstep, if_neg hnz]
      show braBytes bs _ = _
      rw [ih]
      · have h3 : s.params.maxBankBytes - s.bra.buf.length = (s.params.maxBankBytes - (s.bra.buf.length + 1)) + 1 := by
          omega
        simp only [h3, List.take_succ_cons, List.length_append, List.length_cons, List.length_nil,
          List.append_assoc, List.cons_append, List.nil_append, Nat.zero_add]
        congr 5
        omega
      · exact hs
      · rfl
      · omega
      · simp only [List.length_append, List.length_cons, List.length_nil]
        omega
      · simp only [List.length_append, List.length_cons, List.length_nil]
        omega

end Sys2Proof.Machine
end

