-- ==== Sys2Proof/Tests/Slice0.lean ====
section
/-! SUPPORT. Tests: the refusals of WellFormed, the encodings of the spec, one or two steps for each instruction,
and a witness for every statement that has hypotheses. Expected values are those of `spec/95_test_vectors.md` (the
V- and P-numbers) or worked out by hand from the rules named. -/

namespace Sys2Proof.Tests

open Sys2Proof Sys2Proof.Machine Sys2Proof.Claims

/-! ## Helpers -/

/-- The literal 1 and a record of the given TYPE for field 1 with count 1 (`95_test_vectors.md` 2.5). -/
def typeRecord (ty : Byte) : List Byte := [ty, 0x00, 0x01, 0x00, 0x01, 0x01, 0, 0, 0, 0, 0, 0, 0]

/-- The configuration of `95_test_vectors.md`: start id 1, stop id 2, KEEP_MARKERS as given. -/
def configured (keep : BitVec 32) : State :=
  { State.reset with cfg := { startId := 1, stopId := 2, flags := keep, valid := 7 } }

/-- A configured stream with a bank open that holds the given bytes. -/
def withBank (buf : List Byte) (s : State) : State := { s with bra := { s.bra with isOpen := true, buf := buf } }

/-- A configured stream with an event open that holds the given banks. -/
def withEvent (banks : List Bank) (s : State) : State := { s with evg := { inEvent := true, buf := banks } }

/-- The RIN in the middle of a DECODE of a bank with the given data, the cursor at 0. -/
def decoding (data : List Byte) (ctx : Record) : State :=
  { configured 0 with rin := { State.reset.rin with state := .busy, data := data, ctx := ctx } }

/-- The next state of a result, and the power-on state of a stop. -/
def after (r : Result) : State :=
  match r with
  | .next t => t
  | .fault _ => State.reset
  | .refused _ => State.reset

/-- A result has a next state. -/
def isNext (r : Result) : Bool :=
  match r with
  | .next _ => true
  | .fault _ => false
  | .refused _ => false

/-- The value an operation stored under symbol 1. -/
def stored (r : Result) : Option Value := mapFind 1 (after r).rin.ctx

/-- The bank data of program P1: id 7, version 1. -/
def bank7 : List Byte := [7, 0, 0, 0, 1, 0, 0, 0]

/-- The data of the start-marker bank, id 1, and of the stop-marker bank, id 2. -/
def bank1 : List Byte := [1, 0, 0, 0, 0, 0, 0, 0]
def bank2 : List Byte := [2, 0, 0, 0, 0, 0, 0, 0]

/-! ## WellFormed refuses what has no encoding -/

theorem test_wf_verb_is_known : (Instr.unknownVerb 0x0E).check 8 = some .verbIsKnown := by decide

theorem test_wf_stray_is_opcode : (Instr.stray 0x60).check 8 = some .strayIsOpcode := by decide

theorem test_wf_payload_length : (Instr.block [0] 0 0).check 8 = some .payloadLength := by decide

theorem test_wf_literal_range : (Instr.lit 9223372036854775808).check 8 = some .literalRange := by decide

theorem test_wf_too_deep : (Instr.eq (.lit 1) (.lit 1)).check 1 = some .tooDeep := by decide

theorem test_wf_segment_too_long (seg : List Byte) (h : 4294967296 ≤ seg.length) :
    (Instr.startBank seg).check 8 = some .segmentTooLong
      ∧ (Instr.continueBank seg).check 8 = some .segmentTooLong := by
  have : ¬ seg.length < 4294967296 := by omega
  simp [Instr.check, this]

theorem test_wf_guard_too_deep :
    (Instr.extractU16 { field := 0, cond := none, count := .lit 1
                        loop := some { var := 3, bound := .lit 4, guard := some (.cmp .ne (.ref 3) (.lit 2)) } }).check 1
      = some .tooDeep := by decide

theorem test_wf_accepts : (Instr.unknownVerb 0x60).wf 1 = true ∧ (Instr.stray 0x61).wf 1 = true
    ∧ (Instr.lit (-9223372036854775808)).wf 1 = true := by decide

theorem test_recipe_wf : recipeWf 1 [.extractU32 (single 0)] = true ∧ recipeWf 1 [.filler] = false := by decide

/-! ## Decoding, each word written out from the encodings of `30_encoding.md` -/

theorem test_decode_start_block :
    instrOf (decodeSymbol [0x60, 0x61, 0x05, 0x00, 0x00, 0x00]) = some (.startBlock 5) := by decide

theorem test_decode_end_block_logical : instrOf (decodeSymbol [0x60, 0x62]) = some .endBlockLogical := by decide

theorem test_decode_end_block_physical : instrOf (decodeSymbol [0x60, 0x63]) = some .endBlockPhysical := by decide

theorem test_decode_filler : instrOf (decodeSymbol [0x60, 0x64]) = some .filler := by decide

theorem test_decode_start_bank :
    instrOf (decodeSymbol [0x60, 0x07, 0x03, 0x00, 0x00, 0x00, 0x60, 0x60, 0x60])
      = some (.startBank [0x60, 0x60, 0x60]) := by decide

theorem test_decode_continue :
    instrOf (decodeSymbol [0x60, 0x08, 0x04, 0x00, 0x00, 0x00, 0x01, 0x00, 0x00, 0x00])
      = some (.continueBank [1, 0, 0, 0]) := by decide

theorem test_decode_end_bank :
    instrOf (decodeSymbol [0x60, 0x0E, 0xB5, 0x80, 0x12, 0x34]) = some (.endBank 0x80B5 0x3412) := by decide

theorem test_decode_to_be_contd :
    instrOf (decodeSymbol [0x60, 0x0F, 0xAA, 0xBB, 0xCC, 0xDD, 0xEE])
      = some (.toBeContd 0xAA 0xBB 0xCC 0xDD 0xEE) := by decide

/-- `60 60` is an unknown verb and the `64` after it is left to be scanned (R175). -/
theorem test_decode_unknown_verb : decodeSymbol [0x60, 0x60, 0x64] = .ok (.unknownVerb 0x60, [0x64]) := by rfl

theorem test_decode_stray : instrOf (decodeSymbol [0x61, 0x60]) = some (.stray 0x61) := by decide

theorem test_decode_incomplete_segment :
    decodeSymbol [0x60, 0x07, 0x03, 0x00, 0x00, 0x00, 0x60, 0x60] = .error .incomplete := by rfl

/-- A frame of zeros with the trailer `00 00 FF FF` (V-BFV-4). -/
theorem test_decode_block :
    decodeBlock (List.replicate 31996 0 ++ [0x00, 0x00, 0xFF, 0xFF])
      = .ok (.block (List.replicate 31996 0) 0 0xFFFF, []) := by
  have h : takeBytes Config.payloadLen (List.replicate 31996 (0 : Byte) ++ [0x00, 0x00, 0xFF, 0xFF])
      = .ok (List.replicate 31996 0, [0x00, 0x00, 0xFF, 0xFF]) := takeBytes_append List.length_replicate _
  simp only [decodeBlock, h]
  rfl

/-- The records of V-RIN-1 to V-RIN-15, the unsigned types. -/
theorem test_decode_unsigned_types :
    instrOf (decodeRecord 1 (typeRecord 0x00)) = some (.extractU16 (single 1)) ∧
    instrOf (decodeRecord 1 (typeRecord 0x10)) = some (.extractU16U32 (single 1)) ∧
    instrOf (decodeRecord 1 (typeRecord 0x20)) = some (.extractU16U64 (single 1)) ∧
    instrOf (decodeRecord 1 (typeRecord 0x14)) = some (.extractU32 (single 1)) ∧
    instrOf (decodeRecord 1 (typeRecord 0x24)) = some (.extractU32U64 (single 1)) ∧
    instrOf (decodeRecord 1 (typeRecord 0x28)) = some (.extractU64 (single 1)) := by decide

/-- The signed types. -/
theorem test_decode_signed_types :
    instrOf (decodeRecord 1 (typeRecord 0x01)) = some (.extractS16 (single 1)) ∧
    instrOf (decodeRecord 1 (typeRecord 0x11)) = some (.extractS16S32 (single 1)) ∧
    instrOf (decodeRecord 1 (typeRecord 0x21)) = some (.extractS16S64 (single 1)) ∧
    instrOf (decodeRecord 1 (typeRecord 0x15)) = some (.extractS32 (single 1)) ∧
    instrOf (decodeRecord 1 (typeRecord 0x25)) = some (.extractS32S64 (single 1)) ∧
    instrOf (decodeRecord 1 (typeRecord 0x29)) = some (.extractS64 (single 1)) := by decide

/-- The float types. -/
theorem test_decode_float_types :
    instrOf (decodeRecord 1 (typeRecord 0x16)) = some (.extractF32 (single 1)) ∧
    instrOf (decodeRecord 1 (typeRecord 0x26)) = some (.extractF32F64 (single 1)) ∧
    instrOf (decodeRecord 1 (typeRecord 0x2A)) = some (.extractF64 (single 1)) := by decide

/-- `for #3 < 4 when #3 != 2 #2 : U16` (V-ENC-8). -/
theorem test_decode_looped_record :
    instrOf (decodeRecord 2 [0x00, 0x06, 0x02, 0x00, 0x03, 0x00, 0x01, 0x04, 0, 0, 0, 0, 0, 0, 0,
        0x11, 0x02, 0x03, 0x00, 0x01, 0x02, 0, 0, 0, 0, 0, 0, 0, 0x01, 0x01, 0, 0, 0, 0, 0, 0, 0])
      = some (.extractU16 {
          field := 2, cond := none, count := .lit 1
          loop := some { var := 3, bound := .lit 4, guard := some (.cmp .ne (.ref 3) (.lit 2)) } }) := by decide

/-- `if #1 >= 2 #5 : U16` (V-ENC-7). -/
theorem test_decode_conditional_record :
    instrOf (decodeRecord 2 [0x00, 0x01, 0x05, 0x00, 0x15, 0x02, 0x01, 0x00, 0x01, 0x02, 0, 0, 0, 0, 0, 0, 0,
        0x01, 0x01, 0, 0, 0, 0, 0, 0, 0])
      = some (.extractU16 {
          field := 5, cond := some (.cmp .ge (.ref 1) (.lit 2)), loop := none, count := .lit 1 }) := by decide

/-- LIT 1 and LIT -1 (V-ENC-1, V-ENC-2). -/
theorem test_decode_lit :
    instrOf (decodeNode 1 [0x01, 0x01, 0, 0, 0, 0, 0, 0, 0]) = some (.lit 1) ∧
    instrOf (decodeNode 1 [0x01, 0xFF, 0xFF, 0xFF, 0xFF, 0xFF, 0xFF, 0xFF, 0xFF]) = some (.lit (-1)) := by decide

/-- REF #2 (V-ENC-3). -/
theorem test_decode_ref : instrOf (decodeNode 1 [0x02, 0x02, 0x00]) = some (.ref 2) := by decide

/-- The six comparisons of `#1` and `#2`, in that order (R104). -/
theorem test_decode_comparisons :
    instrOf (decodeNode 2 [0x10, 0x02, 0x01, 0x00, 0x02, 0x02, 0x00]) = some (.eq (.ref 1) (.ref 2)) ∧
    instrOf (decodeNode 2 [0x11, 0x02, 0x01, 0x00, 0x02, 0x02, 0x00]) = some (.ne (.ref 1) (.ref 2)) ∧
    instrOf (decodeNode 2 [0x12, 0x02, 0x01, 0x00, 0x02, 0x02, 0x00]) = some (.lt (.ref 1) (.ref 2)) ∧
    instrOf (decodeNode 2 [0x13, 0x02, 0x01, 0x00, 0x02, 0x02, 0x00]) = some (.le (.ref 1) (.ref 2)) ∧
    instrOf (decodeNode 2 [0x14, 0x02, 0x01, 0x00, 0x02, 0x02, 0x00]) = some (.gt (.ref 1) (.ref 2)) ∧
    instrOf (decodeNode 2 [0x15, 0x02, 0x01, 0x00, 0x02, 0x02, 0x00]) = some (.ge (.ref 1) (.ref 2)) := by decide

/-- Malformed images: too short, a TYPE with LW < SW, G without L, a bad tag, a byte after the last record
(V-RIN-33 to V-RIN-38). -/
theorem test_malformed_images :
    decodeImage 9 [] = .error .incomplete ∧
    decodeImage 9 ([0x01, 0x00] ++ typeRecord 0x04) = .error (.badType 0x04) ∧
    decodeImage 9 [0x01, 0x00, 0x00, 0x04, 0x00, 0x00, 0x01, 0, 0, 0, 0, 0, 0, 0, 0] = .error (.badFlags 0x04) ∧
    decodeImage 9 [0x01, 0x00, 0x00, 0x00, 0x00, 0x00, 0x03, 0x01] = .error (.badTag 0x03) ∧
    decodeImage 9 ([0x01, 0x00] ++ typeRecord 0x00 ++ [0x00]) = .error .trailingBytes ∧
    decodeImage 9 [0x00, 0x00] = .ok [] := ⟨rfl, rfl, rfl, rfl, rfl, rfl⟩

/-- `(1 == 1) == 1` has depth 3 (V-RIN-37). -/
theorem test_depth_bound :
    decodeNode 2 (encodeExpr (.cmp .eq (.cmp .eq (.lit 1) (.lit 1)) (.lit 1))) = .error .tooDeep ∧
    instrOf (decodeNode 3 (encodeExpr (.cmp .eq (.cmp .eq (.lit 1) (.lit 1)) (.lit 1))))
      = some (.eq (.cmp .eq (.lit 1) (.lit 1)) (.lit 1)) := ⟨rfl, by decide⟩

/-! ## The CRC engine (V-CRC-1, V-CRC-2) -/

theorem test_crc_check_value :
    crc [0x31, 0x32, 0x33, 0x34, 0x35, 0x36, 0x37, 0x38, 0x39] = 0x2189 := by decide +kernel

theorem test_crc_vectors :
    crc [] = 0 ∧ crc [0x01] = 0x1189 ∧ crc [0x80] = 0x8408 ∧ crc bank7 = 0x80B5
      ∧ crcSerial bank7 = 0x80B5 ∧ crc [7, 0, 0, 0, 1, 0, 0, 1] = 0x913C := by decide +kernel

/-- `T[0x80]` and `T[0x8C]` (R122). -/
theorem test_crc_table : crcTable 0x80 = 0x9188 ∧ crcTable 0x8C = 0x5004 := by decide

/-! ## The bank stream -/

/-- `60 61 05 00 00 00` leaves BRA in SCAN with the bank as it was (R164). -/
theorem test_start_block :
    (after (exec (.startBlock 5) (withBank bank7 (configured 0)))).bra
      = { state := .scan, k := 0, acc := 5, rem := 0, isOpen := true, buf := bank7 } := by decide

theorem test_no_op_verbs :
    exec .endBlockLogical (withBank bank7 (configured 0)) = .next (withBank bank7 (configured 0)) ∧
    exec .endBlockPhysical (withBank bank7 (configured 0)) = .next (withBank bank7 (configured 0)) ∧
    exec .filler (withBank bank7 (configured 0)) = .next (withBank bank7 (configured 0)) := ⟨rfl, rfl, rfl⟩

/-- START_BANK discards an open bank (R179). -/
theorem test_start_bank_discards :
    (after (exec (.startBank [0x60, 0x0E]) (withBank bank7 (configured 0)))).bra.buf = [0x60, 0x0E] := by decide

/-- V-BRA-20: BANK_OVERFLOW with MAX_BANK_BYTES 8. -/
theorem test_start_bank_overflow :
    let s := { configured 0 with params := { Config.defaultParams with maxBankBytes := 8 } }
    (after (exec (.startBank (bank7 ++ [0])) s)).status.errCode = .bankOverflow ∧
    (after (exec (.startBank (bank7 ++ [0])) s)).status.errAux = 8 ∧
    (after (exec (.startBank (bank7 ++ [0])) s)).bra.buf = bank7 := by decide

/-- CONTINUE appends to the open bank, and with no bank open it opens one (R169; V-BRA-12). -/
theorem test_continue :
    (after (exec (.continueBank [1, 0, 0, 0]) (withBank [7, 0, 0, 0] (configured 0)))).bra.buf = bank7 ∧
    (after (exec (.continueBank bank7) (configured 0))).bra.isOpen = true := by decide

/-- V-BRA-5 and V-BRA-7: the Bank, whatever the upper half of the field. -/
theorem test_end_bank :
    (after (exec (.endBank 0x80B5 0x3412) (withBank bank7 (configured 0)))).queues.bankOut
      = [{ bankId := 7, bankVersion := 1, data := bank7 }] ∧
    (after (exec (.endBank 0x80B5 0x3412) (withBank bank7 (configured 0)))).bra.isOpen = false := by decide +kernel

/-- V-BRA-6 and V-BRA-8: the CRC check, then the length check. -/
theorem test_end_bank_rejects :
    (after (exec (.endBank 0x80B4 0) (withBank bank7 (configured 0)))).status
      = { State.reset.status with
          runState := .error, errCode := .bankCrcMismatch, errExpected := 0x80B4, errActual := 0x80B5
          errAux := 8 } ∧
    (after (exec (.endBank 0x5721 0) (withBank [7, 0, 0, 0] (configured 0)))).status.errCode = .bankTooShort ∧
    (after (exec (.endBank 0 0) (configured 0))).status.errCode = .bankTooShort := by decide +kernel

/-- V-EVG-1 and V-EVG-7: the event of a start marker, a bank and a stop marker, KEEP_MARKERS = 0. -/
theorem test_event_grouping :
    let s1 := after (exec (.endBank 0x81BF 0) (withBank bank1 (configured 0)))
    let s2 := after (exec (.endBank 0x80B5 0) (withBank bank7 s1))
    (after (exec (.endBank 0x0B6F 0) (withBank bank2 s2))).queues.eventOut = [{ banks := [bankOf bank7] }] ∧
    (after (exec (.endBank 0x0B6F 0) (withBank bank2 s1))).queues.eventOut = [{ banks := [] }] := by decide +kernel

/-- V-EVG-6: a second start marker forces the first event out, KEEP_MARKERS = 1. -/
theorem test_event_forced :
    let s1 := after (exec (.endBank 0x81BF 0) (withBank bank1 (configured 1)))
    (after (exec (.endBank 0x81BF 0) (withBank bank1 s1))).queues.eventOut = [{ banks := [bankOf bank1] }] := by
  decide +kernel

/-- TO_BE_CONTD keeps the open bank; its bytes are not scanned (R171, R176). -/
theorem test_to_be_contd :
    exec (.toBeContd 0x60 0x07 0 0 0) (withBank bank7 (configured 0)) = .next (withBank bank7 (configured 0)) := rfl

/-- Entering TBC_SKIP clears what an earlier field left in `bra_acc` (R163). -/
theorem test_to_be_contd_clears_acc :
    let s := after (exec (.startBlock 5) (configured 0))
    s.bra.acc = 5 ∧ (settle (braBytes [0x60, 0x0F] s)).bra = { s.bra with state := .tbcSkip, acc := 0 } := by decide

/-- V-BRA-15: `60 60 64` is one unknown verb and one stray byte. -/
theorem test_unknown_verb :
    (after (exec (.unknownVerb 0x60) (configured 0))).counters.unknownVerbCount = 1 ∧
    (settle (braBytes [0x60, 0x60, 0x64] (configured 0))).counters
      = { bankCount := 0, eventCount := 0, strayCount := 1, unknownVerbCount := 1 } := by decide

theorem test_stray_wraps :
    (after (exec (.stray 0) { configured 0 with counters :=
      { bankCount := 0, eventCount := 0, strayCount := 0xFFFFFFFF, unknownVerbCount := 0 } })).counters.strayCount
      = 0 := by decide

/-- V-BRA-24: EOS inside a segment is a benign end that drops the open bank. -/
theorem test_eos_in_segment :
    let s := settle (braBytes [0x60, 0x07, 0x08, 0, 0, 0, 0x07, 0, 0] (configured 0))
    (after (hostCommand (.send .eos) s)).status
      = { State.reset.status with
          runState := .done, started := true, endFieldTruncated := true, endOpenBankDropped := true } := by decide

/-- The last trailer byte of a frame whose expected CRC differs raises CRC_MISMATCH; here a frame of one listed
byte, whose CRC the test does not compute, against itself plus one (R144). -/
theorem test_block_crc_mismatch (s : State) (h : s.bfv.trl.extractLsb' 0 16 = crc (bfvPayload s) + 1) :
    (bfvFrameComplete s).status.errCode = .crcMismatch ∧ (bfvFrameComplete s).bra = s.bra := by
  simp [bfvFrameComplete, h]

/-! ## Recipes -/

/-- V-RIN-1 to V-RIN-6. -/
theorem test_unsigned_values :
    stored (exec (.extractU16 (single 1)) (decoding [0x34, 0x12] [])) = some (.scalar (.int 4660)) ∧
    stored (exec (.extractU16U32 (single 1)) (decoding [0xFF, 0xFF] [])) = some (.scalar (.int 65535)) ∧
    stored (exec (.extractU16U64 (single 1)) (decoding [0x00, 0x80] [])) = some (.scalar (.int 32768)) ∧
    stored (exec (.extractU32 (single 1)) (decoding [7, 0, 0, 0] [])) = some (.scalar (.int 7)) ∧
    stored (exec (.extractU32U64 (single 1)) (decoding [0xFF, 0xFF, 0xFF, 0xFF] []))
      = some (.scalar (.int 4294967295)) ∧
    stored (exec (.extractU64 (single 1)) (decoding (List.replicate 8 0xFF) []))
      = some (.scalar (.int 18446744073709551615)) := by decide

/-- V-RIN-7 to V-RIN-12. -/
theorem test_signed_values :
    stored (exec (.extractS16 (single 1)) (decoding [0xFE, 0xFF] [])) = some (.scalar (.int (-2))) ∧
    stored (exec (.extractS16S32 (single 1)) (decoding [0x00, 0x80] [])) = some (.scalar (.int (-32768))) ∧
    stored (exec (.extractS16S64 (single 1)) (decoding [0xFF, 0x7F] [])) = some (.scalar (.int 32767)) ∧
    stored (exec (.extractS32 (single 1)) (decoding [0xFF, 0xFF, 0xFF, 0xFF] [])) = some (.scalar (.int (-1))) ∧
    stored (exec (.extractS32S64 (single 1)) (decoding [0, 0, 0, 0x80] []))
      = some (.scalar (.int (-2147483648))) ∧
    stored (exec (.extractS64 (single 1)) (decoding [0, 0, 0, 0, 0, 0, 0, 0x80] []))
      = some (.scalar (.int (-9223372036854775808))) := by decide

/-- V-RIN-13 to V-RIN-15. -/
theorem test_float_values :
    stored (exec (.extractF32 (single 1)) (decoding [0, 0, 0x80, 0x3F] [])) = some (.scalar (.flt4 0x3F800000)) ∧
    stored (exec (.extractF32F64 (single 1)) (decoding [0, 0, 0xC0, 0x7F] []))
      = some (.scalar (.flt4 0x7FC00000)) ∧
    stored (exec (.extractF64 (single 1)) (decoding [0, 0, 0, 0, 0, 0, 0xF0, 0x3F] []))
      = some (.scalar (.flt8 0x3FF0000000000000)) := by decide

/-- V-RIN-26: a count from the loop variable; elements of 0, 1 and 2 values. -/
theorem test_loop_count_from_variable :
    stored (exec (.extractU16 { field := 1, cond := none, count := .ref 3
                                loop := some { var := 3, bound := .lit 3, guard := none } })
      (decoding [1, 0, 2, 0, 3, 0] []))
      = some (.seq [.many [], .one (.int 1), .many [.int 2, .int 3]]) := by decide

/-- V-RIN-45 and V-RIN-46: the truncation is at the value that does not fit. -/
theorem test_truncated :
    (after (exec (.extractU16 { single 1 with count := .lit 3 }) (decoding [1, 2, 3, 4, 5] []))).rin.errCursor = 4 ∧
    (after (exec (.extractU16 { single 1 with count := .lit 3 }) (decoding [1, 2, 3, 4, 5] []))).queues.rinOut
      = [.fail 0 .truncatedPayload] := by decide

/-- The context of V-EXP-1 to V-EXP-15. -/
def vectorCtx : Record :=
  [(2, .scalar (.int 3)), (4, .seq [.one (.int 1), .one (.int 2)]), (6, .scalar (.flt4 0x3F800000))]

/-- V-EXP-1 to V-EXP-9. -/
theorem test_nodes :
    (after (exec (.lit 5) (decoding [] vectorCtx))).rin.val = 5 ∧
    (after (exec (.ref 2) (decoding [] vectorCtx))).rin.val = 3 ∧
    (after (exec (.eq (.ref 2) (.lit 3)) (decoding [] vectorCtx))).rin.val = 1 ∧
    (after (exec (.ne (.ref 2) (.lit 3)) (decoding [] vectorCtx))).rin.val = 0 ∧
    (after (exec (.lt (.lit (-1)) (.lit 0)) (decoding [] vectorCtx))).rin.val = 1 ∧
    (after (exec (.le (.lit 3) (.lit 3)) (decoding [] vectorCtx))).rin.val = 1 ∧
    (after (exec (.gt (.ref 2) (.lit 3)) (decoding [] vectorCtx))).rin.val = 0 ∧
    (after (exec (.ge (.ref 2) (.lit 2)) (decoding [] vectorCtx))).rin.val = 1 ∧
    (after (exec (.eq (.cmp .lt (.lit 1) (.lit 2)) (.lit 1)) (decoding [] vectorCtx))).rin.val = 1 := by decide

/-- V-EXP-10 to V-EXP-13. -/
theorem test_node_errors :
    eval vectorCtx (.ref 9) = .error (.unresolvedSymbol, 9) ∧
    eval vectorCtx (.ref 4) = .error (.notScalarInteger, 4) ∧
    eval vectorCtx (.ref 6) = .error (.notScalarInteger, 6) ∧
    eval vectorCtx (.cmp .eq (.ref 9) (.ref 4)) = .error (.unresolvedSymbol, 9) := ⟨rfl, rfl, rfl, rfl⟩

/-- V-RIN-38 and V-RIN-32: a recipe of no operations, and no recipe. -/
theorem test_decode_command :
    (after (hostCommand (.decode (bankOf bank7)) { configured 0 with rtab := [(7, [0, 0])] })).queues.rinOut
      = [.ok 7 []] ∧
    (after (hostCommand (.decode (bankOf bank7)) (configured 0))).queues.rinOut = [.fail 7 .noRecipe] := by decide

/-! ## Fetching -/

/-- The words of the opcode table that name a verb, a record or a node. -/
theorem test_table_words :
    decodeTableWord 16 0x6061 = some (.startBlock 0) ∧ decodeTableWord 16 0x600E = some (.endBank 0 0) ∧
    decodeTableWord 8 0x29 = some (.extractS64 { single 0 with count := .lit 0 }) ∧
    decodeTableWord 8 0x02 = some (.ref 0) ∧ decodeTableWord 8 0x12 = some (.lt (.lit 0) (.lit 0)) := by decide

/-- The step after `withFetchWord` runs the word's instruction. -/
theorem test_fetch_runs :
    (after (step (State.reset.withFetchWord 16 0x6000))).counters.unknownVerbCount = 1 ∧
    (after (step (State.reset.withFetchWord 8 0x29))).queues.rinOut = [.ok 0 [(0, .seq [])]] ∧
    isNext (step (State.reset.withFetchWord 8 0x02)) = true := by decide

/-! ## Witnesses: for each statement with hypotheses, a concrete case that meets all of them -/

theorem witness_DecodeEncodeAgree : (Instr.extractU16 { single 1 with cond := some (.cmp .eq (.ref 0) (.lit 1)) }).wf 2 = true
    ∧ (Instr.unknownVerb 0x65).wf 0 = true := by decide

theorem witness_DecodedBytesAreTheEncoding :
    decode .symbol 0 [0x60, 0x05, 0x61] = .ok (.unknownVerb 0x05, [0x61])
      ∧ decode .record 1 (typeRecord 0x2A) = .ok (.extractF64 (single 1), []) := ⟨rfl, rfl⟩

theorem witness_ImagesAreRecipes :
    decodeImage 1 ([0x01, 0x00] ++ typeRecord 0x14) = .ok [.extractU32 (single 1)] := rfl

/-- The 15 types, and the six FLAGS values. -/
theorem witness_CarrierBytesLegal :
    decodeType 0x2A = .ok .f64 ∧ decodeType 0x00 = .ok .u16 ∧ decodeFlags 0x06 = .ok (false, true, true)
      ∧ decodeFlags 0x04 = .error (.badFlags 0x04) := ⟨rfl, rfl, rfl, rfl⟩

theorem witness_CrcDetectsByteChange : (0 : Nat) < [(7 : Byte)].length ∧ (6 : Byte) ≠ [(7 : Byte)][0] := by decide

/-- The last payload byte (offset 31995) and the first and third trailer bytes. -/
theorem witness_SendFillsFrame :
    let at_ (n : Nat) : State := { configured 0 with bfv := { State.reset.bfv with fill := n, buf := [(5, 9)] } }
    ∀ n ∈ [0, 31995, 31996, 31998], (at_ n).status.runState = .running ∧ (at_ n).cfg.valid = 7 ∧
      (at_ n).bfv.fill + 1 < 32000 ∧ Memory.wf (at_ n).bfv.buf := by decide

/-- The blocks of the statements about a block: every byte 0x60, into a buffer that holds something. -/
def sixties : List Byte := List.replicate 31996 0x60

def partlyFilled : State := { configured 0 with bfv := { State.reset.bfv with buf := [(5, 9)] } }

theorem witness_BlockReleased : sixties.length = 31996 ∧ partlyFilled.status.runState = .running ∧
    partlyFilled.bfv.fill = 0 ∧ Memory.wf partlyFilled.bfv.buf := ⟨List.length_replicate, by decide, by decide, by decide⟩

theorem witness_BlockCrcMismatch : sixties.length = 31996 ∧ crc sixties + 1 ≠ crc sixties ∧
    partlyFilled.status.runState = .running ∧ partlyFilled.bfv.fill = 0 ∧ Memory.wf partlyFilled.bfv.buf :=
  ⟨List.length_replicate, by simp, by decide, by decide, by decide⟩

theorem witness_BlockNeedsRoom :
    sixties.length = 31996 ∧
      32000 ≤ ({ configured 0 with bfv := { State.reset.bfv with fill := 32000 } } : State).bfv.fill :=
  ⟨List.length_replicate, by decide⟩

theorem witness_FrameIsItsSends : sixties.length = 31996 ∧ partlyFilled.status.runState = .running ∧
    partlyFilled.cfg.valid = 7 ∧ partlyFilled.bfv.fill = 0 ∧ partlyFilled.bfv.releasing = [] ∧
    partlyFilled.bfv.index ≠ 0xFFFFFFFF := ⟨List.length_replicate, by decide, by decide, by decide, by decide, by decide⟩

theorem witness_ShortBlockAtEos :
    let at_ (n : Nat) : State := { configured 0 with bfv := { State.reset.bfv with fill := n } }
    ∀ n ∈ [1, 31999], (at_ n).status.runState = .running ∧ (at_ n).cfg.valid = 7 ∧ 1 ≤ (at_ n).bfv.fill ∧
      (at_ n).bfv.fill ≤ 31999 := by decide

/-- A frame boundary with a bank and an event open and BRA inside a segment. -/
theorem witness_CleanEndAtEos :
    let s := settle (braBytes [0x60, 0x07, 0x08, 0, 0, 0, 0x07] (withEvent [bankOf bank1] (configured 0)))
    s.status.runState = .running ∧ s.cfg.valid = 7 ∧ s.bfv.fill = 0 ∧ s.bra.isOpen = true ∧
      s.evg.inEvent = true ∧ s.bra.state = .segData := by decide

/-- One state for each of the three refusals; and a step of an ended stream, whose next command reads a register. -/
theorem witness_SendRefused :
    (braEos (configured 0)).status.runState = .done ∧
    (raiseError .shortBlock 0 0 1 (configured 0)).status.runState = .error ∧
    (State.reset.status.runState = .running ∧ State.reset.cfg.valid ≠ 7) ∧
    (let s : State := { braEos (configured 0) with host := { todo := [.csrRead 8], reads := [] } }
     s.status.runState ≠ .running ∧ noReset s ∧ isNext (step s) = true) :=
  ⟨by decide, by decide, by decide, by decide, by simp [noReset], by decide⟩

theorem witness_NoOpVerbsRun : (Instr.endBlockLogical = .endBlockLogical ∧ (0x62 : Byte) = 0x62) ∧
    (Instr.endBlockPhysical = .endBlockPhysical ∧ (0x63 : Byte) = 0x63) ∧
    (Instr.filler = .filler ∧ (0x64 : Byte) = 0x64) := by decide

/-- SCAN for the two symbols, and the unknown verbs at the ends of their ranges. -/
theorem witness_SkippedSymbolsRun : (configured 0).bra.state = .scan ∧
    ∀ v ∈ ([0x00, 0x06, 0x09, 0x0D, 0x10, 0x60, 0x65, 0xFF] : List Byte),
      v ∉ ([0x07, 0x08, 0x0E, 0x0F, 0x61, 0x62, 0x63, 0x64] : List Byte) := by decide

/-- A state whose bank buffer holds at most 8 bytes. -/
def eightByteBanks (buf : List Byte) : State :=
  withBank buf { configured 0 with params := { Config.defaultParams with maxBankBytes := 8 } }

/-- START_BANK over an open bank, and CONTINUE that fills the buffer exactly; both at the capacity. -/
theorem witness_SegmentAppended :
    (segmentBase (.startBank bank7) bank7 [] (eightByteBanks [1, 2]) ∧
      ([] : List Byte).length + bank7.length ≤ (eightByteBanks [1, 2]).params.maxBankBytes ∧ bank7.length < 2 ^ 32) ∧
    (segmentBase (.continueBank [3, 4]) [3, 4] [1, 2, 3, 4, 5, 6] (eightByteBanks [1, 2, 3, 4, 5, 6]) ∧
      [(1 : Byte), 2, 3, 4, 5, 6].length + [(3 : Byte), 4].length
        ≤ (eightByteBanks [1, 2, 3, 4, 5, 6]).params.maxBankBytes) :=
  ⟨⟨.inl ⟨rfl, rfl⟩, by decide, by decide⟩, .inr ⟨rfl, rfl⟩, by decide⟩

/-- One byte too many for START_BANK, and CONTINUE into a buffer that is full. -/
theorem witness_SegmentOverflows :
    (segmentBase (.startBank (0 :: bank7)) (0 :: bank7) [] (eightByteBanks [1, 2]) ∧
      ([] : List Byte).length ≤ (eightByteBanks [1, 2]).params.maxBankBytes ∧
      (eightByteBanks [1, 2]).params.maxBankBytes < ([] : List Byte).length + (0 :: bank7).length ∧
      (0 :: bank7).length < 2 ^ 32) ∧
    (segmentBase (.continueBank [9]) [9] bank7 (eightByteBanks bank7) ∧
      bank7.length ≤ (eightByteBanks bank7).params.maxBankBytes ∧
      (eightByteBanks bank7).params.maxBankBytes < bank7.length + [(9 : Byte)].length) :=
  ⟨⟨.inl ⟨rfl, rfl⟩, by decide, by decide, by decide⟩, .inr ⟨rfl, rfl⟩, by decide, by decide⟩

/-- A wrong CRC, and a right one over 7 bytes, the longest bank that is too short. -/
theorem witness_EndBankRejects :
    (0x80B4 : BitVec 16) ≠ crc (withBank bank7 (configured 0)).bra.buf ∧
    (crc (List.replicate 7 0) = crc (withBank (List.replicate 7 0) (configured 0)).bra.buf ∧
      (withBank (List.replicate 7 0) (configured 0)).bra.buf.length < 8) := by decide +kernel

/-- Bank 7 outside an event, and inside one. -/
theorem witness_EndBankMember :
    let s := withBank bank7 (configured 0)
    let t := withEvent [bankOf bank1] s
    (0x80B5 = crc s.bra.buf ∧ 8 ≤ s.bra.buf.length) ∧ (headerBank s.bra.buf).bankId ≠ s.cfg.startId ∧
    s.evg.inEvent = false ∧ t.evg.inEvent = true ∧ (headerBank t.bra.buf).bankId ≠ t.cfg.stopId ∧
    t.evg.buf.length ≠ t.params.maxEventBanks := by decide +kernel

theorem witness_EndBankStartsEvent :
    let s := withBank bank1 (withEvent [bankOf bank7] (configured 1))
    (0x81BF = crc s.bra.buf ∧ 8 ≤ s.bra.buf.length) ∧ (headerBank s.bra.buf).bankId = s.cfg.startId := by decide +kernel

/-- A stop marker with room under KEEP_MARKERS = 1, and one with a full event under KEEP_MARKERS = 0. -/
theorem witness_EndBankStopsEvent :
    let s := withBank bank2 (withEvent [bankOf bank1] (configured 1))
    let t := withBank bank2 (withEvent [bankOf bank1]
      { configured 0 with params := { Config.defaultParams with maxEventBanks := 1 } })
    ∀ u ∈ [s, t], (0x0B6F = crc u.bra.buf ∧ 8 ≤ u.bra.buf.length) ∧
      (headerBank u.bra.buf).bankId ≠ u.cfg.startId ∧ (headerBank u.bra.buf).bankId = u.cfg.stopId ∧
      u.evg.inEvent = true ∧
      (u.cfg.flags.getLsbD 0 = true → u.evg.buf.length ≠ u.params.maxEventBanks) := by decide +kernel

/-- A full event of one bank that another bank, and a kept stop marker, would join. -/
theorem witness_EndBankEventOverflow :
    let full : State := withEvent [bankOf bank1]
      { configured 1 with params := { Config.defaultParams with maxEventBanks := 1 } }
    ∀ u ∈ [withBank bank7 full, withBank bank2 full], 8 ≤ u.bra.buf.length ∧
      (headerBank u.bra.buf).bankId ≠ u.cfg.startId ∧ u.evg.inEvent = true ∧
      u.evg.buf.length = u.params.maxEventBanks ∧
      ((headerBank u.bra.buf).bankId = u.cfg.stopId → u.cfg.flags.getLsbD 0 = true) := by decide

/-- Bank 7 in two segments with two stray bytes between them, the shortest bank there is. -/
theorem witness_SegmentsFormBank :
    let seg : List Byte := [7, 0, 0, 0]
    let more : List (List Byte × List Byte) := [([0x00, 0x61], [1, 0, 0, 0])]
    (configured 0).bra.state = .scan ∧ seg.length < 2 ^ 32 ∧
    (∀ p ∈ more, (∀ b ∈ p.1, b ≠ 0x60) ∧ p.2.length < 2 ^ 32) ∧
    bank7 = seg ++ (more.map Prod.snd).flatten ∧ 8 ≤ bank7.length ∧
    bank7.length ≤ (configured 0).params.maxBankBytes ∧ (configured 0).evg.inEvent = false ∧
    (headerBank bank7).bankId ≠ (configured 0).cfg.startId := by decide

theorem witness_StraysResynchronise :
    (configured 0).bra.state = .scan ∧ ∀ b ∈ ([0x00, 0xFF, 0x5F, 0x61] : List Byte), b ≠ 0x60 := by decide

/-- Two blocks of stray bytes. -/
theorem witness_PayloadsConcatenate :
    let p : List Byte := List.replicate 31996 0
    ∃ t, p.length = 31996 ∧ (configured 0).status.runState = .running ∧ (configured 0).bfv.fill = 0 ∧
      Memory.wf (configured 0).bfv.buf ∧ braBytes (p ++ p) (configured 0) = .ok t := by
  have h : ∀ b ∈ List.replicate 31996 (0 : Byte) ++ List.replicate 31996 0, b ≠ Config.opcodeByte := by
    intro b hb
    have h0 : b = 0 := by rcases List.mem_append.1 hb with h | h <;> exact (List.mem_replicate.1 h).2
    subst h0
    decide
  exact ⟨_, List.length_replicate, by decide, by decide, by decide,
    braBytes_strays _ (s := configured 0) rfl h⟩

/-- A release with a verb frame and a stray byte to go, and a DECODE under a recipe of one operation. -/
theorem witness_StepRunsDecoded :
    let s : State := { configured 0 with bfv := { State.reset.bfv with releasing := [0x60, 0x64, 0x00] } }
    let d : State := { configured 0 with
      rtab := [(7, [0x01, 0x00] ++ typeRecord 0x14)], host := { todo := [.decode (bankOf bank7)], reads := [] } }
    (s.status.runState = .running ∧ s.bra.state = .scan ∧ decodeSymbol s.bfv.releasing = .ok (.filler, [0x00])) ∧
    (d.bfv.releasing = [] ∧ d.host.todo = [.decode (bankOf bank7)] ∧ d.rin.state ≠ .busy ∧
      mapFind (bankOf bank7).bankId.toNat d.rtab = some ([0x01, 0x00] ++ typeRecord 0x14) ∧
      decodeImage d.params.maxExprDepth ([0x01, 0x00] ++ typeRecord 0x14) = .ok [.extractU32 (single 1)]) :=
  ⟨⟨rfl, rfl, rfl⟩, rfl, rfl, by decide, by decide, rfl⟩

/-- A count that fails, one that is negative and one that is 0. -/
theorem witness_OperationRunsCountNode :
    let s := decoding [] []
    s.rin.state = .busy ∧ exec (.ofExpr (.ref 9)) s = .next (rinFailed .unresolvedSymbol 9 s) ∧
    (rinFailed .unresolvedSymbol 9 s).rin.state ≠ .busy ∧
    exec (.ofExpr (.lit (-1))) s = .next (withVal (-1) s) ∧ (withVal (-1) s).rin.state = .busy ∧
    (withVal (-1) s).rin.val < 0 ∧ exec (.ofExpr (.lit 0)) s = .next (withVal 0 s) ∧ 0 ≤ (withVal 0 s).rin.val :=
  ⟨rfl, rfl, by decide, rfl, rfl, by decide, rfl, by decide⟩

/-- Eight bytes at the cursor, which hold values of 2, 4 and 8 bytes; they are the last of the data. -/
theorem witness_IntegerTypesExtract :
    let s := decoding [0xFE, 0xFF, 0xFF, 0xFF, 0xFF, 0xFF, 0xFF, 0xFF] []
    s.rin.nvals ≠ s.params.maxResultValues ∧ bytesAtCursor 2 (0xFFFE : BitVec 16).toNat s ∧
      bytesAtCursor 4 (0xFFFFFFFE : BitVec 32).toNat s ∧ bytesAtCursor 8 (0xFFFFFFFFFFFFFFFE : BitVec 64).toNat s :=
  ⟨by decide, ⟨by decide, by decide⟩, ⟨by decide, by decide⟩, ⟨by decide, by decide⟩⟩

theorem witness_FloatTypesExtract :
    let s := decoding [0x00, 0x00, 0x80, 0x3F, 0x00, 0x00, 0xC0, 0x7F] []
    s.rin.nvals ≠ s.params.maxResultValues ∧ bytesAtCursor 4 (0x3F800000 : BitVec 32).toNat s ∧
      bytesAtCursor 8 (0x7FC000003F800000 : BitVec 64).toNat s :=
  ⟨by decide, ⟨by decide, by decide⟩, ⟨by decide, by decide⟩⟩

/-- Two values that take all the data and all the capacity, under a true condition; and none. -/
theorem witness_PlainOperationStores :
    let s : State := { decoding [1, 0, 2, 0] [] with params := { Config.defaultParams with maxResultValues := 2 } }
    let a : Extract := { field := 1, cond := some (.lit 2), loop := none, count := .lit 2 }
    a.loop = none ∧ condHolds s.rin.ctx a.cond ∧ eval s.rin.ctx a.count = .ok ((2 : Nat) : Int) ∧
      valuesFit .u16 2 s ∧ condHolds s.rin.ctx none ∧ valuesFit .u16 0 s :=
  ⟨rfl, .inr ⟨.lit 2, 2, rfl, rfl, by decide⟩, rfl, ⟨by decide, by decide⟩, .inl rfl, ⟨by decide, by decide⟩⟩

theorem witness_FalseConditionSkips :
    let a : Extract := { single 1 with cond := some (.cmp .eq (.lit 1) (.lit 2)), count := .ref 9 }
    a.cond = some (.cmp .eq (.lit 1) (.lit 2)) ∧ eval [] (.cmp .eq (.lit 1) (.lit 2)) = .ok 0 := ⟨rfl, rfl⟩

/-- The loop of R255's example, `for j < 3 when j != 1 v : U16`, with the data it takes. -/
def guardedLoop : Loop := { var := 3, bound := .lit 3, guard := some (.cmp .ne (.ref 3) (.lit 1)) }

def guardedOp : Extract := { field := 1, cond := none, loop := some guardedLoop, count := .lit 1 }

def notOne (i : Nat) : Bool := i != 1

theorem guardedLoop_guards (s : State) (n : Nat) (h : n ≤ 3) : guardsAre guardedLoop notOne n s := by
  intro i hi
  refine ⟨if (i : Int) ≠ 1 then 1 else 0, ?_, ?_⟩
  · simp only [eval, evalRef, iterationCtx, guardedLoop]
    rw [mapFind_mapInsert]
    simp [cmpValue, cmpHolds]
  · have : i = 0 ∨ i = 1 ∨ i = 2 := by omega
    rcases this with rfl | rfl | rfl <;> decide

theorem witness_LoopedOperationStores :
    let s := decoding [0x0A, 0x00, 0x0B, 0x00] []
    guardedOp.loop = some guardedLoop ∧ condHolds s.rin.ctx guardedOp.cond ∧
      eval s.rin.ctx guardedLoop.bound = .ok ((3 : Nat) : Int) ∧ guardsAre guardedLoop notOne 3 s ∧
      countsAre guardedOp.count guardedLoop notOne (fun _ => 1) 3 s ∧
      valuesFit .u16 (readBefore notOne (fun _ => 1) 3) s :=
  ⟨rfl, .inl rfl, rfl, guardedLoop_guards _ 3 (by decide), fun _ _ _ => rfl, ⟨by decide, by decide⟩⟩

/-- Iteration 2 fails, after iteration 0 read a value and iteration 1 was guarded out: by its guard, its count, a
negative count, a value of which the data holds one byte, and a value that is one too many for the capacity. -/
theorem witness_LoopedOperationFails :
    let s := decoding [0x0A, 0x00, 0x0B] []
    let full : State := { decoding [0x0A, 0x00, 0x0B, 0x00] [] with
      params := { Config.defaultParams with maxResultValues := 1 } }
    let badGuard : Loop := { guardedLoop with guard := some (.cmp .eq (.ref 9) (.ref 3)) }
    (guardedOp.loop = some guardedLoop ∧ condHolds s.rin.ctx guardedOp.cond ∧
      eval s.rin.ctx guardedLoop.bound = .ok ((3 : Nat) : Int) ∧ 2 < 3 ∧ guardsAre guardedLoop notOne 2 s ∧
      countsAre guardedOp.count guardedLoop notOne (fun _ => 1) 2 s ∧
      valuesFit .u16 (readBefore notOne (fun _ => 1) 2) s) ∧
    (guardsAre badGuard notOne 0 s ∧ countsAre guardedOp.count badGuard notOne (fun _ => 1) 0 s ∧
      eval (iterationCtx badGuard 0 s) (.cmp .eq (.ref 9) (.ref 3)) = .error (.unresolvedSymbol, 9)) ∧
    condHolds (iterationCtx guardedLoop 2 s) guardedLoop.guard ∧
    eval (iterationCtx guardedLoop 2 s) (.ref 9) = .error (.unresolvedSymbol, 9) ∧
    eval (iterationCtx guardedLoop 2 s) (.lit (-1)) = .ok (-1) ∧
    (eval (iterationCtx guardedLoop 2 s) guardedOp.count = .ok ((1 : Nat) : Int) ∧ 0 < 1 ∧
      valuesFit .u16 (readBefore notOne (fun _ => 1) 2 + 0) s ∧
      s.rin.data.length < s.rin.cursor + (readBefore notOne (fun _ => 1) 2 + 0 + 1) * storageBytes .u16) ∧
    ((guardsAre guardedLoop notOne 2 full ∧ countsAre guardedOp.count guardedLoop notOne (fun _ => 1) 2 full ∧
        valuesFit .u16 (readBefore notOne (fun _ => 1) 2) full ∧
        condHolds (iterationCtx guardedLoop 2 full) guardedLoop.guard) ∧
      eval (iterationCtx guardedLoop 2 full) guardedOp.count = .ok ((1 : Nat) : Int) ∧ 0 < 1 ∧
      valuesFit .u16 (readBefore notOne (fun _ => 1) 2 + 0) full ∧
      full.rin.cursor + (readBefore notOne (fun _ => 1) 2 + 0 + 1) * storageBytes .u16 ≤ full.rin.data.length ∧
      full.rin.nvals + (readBefore notOne (fun _ => 1) 2 + 0) = full.params.maxResultValues) :=
  ⟨⟨rfl, .inl rfl, rfl, by decide, guardedLoop_guards _ 2 (by decide), fun _ _ _ => rfl, ⟨by decide, by decide⟩⟩,
    ⟨fun i hi => absurd hi (by omega), fun i hi => absurd hi (by omega), rfl⟩,
    .inr ⟨_, 1, rfl, rfl, by decide⟩, rfl, rfl, ⟨rfl, by decide, ⟨by decide, by decide⟩, by decide⟩,
    ⟨guardedLoop_guards _ 2 (by decide), fun _ _ _ => rfl, ⟨by decide, by decide⟩, .inr ⟨_, 1, rfl, rfl, by decide⟩⟩,
    rfl, by decide, ⟨by decide, by decide⟩, by decide, by decide⟩

/-- A failing condition; a failing and a negative count; the third value of V-RIN-46, which does not fit; and a third
value that is one too many for the capacity. -/
theorem witness_OperationErrors :
    let s := decoding [1, 2, 3, 4, 5] []
    let t : State := { decoding [1, 2, 3, 4, 5, 6] [] with
      params := { Config.defaultParams with maxResultValues := 2 } }
    let a : Extract := { single 1 with count := .lit 3 }
    eval s.rin.ctx (.ref 9) = .error (.unresolvedSymbol, 9) ∧ condHolds s.rin.ctx none ∧
    eval s.rin.ctx (.lit (-1)) = .ok (-1) ∧
    (a.loop = none ∧ eval s.rin.ctx a.count = .ok ((3 : Nat) : Int) ∧ 2 < 3 ∧ valuesFit .u16 2 s ∧
      s.rin.data.length < s.rin.cursor + (2 + 1) * storageBytes .u16) ∧
    (eval t.rin.ctx a.count = .ok ((3 : Nat) : Int) ∧ valuesFit .u16 2 t ∧
      t.rin.cursor + (2 + 1) * storageBytes .u16 ≤ t.rin.data.length ∧
      t.rin.nvals + 2 = t.params.maxResultValues) :=
  ⟨rfl, .inl rfl, rfl, ⟨rfl, rfl, by decide, ⟨by decide, by decide⟩, by decide⟩, rfl, ⟨by decide, by decide⟩,
    by decide, by decide⟩

theorem witness_LiteralAndReferenceRun :
    mapFind (2 : Sym).toNat (decoding [] vectorCtx).rin.ctx = some (.scalar (.int 3)) ∧
    mapFind (9 : Sym).toNat (decoding [] vectorCtx).rin.ctx = none ∧
    (mapFind (6 : Sym).toNat (decoding [] vectorCtx).rin.ctx = some (.scalar (.flt4 0x3F800000)) ∧
      ∀ n, Value.scalar (.flt4 0x3F800000) ≠ .scalar (.int n)) := ⟨by decide, by decide, by decide, by simp⟩

theorem witness_ComparisonsRun :
    eval vectorCtx (.ref 2) = .ok 3 ∧ eval vectorCtx (.lit 3) = .ok 3 ∧
    eval vectorCtx (.ref 9) = .error (.unresolvedSymbol, 9) := ⟨rfl, rfl, rfl⟩

/-- No entry for the bank, and an image of one byte, which is the encoding of no recipe. -/
theorem witness_RecipeCheckedFirst :
    let s : State := { configured 0 with rtab := [(7, [0x01])] }
    s.rin.state ≠ .busy ∧ mapFind (bankOf bank1).bankId.toNat s.rtab = none ∧
    mapFind (bankOf bank7).bankId.toNat s.rtab = some [0x01] ∧
    ∀ recipe, recipeWf s.params.maxExprDepth recipe = true → encodeImage recipe ≠ [0x01] := by
  refine ⟨by decide, by decide, by decide, fun recipe _ h => ?_⟩
  have := congrArg List.length h
  simp [encodeImage] at this
  omega

theorem witness_DecodeReportsOnce : (configured 0).rin.state ≠ .busy := by decide

/-- Two states that differ in everything but the table and the parameters. -/
theorem witness_DecodeReadsTableAndBank :
    let s := configured 0
    let t := raiseError .shortBlock 0 0 1 (rinFinish .capacity (withEvent [] (withBank bank7 (configured 1))))
    s.rin.state ≠ .busy ∧ t.rin.state ≠ .busy ∧ t.rtab = s.rtab ∧ t.params = s.params :=
  ⟨by decide, by decide, rfl, rfl⟩

/-- A SEND that is performed. -/
theorem witness_StreamIgnoresInterpreter : isNext (hostCommand (.send (.byte 0)) (configured 0)) = true := by decide

theorem witness_RegistersRead :
    (0x03 : Nat) ∉ [0x00, 0x01, 0x02, 0x08, 0x09, 0x0A, 0x0B, 0x0C, 0x10, 0x11, 0x12, 0x13, 0x14, 0x18, 0x19, 0x1A, 0x1B]
      := by decide

theorem witness_RegistersWritten : State.reset.status.started = false ∧
    (after (hostCommand (.send (.byte 0)) (configured 0))).status.started = true ∧ (2 : Nat) < 3 ∧ (3 : Nat) ≤ 3 := by
  decide

theorem witness_RecipeTableWritten :
    let s : State := { configured 0 with
      rtab := [(7, [0, 0])], params := { Config.defaultParams with maxRecipeBytes := 2 } }
    s.rin.state ≠ .busy ∧ mapWf s.rtab ∧ [(0 : Byte), 0].length ≤ s.params.maxRecipeBytes := by decide

theorem witness_HostViolationsRefused :
    (decoding [] []).rin.state = .busy ∧
    (let s : State := { configured 0 with params := { Config.defaultParams with maxRecipeBytes := 2 } }
     s.rin.state ≠ .busy ∧ s.params.maxRecipeBytes < [(0 : Byte), 0, 0].length) ∧
    (let s : State := { configured 0 with bfv := { State.reset.bfv with index := 0xFFFFFFFF, fill := 31999 } }
     s.status.runState = .running ∧ s.cfg.valid = 7 ∧ s.bfv.index = 0xFFFFFFFF ∧ s.bfv.fill = 31999) := by decide

theorem witness_IdleOrNextCommand :
    State.reset.bfv.releasing = [] ∧ State.reset.host.todo = [] ∧
    ({ State.reset with host := { todo := [.reset], reads := [] } } : State).host.todo = .reset :: [] := ⟨rfl, rfl, rfl⟩

/-- The invariants hold at the configured state, which `StreamInvKept`, `CounterInvKept`, `MarkerInvKept` and
`InterpreterInvKept` may take; its step is an idle one. -/
theorem witness_StreamInvKept : StreamInv (configured 1) ∧ step (configured 1) = .next (configured 1) := by
  refine ⟨?_, rfl⟩
  constructor <;> simp [configured, State.reset, Config.blockLen, Config.defaultParams, Memory.wf, mapWf]

theorem witness_CounterInvKept : CounterInv (configured 1) ∧ step (configured 1) = .next (configured 1) :=
  ⟨⟨rfl, rfl⟩, rfl⟩

theorem witness_MarkerInvKept :
    StreamInv (configured 1) ∧ MarkerInv (configured 1) ∧ step (configured 1) = .next (configured 1) := by
  refine ⟨witness_StreamInvKept.1, ?_, rfl⟩
  constructor <;> simp [configured, State.reset]

theorem witness_InterpreterInvKept :
    RinInv (configured 1) ∧ TableInv (configured 1) ∧ step (configured 1) = .next (configured 1) := by
  refine ⟨?_, ?_, rfl⟩
  · constructor <;> simp [configured, State.reset, recordWf, mapWf]
  · constructor <;> simp [configured, State.reset, mapWf, cfgFlagsMask]

/-- An ended stream whose next command reads a register. -/
theorem witness_EndedStreamIsFrozen :
    let s : State := { braEos (configured 0) with host := { todo := [.csrRead 8], reads := [] } }
    s.status.runState ≠ .running ∧ noReset s ∧ isNext (step s) = true := ⟨by decide, by simp [noReset], by decide⟩

theorem witness_OutputsOnlyGrow :
    let s : State := { configured 0 with host := { todo := [.decode (bankOf bank7)], reads := [] } }
    noReset s ∧ isNext (step s) = true := ⟨by simp [noReset], by decide⟩

end Sys2Proof.Tests
end

section
/-! PROOFS. The TYPE and FLAGS bytes of the recipe carrier (`30_encoding.md` R102, R103): which bytes decode, and
what their bit fields mean. -/

namespace Sys2Proof.CarrierBytes

open Machine

/-! ## The TYPE byte: the decoder inverts the encoder -/

@[simp] theorem decodeType_encodeType (ty : ExtractType) : decodeType (encodeType ty) = .ok ty := by
  cases ty <;> rfl

/-- One row of the decoder's table: if the row's byte is that of its type, and the rows below accept only a type's
own byte, so do the row and the rows below. -/
theorem eq_encodeType_of_row {b c : Byte} {row ty : ExtractType} {below : Except DecodeError ExtractType}
    (hrow : c = encodeType row) (hbelow : below = .ok ty → b = encodeType ty) :
    (if b = c then .ok row else below) = .ok ty → b = encodeType ty := by
  split
  next hb => intro h; rw [hb, hrow, Except.ok.inj h]
  next => exact hbelow

theorem eq_encodeType_of_decodeType {b : Byte} {ty : ExtractType} : decodeType b = .ok ty → b = encodeType ty := by
  unfold decodeType
  repeat refine eq_encodeType_of_row rfl ?_
  exact nofun

theorem decodeType_ok_iff {b : Byte} {ty : ExtractType} : decodeType b = .ok ty ↔ b = encodeType ty :=
  ⟨eq_encodeType_of_decodeType, fun h => h ▸ decodeType_encodeType ty⟩

/-! ## The TYPE byte: its fields -/

/-- The TYPE byte with the fields `KIND`, `SW` and `LW`, and bits 7:6 clear (R102). -/
def typeByteOf (kind sw lw : BitVec 2) : Byte := 0#2 ++ lw ++ sw ++ kind

/-- What R102 asks of the fields: no reserved code, `LW` at least `SW`, and no FLOAT with a 2-byte width. -/
abbrev LegalFields (kind sw lw : BitVec 2) : Prop :=
  kind ≠ 3 ∧ sw ≠ 3 ∧ lw ≠ 3 ∧ sw ≤ lw ∧ (kind = 2 → sw ≠ 0)

/-- The 15 types, in the order of R102's table. -/
def extractTypes : List ExtractType :=
  [.u16, .u16u32, .u16u64, .u32, .u32u64, .u64, .s16, .s16s32, .s16s64, .s32, .s32s64, .s64, .f32, .f32f64, .f64]

theorem eq_typeByteOf {b : Byte} (h : b.extractLsb' 6 2 = 0) :
    b = typeByteOf (b.extractLsb' 0 2) (b.extractLsb' 2 2) (b.extractLsb' 4 2) := by
  have hjoin : b.extractLsb' 6 2 ++ b.extractLsb' 4 2 ++ b.extractLsb' 2 2 ++ b.extractLsb' 0 2 = b := by
    rw [BitVec.extractLsb'_append_extractLsb'_eq_extractLsb' (by rfl),
      BitVec.extractLsb'_append_extractLsb'_eq_extractLsb' (by rfl),
      BitVec.extractLsb'_append_extractLsb'_eq_extractLsb' (by rfl)]
    exact BitVec.extractLsb'_eq_self
  rw [h] at hjoin
  exact hjoin.symm

/-- R102's table leaves out no legal combination of the three fields. -/
theorem exists_encodeType_eq_typeByteOf :
    ∀ kind sw lw, LegalFields kind sw lw → ∃ ty ∈ extractTypes, typeByteOf kind sw lw = encodeType ty := by
  decide

theorem encodeType_fields_legal (ty : ExtractType) :
    (encodeType ty).extractLsb' 6 2 = 0 ∧
      LegalFields ((encodeType ty).extractLsb' 0 2) ((encodeType ty).extractLsb' 2 2)
        ((encodeType ty).extractLsb' 4 2) := by
  cases ty <;> decide

theorem typeKind_eq_of_kind_field (ty : ExtractType) :
    typeKind ty = if (encodeType ty).extractLsb' 0 2 = 0 then .uint
      else if (encodeType ty).extractLsb' 0 2 = 1 then .sint else .float := by
  cases ty <;> rfl

theorem storageBytes_eq_of_sw_field (ty : ExtractType) :
    storageBytes ty = 2 ^ (1 + ((encodeType ty).extractLsb' 2 2).toNat) := by
  cases ty <;> rfl

theorem logicalBytes_eq_of_lw_field (ty : ExtractType) :
    logicalBytes ty = 2 ^ (1 + ((encodeType ty).extractLsb' 4 2).toNat) := by
  cases ty <;> rfl

theorem exists_decodeType_ok_iff (b : Byte) :
    (∃ ty, decodeType b = .ok ty) ↔
      b.extractLsb' 6 2 = 0 ∧ LegalFields (b.extractLsb' 0 2) (b.extractLsb' 2 2) (b.extractLsb' 4 2) := by
  constructor
  · rintro ⟨ty, hty⟩
    obtain rfl := decodeType_ok_iff.mp hty
    exact encodeType_fields_legal ty
  · rintro ⟨hrsvd, hlegal⟩
    obtain ⟨ty, -, hty⟩ := exists_encodeType_eq_typeByteOf _ _ _ hlegal
    exact ⟨ty, decodeType_ok_iff.mpr ((eq_typeByteOf hrsvd).trans hty)⟩

/-! ## The FLAGS byte -/

theorem decodeFlags_ok_iff {b : Byte} {f : Bool × Bool × Bool} :
    decodeFlags b = .ok f ↔
      (b.toNat < 8 ∧ (b.getLsbD 2 → b.getLsbD 1)) ∧ f = (b.getLsbD 0, b.getLsbD 1, b.getLsbD 2) := by
  unfold decodeFlags
  split
  case isTrue hlegal => rw [Except.ok.injEq, eq_comm, and_iff_right hlegal]
  case isFalse hbad => simp only [reduceCtorEq, hbad, false_and]

/-- Of the eight bytes with bits 7:3 clear, the two that set `G` and not `L` are 0x04 and 0x05. -/
theorem legal_flags_of_lt_eight : ∀ n < 8, let b := BitVec.ofNat 8 n
    (b.getLsbD 2 → b.getLsbD 1) → b = 0x00 ∨ b = 0x01 ∨ b = 0x02 ∨ b = 0x03 ∨ b = 0x06 ∨ b = 0x07 := by
  decide

theorem flags_legal_iff (b : Byte) :
    (b.toNat < 8 ∧ (b.getLsbD 2 → b.getLsbD 1)) ↔
      b = 0x00 ∨ b = 0x01 ∨ b = 0x02 ∨ b = 0x03 ∨ b = 0x06 ∨ b = 0x07 := by
  constructor
  · rintro ⟨hlt, hguard⟩
    have hcases := legal_flags_of_lt_eight b.toNat hlt
    rw [BitVec.ofNat_toNat, BitVec.setWidth_eq] at hcases
    exact hcases hguard
  · rintro (rfl | rfl | rfl | rfl | rfl | rfl) <;> decide

/-- Settles O5: the decoders are compared with R102's table and R103's list, and each byte of those with its fields. -/
theorem carrierBytesLegal : Obligations.CarrierBytesLegal := by
  unfold Obligations.CarrierBytesLegal
  refine ⟨fun b => ⟨exists_decodeType_ok_iff b, fun ty hty => ?_⟩, fun b => ⟨?_, fun c l g hf => ?_⟩⟩
  · obtain rfl := decodeType_ok_iff.mp hty
    exact ⟨typeKind_eq_of_kind_field ty, storageBytes_eq_of_sw_field ty, logicalBytes_eq_of_lw_field ty⟩
  · simp only [decodeFlags_ok_iff, exists_and_left, exists_eq, and_true, flags_legal_iff]
  · obtain ⟨-, hbits⟩ := decodeFlags_ok_iff.mp hf
    simpa only [Prod.mk.injEq] using hbits

end Sys2Proof.CarrierBytes
end

section
/-! PROOFS. The end of the stream at the block frame validator (`41_block_validator.md` R140, R147, R148): how a SEND
of EOS reaches it, and what it answers inside a frame. -/

namespace Sys2Proof.FrameValidator

open Machine Claims

/-- The state of the model's raise is the one the statements name (R276). -/
theorem raiseError_eq_errorState (code : StreamError) (expected actual : BitVec 16) (aux : Nat) (s : State) :
    raiseError code expected actual aux s = errorState code expected actual aux s := rfl

/-- EOS completes no frame, so the limit on frames (R10, R310) never refuses it. -/
theorem hostCommand_send_eos {s : State} (hrun : s.status.runState = .running) (hcfg : s.cfg.valid = 7) :
    hostCommand (.send .eos) s = .next (bfvEos { s with status := { s.status with started := true } }) := by
  simp only [hostCommand, cmdSend, hrun, hcfg, ne_eq, not_true_eq_false, false_and, if_false, streamStep]

theorem bfvEos_of_partial_frame {s : State} (hfill : s.bfv.fill ≠ 0) :
    bfvEos s = errorState .shortBlock 0 0 s.bfv.fill s :=
  (if_neg hfill).trans (raiseError_eq_errorState ..)

/-- Settles O14: the EOS is performed, and a fill count of at least 1 is no frame boundary. -/
theorem shortBlockAtEos : Obligations.ShortBlockAtEos := by
  unfold Obligations.ShortBlockAtEos
  intro s hrun hcfg hfill _
  have hpartial : s.bfv.fill ≠ 0 := Nat.one_le_iff_ne_zero.mp hfill
  exact (hostCommand_send_eos hrun hcfg).trans (congrArg Host.Outcome.next (bfvEos_of_partial_frame hpartial))

end Sys2Proof.FrameValidator
end

section
/-! PROOFS. The bank reassembler (`42_bank_assembler.md`): the clean end of the stream (R183), and the symbols that
touch no bank (R161, R164 to R167, R171, R174). -/

namespace Sys2Proof.BankAssembler

open Machine

/-! ## The clean end of the stream -/

/-- The state that a clean end leaves: three flags, DONE, no bank and no event open. -/
theorem braEos_eq (s : State) :
    braEos s = { s with
      status := { s.status with
        runState := .done
        endFieldTruncated := decide (s.bra.state ≠ .scan)
        endOpenBankDropped := s.bra.isOpen
        endOpenEventDropped := s.evg.inEvent }
      bra := { s.bra with buf := [], isOpen := false }
      evg := { inEvent := false, buf := [] } } := by
  rw [decide_not]
  rfl

theorem bfvEos_of_frame_boundary {s : State} (hfill : s.bfv.fill = 0) : bfvEos s = braEos s := if_pos hfill

/-- Settles O15: the EOS is performed, reaches BRA at a frame boundary, and `braEos_eq` is the state it leaves. -/
theorem cleanEndAtEos : Obligations.CleanEndAtEos := by
  unfold Obligations.CleanEndAtEos
  intro s hrun hcfg hfill
  have hclean := bfvEos_of_frame_boundary (s := { s with status := { s.status with started := true } }) hfill
  rw [FrameValidator.hostCommand_send_eos hrun hcfg, hclean, braEos_eq]

/-! ## Verbs without argument bytes -/

theorem exec_endBlockLogical (s : State) : exec .endBlockLogical s = .next (braGoto .scan s) := rfl

theorem exec_endBlockPhysical (s : State) : exec .endBlockPhysical s = .next (braGoto .scan s) := rfl

theorem exec_filler (s : State) : exec .filler s = .next (braGoto .scan s) := rfl

/-- Settles O17: each of the three verbs only goes to SCAN. -/
theorem noOpVerbsRun : Obligations.NoOpVerbsRun := by
  unfold Obligations.NoOpVerbsRun
  rintro i v s (⟨rfl, rfl⟩ | ⟨rfl, rfl⟩ | ⟨rfl, rfl⟩)
  · exact ⟨rfl, exec_endBlockLogical s⟩
  · exact ⟨rfl, exec_endBlockPhysical s⟩
  · exact ⟨rfl, exec_filler s⟩

/-! ## Stray bytes and unknown verbs -/

theorem exec_stray (b : Byte) (s : State) : exec (.stray b) s = .next (skipStray s) := rfl

theorem exec_unknownVerb (v : Byte) (s : State) : exec (.unknownVerb v) s = .next (verbUnknown s) := rfl

theorem decodeVerb_of_not_known {v : Byte} (h : v ∉ knownVerbs) : decodeVerb v = .unknown := by
  simp only [knownVerbs, List.mem_cons, List.not_mem_nil, or_false, not_or] at h
  simp only [decodeVerb, h, if_false]

theorem decodeSymbol_opcode (bs : List Byte) : decodeSymbol (0x60 :: bs) = decodeVerbFrame bs := rfl

/-- A verb outside the closed set takes no argument byte (R92). -/
theorem decodeVerbFrame_of_unknown {v : Byte} (h : decodeVerb v = .unknown) (rest : List Byte) :
    decodeVerbFrame (v :: rest) = .ok (.unknownVerb v, rest) := by
  simp only [decodeVerbFrame, takeByte, bind, Except.bind, h]
  rfl

/-- Settles O18: SCAN either enters VERB or skips the byte, and a verb outside the eight known codes takes the
decoder's default arm. -/
theorem skippedSymbolsRun : Obligations.SkippedSymbolsRun := by
  unfold Obligations.SkippedSymbolsRun
  refine ⟨exec_stray, fun b s hscan => braByte_scan hscan b, fun v rest s hv => ⟨?_, exec_unknownVerb v s⟩⟩
  rw [decodeSymbol_opcode, decodeVerbFrame_of_unknown (decodeVerb_of_not_known hv)]

/-! ## Discarded fields -/

theorem exec_startBlock (number : BitVec 32) (s : State) :
    exec (.startBlock number) s = .next (settle (braBytes (le32 number) (verbStartBlock s))) := rfl

theorem exec_toBeContd (x0 x1 x2 x3 x4 : Byte) (s : State) :
    exec (.toBeContd x0 x1 x2 x3 x4) s = .next (settle (braBytes [x0, x1, x2, x3, x4] (verbToBeContd s))) := rfl

/-- The four bytes after START_BLOCK are collected, and the complete number only ends the field (R164). -/
theorem braBytes_sbNum (number : BitVec 32) {s : State} (hs : s.bra.state = .sbNum) (hk : s.bra.k = 0) :
    braBytes (le32 number) s = .ok { s with bra := { s.bra with state := .scan, k := 0, acc := number } } := by
  rw [braBytes_le32 number (.inl hs) hk]
  simp only [braFieldDone, hs]
  rfl

/-- A byte after TO_BE_CONTD that is not the fifth is counted and not kept (R163, R171). -/
theorem braByte_tbcSkip (b : Byte) {s : State} (hs : s.bra.state = .tbcSkip)
    (hmore : s.bra.k + 1 ≠ Config.tbcSkipLen) :
    braByte b s = .ok { s with bra := { s.bra with k := s.bra.k + 1 } } := by
  simp only [braByte, braField, braFieldByte, fieldWidth, hs, hmore, if_true, if_false]

/-- The fifth byte after TO_BE_CONTD is not kept either, and ends the field (R163, R171). -/
theorem braByte_tbcSkip_last (b : Byte) {s : State} (hs : s.bra.state = .tbcSkip)
    (hlast : s.bra.k + 1 = Config.tbcSkipLen) :
    braByte b s = .ok { s with bra := { s.bra with state := .scan, k := 0 } } := by
  simp only [braByte, braField, braFieldByte, fieldWidth, hs, hlast, if_true, braFieldDone, braGoto]

/-- The bytes that are left of TO_BE_CONTD's five, whatever they are, only bring BRA back to SCAN. -/
theorem braBytes_tbcSkip {bs : List Byte} {s : State} (hs : s.bra.state = .tbcSkip) (hne : bs ≠ [])
    (hk : s.bra.k + bs.length = Config.tbcSkipLen) :
    braBytes bs s = .ok { s with bra := { s.bra with state := .scan, k := 0 } } := by
  induction bs generalizing s with
  | nil => exact absurd rfl hne
  | cons b bs ih =>
    rw [List.length_cons] at hk
    rw [braBytes_cons]
    cases bs with
    | nil => rw [braByte_tbcSkip_last b hs hk]; rfl
    | cons c cs =>
      rw [List.length_cons] at hk
      rw [braByte_tbcSkip b hs (by omega)]
      exact ih hs (List.cons_ne_nil c cs) (by simp only [List.length_cons]; omega)

/-- Settles O19: each verb enters its field, and the bytes of the field end it. -/
theorem discardedFieldsRun : Obligations.DiscardedFieldsRun := by
  unfold Obligations.DiscardedFieldsRun
  refine ⟨fun number s => ⟨rfl, ?_⟩, fun x0 x1 x2 x3 x4 s => ⟨0, rfl, ?_⟩⟩
  · rw [exec_startBlock, braBytes_sbNum number rfl rfl]
    rfl
  · rw [exec_toBeContd, braBytes_tbcSkip rfl (List.cons_ne_nil _ _) rfl]
    rfl

end Sys2Proof.BankAssembler
end

section
/-! PROOFS. The event grouper (`43_event_grouper.md`): how a verified bank reaches it from END_BANK (R172, R173), and
what a start marker does there (R202). -/

namespace Sys2Proof.EventGrouper

open Machine Claims

/-! ## From END_BANK to the event grouper -/

theorem exec_endBank (crcf rsvd : BitVec 16) (s : State) :
    exec (.endBank crcf rsvd) s = .next (settle (braBytes (le16 crcf ++ le16 rsvd) (verbEndBank s))) := rfl

/-- The four bytes after END_BANK's verb are collected, and the complete field is checked (R163, R172). -/
theorem braBytes_endBank (crcf rsvd : BitVec 16) (s : State) :
    braBytes (le16 crcf ++ le16 rsvd) (verbEndBank s) = braEndBank (rsvd ++ crcf) (crcField crcf rsvd s) := by
  rw [le16_append, braBytes_le32 _ (.inr (.inr rfl)) rfl]
  rfl

/-- A field that passes both checks emits the bank; the expected CRC is its low half (R91, R172). -/
theorem braEndBank_of_verified {crcf : BitVec 16} (rsvd : BitVec 16) {s : State} (hv : bankVerified crcf s) :
    braEndBank (rsvd ++ crcf) (crcField crcf rsvd s) = braEmitBank (crcField crcf rsvd s) := by
  obtain ⟨hcrc, hlen⟩ := hv
  rcases braEndBank_cases (rsvd ++ crcf) (crcField crcf rsvd s) with ⟨hbad, -⟩ | ⟨-, hshort, -⟩ | ⟨-, -, h⟩
  · exact absurd (BitVec.extractLsb'_append_eq_right.trans hcrc) hbad
  · exact absurd hlen (Nat.not_le.mpr hshort)
  · exact h

/-- The Bank is emitted and counted before EVG sees it, and no bank is open after (R173). -/
theorem braEmitBank_crcField (crcf rsvd : BitVec 16) (s : State) :
    braEmitBank (crcField crcf rsvd s) =
      bankClosed <$> evgBank (headerBank s.bra.buf) (bankEmitted crcf rsvd s) := rfl

/-- END_BANK of a verified bank hands the Bank to EVG. -/
theorem exec_endBank_of_verified {crcf : BitVec 16} (rsvd : BitVec 16) {s : State} (hv : bankVerified crcf s) :
    exec (.endBank crcf rsvd) s =
      .next (settle (bankClosed <$> evgBank (headerBank s.bra.buf) (bankEmitted crcf rsvd s))) := by
  rw [exec_endBank, braBytes_endBank, braEndBank_of_verified rsvd hv, braEmitBank_crcField]

/-! ## A start marker -/

/-- The start test comes first, so the stop id plays no part (R201). -/
theorem evgBank_of_startId {bank : Bank} {s : State} (h : bank.bankId = s.cfg.startId) :
    evgBank bank s = .ok (evgStart bank s) := if_pos h

/-- An open event that holds banks is emitted, and the new event takes its place; BRA plays no part in it, so the
bank may as well be closed first (R173, R202). -/
theorem bankClosed_evgStart (bank : Bank) (s : State) :
    bankClosed (evgStart bank s) =
      { (if s.evg.inEvent = true ∧ s.evg.buf ≠ [] then eventEmitted s.evg.buf (bankClosed s) else bankClosed s) with
        evg := { inEvent := true, buf := if s.cfg.flags.getLsbD 0 then [bank] else [] } } := by
  have hforced : (s.evg.inEvent && !s.evg.buf.isEmpty) = true ↔ s.evg.inEvent = true ∧ s.evg.buf ≠ [] := by
    simp only [Bool.and_eq_true, Bool.not_eq_true', List.isEmpty_eq_false_iff]
  simp only [evgStart_eq, hforced]
  split <;> rfl

/-- Settles O24: the verified bank reaches EVG, which takes it as a start marker. -/
theorem endBankStartsEvent : Obligations.EndBankStartsEvent := by
  unfold Obligations.EndBankStartsEvent
  intro crcf rsvd s hv hstart
  have hevg : evgBank (headerBank s.bra.buf) (bankEmitted crcf rsvd s) =
      .ok (evgStart (headerBank s.bra.buf) (bankEmitted crcf rsvd s)) := evgBank_of_startId hstart
  rw [exec_endBank_of_verified rsvd hv, hevg]
  exact congrArg Host.Outcome.next (bankClosed_evgStart (headerBank s.bra.buf) (bankEmitted crcf rsvd s))

end Sys2Proof.EventGrouper
end

section
/-! PROOFS. The two's-complement reading of a little-endian field (`00_scope.md` R11). -/

namespace Sys2Proof.ByteOrder

/-- The sign bit of the last byte says whether the value lies in the upper half of its range. -/
theorem getLsbD_seven_getLast {s : List Byte} {top : Byte} (h : s.getLast? = some top) :
    top.getLsbD 7 = decide (2 ^ (8 * s.length) ≤ 2 * leNat s) := by
  induction s with
  | nil => simp at h
  | cons b bs ih =>
    cases bs with
    | nil =>
      obtain rfl : b = top := by simpa using h
      have hbit : b.getLsbD 7 = decide (128 ≤ b.toNat) := (BitVec.msb_eq_getLsbD_last b).symm.trans b.msb_eq_decide
      rw [hbit, leNat, leNat, List.length_singleton]
      exact decide_eq_decide.mpr (by omega)
    | cons c cs =>
      rw [List.getLast?_cons_cons] at h
      have hb := b.isLt
      have hpow : 2 ^ (8 * (b :: c :: cs).length) = 256 * 2 ^ (8 * (c :: cs).length) := by
        rw [List.length_cons, Nat.mul_succ, Nat.pow_add, Nat.mul_comm]
      have heven : 2 ^ (8 * (c :: cs).length) = 2 * 2 ^ (8 * (c :: cs).length - 1) := by
        rw [← Nat.pow_succ', List.length_cons]
        congr 1
      have hcons : leNat (b :: c :: cs) = b.toNat + 256 * leNat (c :: cs) := rfl
      rw [ih h, hpow, hcons, heven]
      exact decide_eq_decide.mpr (by omega)

/-- `SLE(s)` takes `2^(8n)` from the values in the upper half of the range of `n` bytes. -/
theorem sleInt_eq {s : List Byte} (hne : s ≠ []) :
    sleInt s = if 2 * leNat s < 2 ^ (8 * s.length) then (leNat s : Int) else leNat s - 2 ^ (8 * s.length) := by
  have htop := List.getLast?_eq_some_getLast hne
  simp only [sleInt, htop, getLsbD_seven_getLast htop, decide_eq_true_eq, ← Nat.not_lt, ite_not]

/-- A word is read back from its bytes, whatever its width. -/
theorem leNat_leBytes_toNat {n : Nat} (v : BitVec (8 * n)) : leNat (leBytes n v.toNat) = v.toNat :=
  leNat_leBytes_of_lt (Nat.pow_mul 2 8 n ▸ v.isLt)

/-- Read as signed, the bytes of a word give its two's-complement value. -/
theorem sleInt_leBytes_toNat {n : Nat} (hn : 0 < n) (v : BitVec (8 * n)) : sleInt (leBytes n v.toNat) = v.toInt := by
  have hne : leBytes n v.toNat ≠ [] := List.ne_nil_of_length_pos (by rwa [leBytes_length])
  rw [sleInt_eq hne, leNat_leBytes_toNat, leBytes_length, BitVec.toInt_eq_toNat_cond]
  norm_cast

end Sys2Proof.ByteOrder
end

section
/-! PROOFS. The recipe interpreter (`44_recipe_interpreter.md`): an operation whose condition is false (R253), and
the value that each of the 15 types reads and stores (R226 to R241, R252). -/

namespace Sys2Proof.RecipeInterpreter

open Machine Claims ByteOrder

/-! ## What the steps of an operation answer -/

theorem rinEval_of_ok {ctx : Record} {e : Expr} {v : Int} (h : eval ctx e = .ok v) (s : State) :
    rinEval ctx e s = .ok (v, withVal v s) := by
  rw [rinEval, h]
  rfl

theorem rinTest_some_of_ok {ctx : Record} {e : Expr} {v : Int} (h : eval ctx e = .ok v) (s : State) :
    rinTest ctx (some e) s = .ok (truth v, withVal v s) := by
  rw [rinTest, rinEval_of_ok h]
  rfl

theorem rinCount_of_ok {ctx : Record} {e : Expr} {c : Nat} (h : eval ctx e = .ok (c : Int)) (s : State) :
    rinCount ctx e s = .ok (c, withVal c s) := by
  have hnonneg : ¬ (c : Int) < 0 := not_lt.mpr (Int.natCast_nonneg c)
  simp only [rinCount, rinEval_of_ok h, bind, Except.bind, hnonneg, if_false]
  rfl

theorem extractItem_one_of_ok {ty : ExtractType} {v : Scalar} {s t : State} (h : extract ty s = .ok (v, t)) :
    extractItem ty 1 s = .ok (.one v, t) := by
  simp only [extractItem, extractList, h, bind, Except.bind]
  rfl

/-- The plain form evaluates the count and reads that many values (R252). -/
theorem rinValue_plain_of_ok {ty : ExtractType} {a : Extract} {c : Nat} {item : Item} {s t : State}
    (hloop : a.loop = none) (hcount : eval s.rin.ctx a.count = .ok (c : Int))
    (hitem : extractItem ty c (withVal c s) = .ok (item, t)) : rinValue ty a s = .ok (itemValue item, t) := by
  simp only [rinValue, hloop, rinCount_of_ok hcount, bind, Except.bind, hitem]
  rfl

theorem rinOp_of_test_false {ty : ExtractType} {a : Extract} {s t : State}
    (htest : rinTest s.rin.ctx a.cond s = .ok (false, t)) : rinOp ty a s = .ok (rinAdvance t) := by
  rw [rinOp, htest]
  rfl

theorem rinOp_of_value_ok {ty : ExtractType} {a : Extract} {v : Value} {s t u : State}
    (htest : rinTest s.rin.ctx a.cond s = .ok (true, t)) (hvalue : rinValue ty a t = .ok (v, u)) :
    rinOp ty a s = .ok (rinAdvance (rinStore a.field v u)) := by
  simp only [rinOp, htest, bind, Except.bind, if_true, hvalue]
  rfl

/-! ## A false condition -/

/-- Settles O35: the test answers false, and what comes after it is not run. -/
theorem falseConditionSkips : Obligations.FalseConditionSkips := by
  unfold Obligations.FalseConditionSkips
  intro ty a e s hcond heval
  have htest : rinTest s.rin.ctx a.cond s = .ok (false, withVal 0 s) := hcond ▸ rinTest_some_of_ok heval s
  refine ⟨0, ?_⟩
  rw [exec_extract, rinOp_of_test_false htest]
  rfl

/-! ## One value of a type -/

theorem typeByte_extract (ty : ExtractType) : typeByte (.extract ty) (encodeType ty) := by
  intro a
  cases ty <;> rfl

theorem storageBytes_pos (ty : ExtractType) : 0 < storageBytes ty := by
  cases ty <;> decide

/-- The logical width is no narrower than the storage width (R102). -/
theorem storageBytes_le_logicalBytes (ty : ExtractType) : storageBytes ty ≤ logicalBytes ty := by
  cases ty <;> decide

section OneValue

variable {ty : ExtractType} {field : Sym} {s : State} (hroom : s.rin.nvals ≠ s.params.maxResultValues)

include hroom

/-- A value that the data and the capacity hold is read at the cursor (R226). -/
theorem extract_of_bytesAtCursor {w : Nat} (hbytes : bytesAtCursor (storageBytes ty) w s) :
    extract ty s = .ok (typedValue ty (leBytes (storageBytes ty) w), valuesRead ty 1 s) := by
  obtain ⟨hfits, htake⟩ := hbytes
  rcases extract_cases ty s with ⟨hshort, -⟩ | ⟨-, hfull, -⟩ | ⟨-, -, h⟩
  · omega
  · exact absurd hfull hroom
  · rw [h, htake, valuesRead, Nat.one_mul]

/-- The operation of one value stores what its type makes of the bytes at the cursor, and its count leaves 1 in
`val`. -/
theorem runsTo_single {w : Nat} (hbytes : bytesAtCursor (storageBytes ty) w s) :
    runsTo (.extract ty (single field)) s
      (oneStored field (typedValue ty (leBytes (storageBytes ty) w)) (storageBytes ty) s) := by
  have hitem := extractItem_one_of_ok (extract_of_bytesAtCursor (s := withVal 1 s) hroom hbytes)
  have hvalue : rinValue ty (single field) s = .ok (.scalar _, _) := rinValue_plain_of_ok rfl rfl hitem
  refine ⟨1, ?_⟩
  rw [exec_extract, rinOp_of_value_ok rfl hvalue, valuesRead, Nat.one_mul]
  rfl

theorem runsTo_uint (hkind : typeKind ty = .uint)
    {v : BitVec (8 * storageBytes ty)} (hbytes : bytesAtCursor (storageBytes ty) v.toNat s) :
    runsTo (.extract ty (single field)) s (oneStored field (.int v.toNat) (storageBytes ty) s) := by
  have hvalue : typedValue ty (leBytes (storageBytes ty) v.toNat) = .int v.toNat := by
    simp only [typedValue, hkind, leNat_leBytes_toNat]
  exact hvalue ▸ runsTo_single hroom hbytes

/-- Zero-extending to the logical width changes no value (R228, R229, R231). -/
theorem runsTo_uint_setWidth (hkind : typeKind ty = .uint)
    {v : BitVec (8 * storageBytes ty)} (hbytes : bytesAtCursor (storageBytes ty) v.toNat s) :
    runsTo (.extract ty (single field)) s
      (oneStored field (.int (v.setWidth (8 * logicalBytes ty)).toNat) (storageBytes ty) s) := by
  rw [BitVec.toNat_setWidth_of_le (Nat.mul_le_mul_left 8 (storageBytes_le_logicalBytes ty))]
  exact runsTo_uint hroom hkind hbytes

theorem runsTo_sint (hkind : typeKind ty = .sint)
    {v : BitVec (8 * storageBytes ty)} (hbytes : bytesAtCursor (storageBytes ty) v.toNat s) :
    runsTo (.extract ty (single field)) s (oneStored field (.int v.toInt) (storageBytes ty) s) := by
  have hvalue : typedValue ty (leBytes (storageBytes ty) v.toNat) = .int v.toInt := by
    simp only [typedValue, hkind, sleInt_leBytes_toNat (storageBytes_pos ty)]
  exact hvalue ▸ runsTo_single hroom hbytes

/-- Sign-extending to the logical width changes no value (R234, R235, R237). -/
theorem runsTo_sint_signExtend (hkind : typeKind ty = .sint)
    {v : BitVec (8 * storageBytes ty)} (hbytes : bytesAtCursor (storageBytes ty) v.toNat s) :
    runsTo (.extract ty (single field)) s
      (oneStored field (.int (v.signExtend (8 * logicalBytes ty)).toInt) (storageBytes ty) s) := by
  rw [BitVec.toInt_signExtend_of_le (Nat.mul_le_mul_left 8 (storageBytes_le_logicalBytes ty))]
  exact runsTo_sint hroom hkind hbytes

/-- A float of 4 storage bytes keeps its 32-bit pattern, whatever its logical width (R239, R240). -/
theorem runsTo_float_of_four_bytes (hkind : typeKind ty = .float) (hwidth : storageBytes ty = 4)
    {v : BitVec 32} (hbytes : bytesAtCursor 4 v.toNat s) :
    runsTo (.extract ty (single field)) s (oneStored field (.flt4 v) 4 s) := by
  have hvalue : typedValue ty (leBytes 4 v.toNat) = .flt4 v := by
    simp only [typedValue, hkind, hwidth, if_true, leNat_leBytes_toNat (n := 4) v, BitVec.ofNat_toNat,
      BitVec.setWidth_eq]
  rw [← hvalue, ← hwidth]
  exact runsTo_single hroom (hwidth ▸ hbytes)

theorem runsTo_f64 {v : BitVec 64} (hbytes : bytesAtCursor 8 v.toNat s) :
    runsTo (.extractF64 (single field)) s (oneStored field (.flt8 v) 8 s) := by
  have hvalue : typedValue .f64 (leBytes 8 v.toNat) = .flt8 v := by
    simp only [typedValue, typeKind, storageBytes, leNat_leBytes_toNat (n := 8) v, BitVec.ofNat_toNat,
      BitVec.setWidth_eq]
    rfl
  exact hvalue ▸ runsTo_single (ty := .f64) hroom hbytes

end OneValue

/-- Settles O32: each type reads the bytes at the cursor by its kind, and a wider logical width extends the word. -/
theorem integerTypesExtract : Obligations.IntegerTypesExtract := by
  unfold Obligations.IntegerTypesExtract
  refine ⟨⟨typeByte_extract .u16, typeByte_extract .u16u32, typeByte_extract .u16u64, typeByte_extract .u32,
    typeByte_extract .u32u64, typeByte_extract .u64, typeByte_extract .s16, typeByte_extract .s16s32,
    typeByte_extract .s16s64, typeByte_extract .s32, typeByte_extract .s32s64, typeByte_extract .s64⟩,
    fun field s hroom => ⟨fun v hv => ?_, fun v hv => ?_, fun v hv => ?_⟩⟩
  · exact ⟨runsTo_uint (ty := .u16) hroom rfl hv, runsTo_uint_setWidth (ty := .u16u32) hroom rfl hv,
      runsTo_uint_setWidth (ty := .u16u64) hroom rfl hv, runsTo_sint (ty := .s16) hroom rfl hv,
      runsTo_sint_signExtend (ty := .s16s32) hroom rfl hv, runsTo_sint_signExtend (ty := .s16s64) hroom rfl hv⟩
  · exact ⟨runsTo_uint (ty := .u32) hroom rfl hv, runsTo_uint_setWidth (ty := .u32u64) hroom rfl hv,
      runsTo_sint (ty := .s32) hroom rfl hv, runsTo_sint_signExtend (ty := .s32s64) hroom rfl hv⟩
  · exact ⟨runsTo_uint (ty := .u64) hroom rfl hv, runsTo_sint (ty := .s64) hroom rfl hv⟩

/-- Settles O33: F32:F64 is the other type of 4 storage bytes, so what is said of F32 is said of it. -/
theorem floatTypesExtract : Obligations.FloatTypesExtract := by
  unfold Obligations.FloatTypesExtract
  refine ⟨⟨typeByte_extract .f32, typeByte_extract .f32f64, typeByte_extract .f64⟩,
    fun field s hroom => ⟨fun v hv => ⟨?_, ?_⟩, fun v hv => runsTo_f64 hroom hv⟩⟩
  · exact runsTo_float_of_four_bytes (ty := .f32) hroom rfl rfl hv
  · exact runsTo_float_of_four_bytes (ty := .f32f64) hroom rfl rfl hv

end Sys2Proof.RecipeInterpreter
end

section
/-! PROOFS. The host's commands: what the RIN and a DECODE leave unchanged (`10_state.md` R21), what no command but
RESET changes once the stream has ended (R28, `60_exceptions.md` R279), and the refusals, register writes and RESET of
`70_reset_and_hazards.md` (R300, R311, R312). -/

namespace Sys2Proof.HostCommands

open Machine Claims

/-! ## The RIN owns `rin` and RIN_OUT -/

/-- The states that the RIN leads to: only its own state and its output queue may differ (R21, R287). -/
def RinOnly (s t : State) : Prop :=
  t = { s with rin := t.rin, queues := { s.queues with rinOut := t.queues.rinOut } }

theorem RinOnly.trans {s t u : State} (h : RinOnly s t) (k : RinOnly t u) : RinOnly s u := by
  unfold RinOnly
  rw [k, h]

/-- What the RIN leads to differs in nothing that the stream pipeline owns. -/
theorem RinOnly.sameStream {s t : State} (h : RinOnly s t) : sameStream s t := by
  rw [h]
  exact ⟨rfl, rfl, rfl, rfl, rfl, rfl, rfl⟩

theorem RinOnly.of_reads {s t : State} (h : RinReads s t) : RinOnly s t := by
  unfold RinOnly
  rw [h.eq]

/-- Whatever an operation ends in, it was reached by reading, and storing, advancing and raising write the RIN. -/
theorem RinOnly.of_outcome {a : Extract} {s : State} {r : Outgoing} (h : OpOutcome a s r) : RinOnly s (settle r) := by
  cases h with
  | skipped reads _ => exact (RinOnly.of_reads reads).trans rfl
  | stored v reads => exact (RinOnly.of_reads reads).trans rfl
  | failed code aux reads _ => exact (RinOnly.of_reads reads).trans rfl

/-! ## A decoded recipe holds EXTRACT operations only -/

/-- An operation of a recipe (R100, R101): the operands of `exec_extract`. -/
def IsExtract (i : Instr) : Prop := ∃ ty a, i = .extract ty a

/-- What a step of a decoder has answered where the rest of the decoder answers. -/
theorem bind_eq_ok {ε α β : Type} {x : Except ε α} {f : α → Except ε β} {b : β} (h : x >>= f = .ok b) :
    ∃ a, x = .ok a ∧ f a = .ok b := by
  cases x with
  | error e => cases h
  | ok a => exact ⟨a, rfl, h⟩

theorem decodeRecord_extract {d : Nat} {bs rest : List Byte} {i : Instr} (h : decodeRecord d bs = .ok (i, rest)) :
    IsExtract i := by
  obtain ⟨_, -, h⟩ := bind_eq_ok h
  obtain ⟨ty, -, h⟩ := bind_eq_ok h
  obtain ⟨_, -, h⟩ := bind_eq_ok h
  obtain ⟨_, -, h⟩ := bind_eq_ok h
  obtain ⟨_, -, h⟩ := bind_eq_ok h
  obtain ⟨_, -, h⟩ := bind_eq_ok h
  obtain ⟨_, -, h⟩ := bind_eq_ok h
  obtain ⟨_, -, h⟩ := bind_eq_ok h
  cases h
  exact ⟨ty, _, rfl⟩

theorem decodeRecords_extract {d n : Nat} {bs rest : List Byte} {is : List Instr}
    (h : decodeRecords d n bs = .ok (is, rest)) : ∀ i ∈ is, IsExtract i := by
  induction n generalizing bs rest is with
  | zero =>
    cases h
    simp
  | succ n ih =>
    obtain ⟨_, hfirst, h⟩ := bind_eq_ok h
    obtain ⟨_, hmore, h⟩ := bind_eq_ok h
    cases h
    exact List.forall_mem_cons.mpr ⟨decodeRecord_extract hfirst, ih hmore⟩

theorem decodeImage_extract {d : Nat} {image : List Byte} {recipe : List Instr}
    (h : decodeImage d image = .ok recipe) : ∀ i ∈ recipe, IsExtract i := by
  obtain ⟨_, -, h⟩ := bind_eq_ok h
  obtain ⟨_, hrecords, h⟩ := bind_eq_ok h
  dsimp only at h
  split at h
  · cases h
    exact decodeRecords_extract hrecords
  · cases h

/-! ## DECODE -/

theorem rinRun_rinOnly {is : List Instr} {s t : State} (his : ∀ i ∈ is, IsExtract i)
    (h : rinRun is s = .next t) : RinOnly s t := by
  induction is generalizing s with
  | nil =>
    cases h
    rfl
  | cons i is ih =>
    obtain ⟨⟨ty, a, rfl⟩, hrest⟩ := List.forall_mem_cons.mp his
    have hop := RinOnly.of_outcome (rinOp_outcome ty a s)
    simp only [rinRun, exec_extract] at h
    split at h
    · exact hop.trans (ih hrest h)
    · cases h
      exact hop

theorem cmdDecode_rinOnly {bank : Bank} {s t : State} (h : cmdDecode bank s = .next t) : RinOnly s t := by
  unfold cmdDecode at h
  split at h
  · cases h
  · dsimp only at h
    split at h
    · cases h
      rfl
    · split at h
      · cases h
        rfl
      next hrecipe =>
        have hstart : RinOnly s (rinStart bank (rinAccept bank s)) := rfl
        exact hstart.trans (rinRun_rinOnly (decodeImage_extract hrecipe) h)

/-! ## After the end of the stream -/

theorem hostCommand_send_done {s : State} (hdone : s.status.runState = .done) (sym : InSymbol) :
    hostCommand (.send sym) s = .refused .sendAfterEnd := by
  simp only [hostCommand, cmdSend, hdone]

theorem hostCommand_send_error {s : State} (herr : s.status.runState = .error) (sym : InSymbol) :
    hostCommand (.send sym) s = .refused .sendAfterError := by
  simp only [hostCommand, cmdSend, herr]

theorem hostCommand_send_unconfigured {s : State} (hrun : s.status.runState = .running) (hcfg : s.cfg.valid ≠ 7)
    (sym : InSymbol) : hostCommand (.send sym) s = .refused .sendBeforeConfig := by
  simp only [hostCommand, cmdSend, hrun, if_pos hcfg]

/-- Outside RUNNING a SEND has no next state. -/
theorem hostCommand_send_not_next {s t : State} (hend : s.status.runState ≠ .running) (sym : InSymbol) :
    hostCommand (.send sym) s ≠ .next t := by
  cases hrun : s.status.runState with
  | running => exact absurd hrun hend
  | done => simp [hostCommand_send_done hrun]
  | error => simp [hostCommand_send_error hrun]

/-- The CFG registers, RTAB and the host's side are none of the stream pipeline's. -/
theorem sameStream_settings (s : State) (c : Cfg) (r : FinMap (List Byte)) (p : HostPort) :
    sameStream s { s with cfg := c, rtab := r, host := p } := ⟨rfl, rfl, rfl, rfl, rfl, rfl, rfl⟩

/-- A register write changes the CFG registers at most. -/
theorem csrStore_eq (n : Nat) (v : BitVec 32) (s : State) :
    csrStore n v s = { s with cfg := (csrStore n v s).cfg } := by
  unfold csrStore
  split_ifs <;> rfl

/-- Once the stream has ended, RESET is the only command that reaches the stream pipeline (R21, R28, R279). -/
theorem hostCommand_sameStream {c : HostCmd} {s t : State} (hend : s.status.runState ≠ .running) (hc : c ≠ .reset)
    (h : hostCommand c s = .next t) : sameStream s t := by
  cases c with
  | send sym => exact absurd h (hostCommand_send_not_next hend sym)
  | csrRead n =>
    cases h
    exact sameStream_settings ..
  | csrWrite n v =>
    simp only [hostCommand, cmdCsrWrite] at h
    split at h
    · cases h
    · cases h
      rw [csrStore_eq]
      exact sameStream_settings ..
  | rtabWrite id image =>
    simp only [hostCommand, cmdRtabWrite] at h
    split at h
    · cases h
    · split at h <;> cases h
      exact sameStream_settings ..
  | rtabClear id =>
    simp only [hostCommand, cmdRtabClear] at h
    split at h <;> cases h
    exact sameStream_settings ..
  | decode bank => exact (cmdDecode_rinOnly h).sameStream
  | reset => exact absurd rfl hc

/-- Outside RUNNING a step performs the host's next command, if there is one (R292). -/
theorem step_of_not_running {s t : State} (hend : s.status.runState ≠ .running) (h : step s = .next t) :
    t = s ∨ ∃ c rest, s.host.todo = c :: rest ∧
      hostCommand c { s with host := { s.host with todo := rest } } = .next t := by
  have hnext : nextAction s = .next t := h
  rw [nextAction, if_neg fun hrel => hend hrel.1] at hnext
  split at hnext
  · cases hnext
    exact .inl rfl
  next c rest htodo => exact .inr ⟨c, rest, htodo, hnext⟩

theorem step_sameStream_of_not_running {s t : State} (hend : s.status.runState ≠ .running) (hreset : noReset s)
    (h : step s = .next t) : sameStream s t := by
  obtain rfl | ⟨c, rest, htodo, hcmd⟩ := step_of_not_running hend h
  · exact sameStream_settings ..
  · have hc : c ≠ .reset := by
      rintro rfl
      simp [noReset, htodo] at hreset
    exact hostCommand_sameStream (s := { s with host := { s.host with todo := rest } }) hend hc hcmd

/-- Settles O16: each refusal is SEND's own check, and outside RUNNING only RESET writes the stream's status. -/
theorem sendRefused : Obligations.SendRefused := by
  unfold Obligations.SendRefused
  intro sym s
  refine ⟨fun hdone => hostCommand_send_done hdone sym, fun herr => hostCommand_send_error herr sym,
    fun hrun hcfg => hostCommand_send_unconfigured hrun hcfg sym, fun t hend hreset hstep => ?_⟩
  obtain ⟨hstatus, -⟩ := step_sameStream_of_not_running hend hreset hstep
  rw [hstatus]

/-! ## CSR_WRITE -/

theorem isCfgRegister_iff {n : Nat} : isCfgRegister n = true ↔ n < 3 := by
  simp only [isCfgRegister, Bool.or_eq_true, decide_eq_true_eq]
  omega

/-- Before the stream starts a register write is never refused. -/
theorem hostCommand_csrWrite_of_not_started {s : State} (hstart : s.status.started = false) (n : Nat) (v : BitVec 32) :
    hostCommand (.csrWrite n v) s = .next (csrStore n v s) := by
  simp [hostCommand, cmdCsrWrite, hstart]

/-- A CFG register keeps its value once the stream has started (R43). -/
theorem hostCommand_csrWrite_of_started {s : State} (hstart : s.status.started = true) {n : Nat} (hn : n < 3)
    (v : BitVec 32) : hostCommand (.csrWrite n v) s = .refused .cfgWriteAfterStart := by
  simp [hostCommand, cmdCsrWrite, hstart, isCfgRegister_iff.mpr hn]

/-- The registers after the three CFG registers ignore writes (R42). -/
theorem hostCommand_csrWrite_of_not_cfg {n : Nat} (hn : 3 ≤ n) (v : BitVec 32) (s : State) :
    hostCommand (.csrWrite n v) s = .next s := by
  have hcfg : ¬ isCfgRegister n = true := fun h => absurd (isCfgRegister_iff.mp h) (by omega)
  have hstore : csrStore n v s = s := by
    rw [csrStore, if_neg (by omega), if_neg (by omega), if_neg (by omega)]
  simp [hostCommand, cmdCsrWrite, hcfg, hstore]

/-- Settles O48: before the start `csrStore` at each of the three numbers, after it the refusal, and 3 is the first
number that is no CFG register. -/
theorem registersWritten : Obligations.RegistersWritten := by
  unfold Obligations.RegistersWritten
  intro v s
  refine ⟨fun hstart => ?_, fun hstart n hn => hostCommand_csrWrite_of_started hstart hn v,
    fun n hn => hostCommand_csrWrite_of_not_cfg hn v s⟩
  have hwrite := fun n => hostCommand_csrWrite_of_not_started hstart n v
  exact ⟨hwrite 0x00, hwrite 0x01, hwrite 0x02⟩

/-! ## RESET -/

theorem hostCommand_reset (s : State) : hostCommand .reset s = .next (resetBlock s) := rfl

/-- Settles O51: RESET has no precondition, and `resetBlock` takes every element that it does not keep from the state
after power-on. -/
theorem resetRestores : Obligations.ResetRestores := by
  unfold Obligations.ResetRestores
  intro s
  exact ⟨State.reset.bfv.buf, State.reset.rin.bankId, State.reset.rin.val, hostCommand_reset s⟩

end Sys2Proof.HostCommands
end

section
/-! PROOFS. The three levels of encoding (`30_encoding.md`): each decoder accepts exactly the encodings of what is
well-formed at its level, so that decoding and encoding are inverse to each other. -/

namespace Sys2Proof.Encoding

open Machine ByteOrder CarrierBytes Claims

/-! ## Sequencing decoders -/

/-- A sequence of two decoders answers exactly when both do. -/
theorem bind_eq_ok_iff {ε α β : Type} {x : Except ε α} {f : α → Except ε β} {b : β} :
    x >>= f = .ok b ↔ ∃ a, x = .ok a ∧ f a = .ok b :=
  ⟨HostCommands.bind_eq_ok, fun ⟨a, hx, hf⟩ => by rw [hx]; exact hf⟩

theorem pure_eq_ok_iff {ε α : Type} {a b : α} : (pure a : Except ε α) = .ok b ↔ a = b :=
  Except.ok.injEq a b ▸ Iff.rfl

/-! ## Fields -/

theorem takeByte_ok_iff {bs rest : List Byte} {b : Byte} : takeByte bs = .ok (b, rest) ↔ bs = b :: rest := by
  cases bs <;> simp [takeByte]

theorem takeBytes_ok_iff {n : Nat} {bs f rest : List Byte} :
    takeBytes n bs = .ok (f, rest) ↔ f.length = n ∧ bs = f ++ rest :=
  ⟨takeBytes_ok, fun ⟨hlen, hbs⟩ => hbs ▸ takeBytes_append hlen rest⟩

/-- The bytes of a field are those of the word they are read as. -/
theorem eq_leBytes_of_length {n w : Nat} (hw : 256 ^ n = 2 ^ w) {f : List Byte} (hlen : f.length = n) :
    f = leBytes n (BitVec.ofNat w (leNat f)).toNat := by
  subst hlen
  rw [BitVec.toNat_ofNat, Nat.mod_eq_of_lt (hw ▸ leNat_lt f), leBytes_leNat]

theorem takeU16_ok_iff {bs rest : List Byte} {v : BitVec 16} : takeU16 bs = .ok (v, rest) ↔ bs = le16 v ++ rest := by
  refine ⟨?_, fun h => h ▸ takeU16_le16 v rest⟩
  simp only [takeU16, bind_eq_ok_iff, Prod.exists, takeBytes_ok_iff, pure_eq_ok_iff, Prod.mk.injEq]
  rintro ⟨f, _, ⟨hlen, rfl⟩, rfl, rfl⟩
  exact congrArg (· ++ _) (eq_leBytes_of_length rfl hlen)

theorem takeU32_ok_iff {bs rest : List Byte} {v : BitVec 32} : takeU32 bs = .ok (v, rest) ↔ bs = le32 v ++ rest := by
  refine ⟨?_, fun h => h ▸ takeU32_le32 v rest⟩
  simp only [takeU32, bind_eq_ok_iff, Prod.exists, takeBytes_ok_iff, pure_eq_ok_iff, Prod.mk.injEq]
  rintro ⟨f, _, ⟨hlen, rfl⟩, rfl, rfl⟩
  exact congrArg (· ++ _) (eq_leBytes_of_length rfl hlen)

/-- A length that four bytes can hold is written as the word of that value. -/
theorem encodeSegment_eq {seg : List Byte} (hlen : seg.length < 4294967296) :
    encodeSegment seg = le32 (BitVec.ofNat 32 seg.length) ++ seg := by
  rw [encodeSegment, le32, BitVec.toNat_ofNat, Nat.mod_eq_of_lt hlen]

theorem takeSegment_ok_iff {bs seg rest : List Byte} :
    takeSegment bs = .ok (seg, rest) ↔ seg.length < 4294967296 ∧ bs = encodeSegment seg ++ rest := by
  simp only [takeSegment, bind_eq_ok_iff, Prod.exists, takeU32_ok_iff, takeBytes_ok_iff]
  constructor
  · rintro ⟨len, _, rfl, hlen, rfl⟩
    have hlt : seg.length < 4294967296 := hlen ▸ len.isLt
    refine ⟨hlt, ?_⟩
    rw [encodeSegment_eq hlt, hlen, BitVec.ofNat_toNat, BitVec.setWidth_eq, List.append_assoc]
  · rintro ⟨hlt, rfl⟩
    refine ⟨BitVec.ofNat 32 seg.length, seg ++ rest, ?_, ?_, rfl⟩
    · rw [encodeSegment_eq hlt, List.append_assoc]
    · rw [BitVec.toNat_ofNat, Nat.mod_eq_of_lt hlt]

/-! ## Literals -/

theorem literalFits_iff {n : Int} : literalFits n = true ↔ -9223372036854775808 ≤ n ∧ n < 9223372036854775808 := by
  simp [literalFits]

@[simp] theorem sle64_length (n : Int) : (sle64 n).length = 8 := leBytes_length 8 _

theorem leNat_sle64 (n : Int) : leNat (sle64 n) = (n % 18446744073709551616).toNat :=
  leNat_leBytes_of_lt (by omega)

/-- A literal in the signed 64-bit range is read back from its eight bytes (R107). -/
theorem sleInt_sle64 {n : Int} (h : literalFits n = true) : sleInt (sle64 n) = n := by
  obtain ⟨hlow, hhigh⟩ := literalFits_iff.mp h
  rw [sleInt_eq (List.ne_nil_of_length_pos (by simp)), leNat_sle64, sle64_length]
  split <;> omega

/-- Eight bytes are those of the literal they are read as, which is in range. -/
theorem sle64_sleInt {f : List Byte} (hlen : f.length = 8) : sle64 (sleInt f) = f ∧ literalFits (sleInt f) = true := by
  have hlt : leNat f < 18446744073709551616 := (leNat_lt f).trans_eq (by rw [hlen]; rfl)
  have hsle : sleInt f = if 2 * leNat f < 18446744073709551616 then (leNat f : Int)
      else leNat f - 18446744073709551616 := by
    rw [sleInt_eq (List.ne_nil_of_length_pos (by omega)), hlen]
    rfl
  have hmod : (sleInt f % 18446744073709551616).toNat = leNat f := by
    rw [hsle]
    split <;> omega
  constructor
  · rw [sle64, hmod]
    exact hlen ▸ leBytes_leNat f
  · rw [literalFits_iff, hsle]
    split <;> omega

/-! ## Expressions -/

/-- What an expression must meet to be encoded under a depth bound (R104, R107). -/
def Fits (maxDepth : Nat) (e : Expr) : Prop := e.depth ≤ maxDepth ∧ e.literalsFit = true

theorem check_eq_none_iff {d : Nat} {e : Expr} : e.check d = none ↔ Fits d e := by
  simp only [Expr.check, Fits]
  split_ifs <;> simp_all

theorem not_fits_zero (e : Expr) : ¬ Fits 0 e := by
  rintro ⟨hdepth, -⟩
  cases e <;> simp [Expr.depth] at hdepth

theorem fits_lit_iff {d : Nat} {n : Int} : Fits (d + 1) (.lit n) ↔ literalFits n = true := by
  simp [Fits, Expr.depth, Expr.literalsFit]

theorem fits_ref (d : Nat) (sym : Sym) : Fits (d + 1) (.ref sym) := by
  simp [Fits, Expr.depth, Expr.literalsFit]

theorem fits_cmp_iff {d : Nat} {op : CmpOp} {l r : Expr} : Fits (d + 1) (.cmp op l r) ↔ Fits d l ∧ Fits d r := by
  simp only [Fits, Expr.depth, Expr.literalsFit, Bool.and_eq_true]
  constructor
  · rintro ⟨hdepth, hl, hr⟩
    exact ⟨⟨by omega, hl⟩, by omega, hr⟩
  · rintro ⟨⟨hdl, hl⟩, hdr, hr⟩
    exact ⟨by omega, hl, hr⟩

/-- The tags of the comparisons are six bytes of their own, none of them a tag of LIT or REF (R104). -/
theorem decodeCmp_encodeCmp (op : CmpOp) : decodeCmp (encodeCmp op) = some op := by
  cases op <;> rfl

theorem encodeCmp_ne_lit_ref (op : CmpOp) : encodeCmp op ≠ 0x01 ∧ encodeCmp op ≠ 0x02 := by
  cases op <;> decide

theorem eq_encodeCmp_of_decodeCmp {tag : Byte} {op : CmpOp} (h : decodeCmp tag = some op) : tag = encodeCmp op := by
  unfold decodeCmp at h
  split_ifs at h <;> cases h <;> assumption

theorem decodeExpr_encodeExpr {d : Nat} {e : Expr} (h : Fits d e) (rest : List Byte) :
    decodeExpr d (encodeExpr e ++ rest) = .ok (e, rest) := by
  induction e generalizing d rest with
  | lit n =>
    cases d with
    | zero => exact absurd h (not_fits_zero _)
    | succ d =>
      have htake := takeBytes_append (sle64_length n) rest
      simp only [encodeExpr, List.cons_append, decodeExpr, takeByte, bind, Except.bind, if_true, htake, pure,
        Except.pure, sleInt_sle64 (fits_lit_iff.mp h)]
  | ref sym =>
    cases d with
    | zero => exact absurd h (not_fits_zero _)
    | succ d =>
      have htag : (0x02 : Byte) ≠ 0x01 := by decide
      simp only [encodeExpr, List.cons_append, decodeExpr, takeByte, bind, Except.bind, if_true, htag, if_false,
        takeU16_le16, pure, Except.pure]
  | cmp op l r ihl ihr =>
    cases d with
    | zero => exact absurd h (not_fits_zero _)
    | succ d =>
      obtain ⟨hl, hr⟩ := fits_cmp_iff.mp h
      obtain ⟨hlit, href⟩ := encodeCmp_ne_lit_ref op
      simp only [encodeExpr, List.cons_append, List.append_assoc, decodeExpr, takeByte, bind, Except.bind, hlit, href,
        if_false, decodeCmp_encodeCmp, ihl hl, ihr hr, pure, Except.pure]

theorem decodeExpr_ok {d : Nat} {bs rest : List Byte} {e : Expr} (h : decodeExpr d bs = .ok (e, rest)) :
    Fits d e ∧ bs = encodeExpr e ++ rest := by
  induction d generalizing bs rest e with
  | zero => cases h
  | succ d ih =>
    simp only [decodeExpr, bind_eq_ok_iff, Prod.exists, takeByte_ok_iff] at h
    obtain ⟨tag, args, rfl, h⟩ := h
    split at h
    next hlit =>
      simp only [bind_eq_ok_iff, Prod.exists, takeBytes_ok_iff, pure_eq_ok_iff, Prod.mk.injEq] at h
      obtain ⟨f, _, ⟨hlen, rfl⟩, rfl, rfl⟩ := h
      obtain ⟨hbytes, hfits⟩ := sle64_sleInt hlen
      rw [hlit, encodeExpr, hbytes]
      exact ⟨fits_lit_iff.mpr hfits, rfl⟩
    next =>
      split at h
      next href =>
        simp only [bind_eq_ok_iff, Prod.exists, takeU16_ok_iff, pure_eq_ok_iff, Prod.mk.injEq] at h
        obtain ⟨sym, _, rfl, rfl, rfl⟩ := h
        rw [href]
        exact ⟨fits_ref d sym, rfl⟩
      next =>
        split at h
        next op hop =>
          simp only [bind_eq_ok_iff, Prod.exists, pure_eq_ok_iff, Prod.mk.injEq] at h
          obtain ⟨l, _, hl, r, _, hr, rfl, rfl⟩ := h
          obtain ⟨hfl, rfl⟩ := ih hl
          obtain ⟨hfr, rfl⟩ := ih hr
          rw [eq_encodeCmp_of_decodeCmp hop, encodeExpr, List.cons_append, List.append_assoc]
          exact ⟨fits_cmp_iff.mpr ⟨hfl, hfr⟩, rfl⟩
        next => cases h

theorem decodeExpr_ok_iff {d : Nat} {bs rest : List Byte} {e : Expr} :
    decodeExpr d bs = .ok (e, rest) ↔ Fits d e ∧ bs = encodeExpr e ++ rest :=
  ⟨decodeExpr_ok, fun ⟨hfits, hbs⟩ => hbs ▸ decodeExpr_encodeExpr hfits rest⟩

/-! ## Records -/

/-- An expression that is present exactly when its FLAGS bit says so. -/
theorem decodeOptExpr_ok_iff {d : Nat} {present : Bool} {bs rest : List Byte} {o : Option Expr} :
    decodeOptExpr d present bs = .ok (o, rest) ↔
      o.isSome = present ∧ (∀ e ∈ o, Fits d e) ∧ bs = encodeOptExpr o ++ rest := by
  cases present with
  | false => cases o <;> simp [decodeOptExpr, encodeOptExpr]
  | true =>
    simp only [decodeOptExpr, bind_eq_ok_iff, Prod.exists, decodeExpr_ok_iff, pure_eq_ok_iff, Prod.mk.injEq]
    cases o <;> simp [encodeOptExpr]

/-- The bit `G` of a record: it has a loop, and the loop a guard (R103). -/
def guarded (o : Option Loop) : Bool := o.any fun l => l.guard.isSome

/-- The expressions of a loop descriptor fit. -/
def LoopFits (d : Nat) (l : Loop) : Prop := Fits d l.bound ∧ ∀ e ∈ l.guard, Fits d e

theorem decodeLoop_ok_iff {d : Nat} {present g : Bool} {bs rest : List Byte} {o : Option Loop}
    (hg : g = true → present = true) :
    decodeLoop d present g bs = .ok (o, rest) ↔
      (o.isSome = present ∧ guarded o = g) ∧ (∀ l ∈ o, LoopFits d l) ∧ bs = encodeLoop o ++ rest := by
  cases present with
  | false =>
    obtain rfl : g = false := by simpa using hg
    cases o <;> simp [decodeLoop, encodeLoop, guarded]
  | true =>
    simp only [decodeLoop, bind_eq_ok_iff, Prod.exists, takeU16_ok_iff, decodeExpr_ok_iff, decodeOptExpr_ok_iff,
      pure_eq_ok_iff, Prod.mk.injEq]
    constructor
    · rintro ⟨var, _, rfl, bound, _, ⟨hbound, rfl⟩, guard, _, ⟨hpresent, hguard, rfl⟩, rfl, rfl⟩
      simpa [guarded, LoopFits, encodeLoop, hpresent, hbound] using hguard
    · cases o with
      | none => simp
      | some l =>
        rintro ⟨⟨-, hpresent⟩, hfits, rfl⟩
        obtain ⟨hbound, hguard⟩ := hfits l rfl
        exact ⟨l.var, _, by simp [encodeLoop], l.bound, _, ⟨hbound, rfl⟩, l.guard, rest, ⟨hpresent, hguard, rfl⟩,
          rfl, rfl⟩

/-- The FLAGS byte of three presence bits. -/
def flagsOf (c l g : Bool) : Byte := (if c then 1 else 0) ||| (if l then 2 else 0) ||| (if g then 4 else 0)

theorem encodeFlags_eq (a : Extract) : encodeFlags a = flagsOf a.cond.isSome a.loop.isSome (guarded a.loop) := by
  obtain ⟨field, cond, _ | l, count⟩ := a
  · simp [encodeFlags, flagsOf, guarded]
  · rfl

theorem decodeFlags_flagsOf {c l g : Bool} (hg : g = true → l = true) :
    decodeFlags (flagsOf c l g) = .ok (c, l, g) := by
  cases g with
  | false => cases c <;> cases l <;> rfl
  | true =>
    obtain rfl := hg rfl
    cases c <;> rfl

/-- The legal FLAGS bytes are those of the presence bits in which a guard comes with a loop (R103). -/
theorem decodeFlags_ok_iff_flagsOf {b : Byte} {c l g : Bool} :
    decodeFlags b = .ok (c, l, g) ↔ (g = true → l = true) ∧ b = flagsOf c l g := by
  constructor
  · intro h
    obtain ⟨hlegal, hbits⟩ := decodeFlags_ok_iff.mp h
    cases hbits
    exact ⟨hlegal.2, by rcases (flags_legal_iff b).mp hlegal with rfl | rfl | rfl | rfl | rfl | rfl <;> rfl⟩
  · rintro ⟨hg, rfl⟩
    exact decodeFlags_flagsOf hg

/-- Every expression of a record fits. -/
def RecordFits (d : Nat) (a : Extract) : Prop := ∀ e ∈ a.exprs, Fits d e

theorem recordFits_iff {d : Nat} {a : Extract} :
    RecordFits d a ↔ (∀ e ∈ a.cond, Fits d e) ∧ (∀ l ∈ a.loop, LoopFits d l) ∧ Fits d a.count := by
  obtain ⟨field, cond, _ | l, count⟩ := a <;>
    simp [RecordFits, Extract.exprs, LoopFits, or_imp, forall_and, and_assoc]

theorem guarded_imp_isSome (o : Option Loop) : guarded o = true → o.isSome = true := by
  cases o <;> simp [guarded]

theorem decodeRecord_ok_iff {d : Nat} {bs rest : List Byte} {i : Instr} :
    decodeRecord d bs = .ok (i, rest) ↔
      ∃ ty a, i = .extract ty a ∧ RecordFits d a ∧ bs = encodeRecord ty a ++ rest := by
  simp only [decodeRecord, bind_eq_ok_iff, Prod.exists, takeByte_ok_iff, decodeType_ok_iff, decodeFlags_ok_iff_flagsOf,
    takeU16_ok_iff, decodeOptExpr_ok_iff, decodeExpr_ok_iff, pure_eq_ok_iff, Prod.mk.injEq]
  constructor
  · rintro ⟨_, _, rfl, ty, rfl, _, _, rfl, c, l, g, ⟨hg, rfl⟩, field, _, rfl, cond, _, ⟨rfl, hcond, rfl⟩,
      loop, r4, hloop, count, _, ⟨hcount, rfl⟩, rfl, rfl⟩
    obtain ⟨⟨rfl, rfl⟩, hfits, rfl⟩ := (decodeLoop_ok_iff hg).mp hloop
    exact ⟨ty, _, rfl, recordFits_iff.mpr ⟨hcond, hfits, hcount⟩, by simp [encodeRecord, encodeFlags_eq]⟩
  · rintro ⟨ty, a, rfl, hfits, rfl⟩
    obtain ⟨hcond, hloop, hcount⟩ := recordFits_iff.mp hfits
    have hg := guarded_imp_isSome a.loop
    exact ⟨_, _, rfl, ty, rfl, _, _, rfl, _, _, _, ⟨hg, encodeFlags_eq a⟩, a.field, _, by simp, a.cond, _,
      ⟨rfl, hcond, rfl⟩, a.loop, _, (decodeLoop_ok_iff hg).mpr ⟨⟨rfl, rfl⟩, hloop, rfl⟩, a.count, rest,
      ⟨hcount, rfl⟩, rfl, rfl⟩

/-! ## Instructions by level -/

theorem level_extract (ty : ExtractType) (a : Extract) : (Instr.extract ty a).level = .record := by
  cases ty <;> rfl

theorem encode_extract (ty : ExtractType) (a : Extract) : encode (.extract ty a) = encodeRecord ty a := by
  cases ty <;> rfl

theorem check_extract (d : Nat) (ty : ExtractType) (a : Extract) :
    (Instr.extract ty a).check d = a.exprs.findSome? (Expr.check d) := by
  cases ty <;> rfl

theorem wf_iff {d : Nat} {i : Instr} : i.wf d = true ↔ i.check d = none := Option.isNone_iff_eq_none

theorem wf_extract_iff {d : Nat} {ty : ExtractType} {a : Extract} :
    (Instr.extract ty a).wf d = true ↔ RecordFits d a := by
  simp only [wf_iff, check_extract, List.findSome?_eq_none_iff, check_eq_none_iff, RecordFits]

theorem exists_extract_of_level {i : Instr} (h : i.level = .record) : ∃ ty a, i = .extract ty a := by
  cases i
  case extractU16 a => exact ⟨.u16, a, rfl⟩
  case extractU16U32 a => exact ⟨.u16u32, a, rfl⟩
  case extractU16U64 a => exact ⟨.u16u64, a, rfl⟩
  case extractU32 a => exact ⟨.u32, a, rfl⟩
  case extractU32U64 a => exact ⟨.u32u64, a, rfl⟩
  case extractU64 a => exact ⟨.u64, a, rfl⟩
  case extractS16 a => exact ⟨.s16, a, rfl⟩
  case extractS16S32 a => exact ⟨.s16s32, a, rfl⟩
  case extractS16S64 a => exact ⟨.s16s64, a, rfl⟩
  case extractS32 a => exact ⟨.s32, a, rfl⟩
  case extractS32S64 a => exact ⟨.s32s64, a, rfl⟩
  case extractS64 a => exact ⟨.s64, a, rfl⟩
  case extractF32 a => exact ⟨.f32, a, rfl⟩
  case extractF32F64 a => exact ⟨.f32f64, a, rfl⟩
  case extractF64 a => exact ⟨.f64, a, rfl⟩
  all_goals cases h

theorem level_ofExpr (e : Expr) : (Instr.ofExpr e).level = .node := by
  rcases e with n | sym | ⟨_ | _ | _ | _ | _ | _, l, r⟩ <;> rfl

theorem encode_ofExpr (e : Expr) : encode (.ofExpr e) = encodeExpr e := by
  rcases e with n | sym | ⟨_ | _ | _ | _ | _ | _, l, r⟩ <;> rfl

theorem check_ofExpr (d : Nat) (e : Expr) : (Instr.ofExpr e).check d = e.check d := by
  rcases e with n | sym | ⟨_ | _ | _ | _ | _ | _, l, r⟩ <;> rfl

theorem wf_ofExpr_iff {d : Nat} {e : Expr} : (Instr.ofExpr e).wf d = true ↔ Fits d e := by
  rw [wf_iff, check_ofExpr, check_eq_none_iff]

theorem exists_ofExpr_of_level {i : Instr} (h : i.level = .node) : ∃ e, i = .ofExpr e := by
  cases i
  case lit n => exact ⟨.lit n, rfl⟩
  case ref sym => exact ⟨.ref sym, rfl⟩
  case eq l r => exact ⟨.cmp .eq l r, rfl⟩
  case ne l r => exact ⟨.cmp .ne l r, rfl⟩
  case lt l r => exact ⟨.cmp .lt l r, rfl⟩
  case le l r => exact ⟨.cmp .le l r, rfl⟩
  case gt l r => exact ⟨.cmp .gt l r, rfl⟩
  case ge l r => exact ⟨.cmp .ge l r, rfl⟩
  all_goals cases h

/-! ## Symbols -/

/-- The code of a known verb (R86). -/
def verbCode : Verb → Byte
  | .startBlock => 0x61
  | .endBlockLogical => 0x62
  | .endBlockPhysical => 0x63
  | .filler => 0x64
  | .startBank => 0x07
  | .continueBank => 0x08
  | .toBeContd => 0x0F
  | .endBank => 0x0E
  | .unknown => 0x00

/-- A verb byte selects a verb of the closed set by its code, or it is unknown and not one of the codes (R92). -/
theorem decodeVerb_cases (v : Byte) :
    (decodeVerb v = .unknown ∧ v ∉ knownVerbs) ∨ (decodeVerb v ≠ .unknown ∧ v = verbCode (decodeVerb v)) := by
  unfold decodeVerb
  split_ifs <;> simp_all [verbCode, knownVerbs]

theorem eq_verbCode {v : Byte} {w : Verb} (h : decodeVerb v = w) (hw : w ≠ .unknown) : v = verbCode w := by
  subst h
  rcases decodeVerb_cases v with ⟨h, -⟩ | ⟨-, h⟩
  · exact absurd h hw
  · exact h

theorem not_known_of_decodeVerb {v : Byte} (h : decodeVerb v = .unknown) : v ∉ knownVerbs := by
  rcases decodeVerb_cases v with ⟨-, hv⟩ | ⟨hne, -⟩
  · exact hv
  · exact absurd h hne

/-- What an accepted verb frame is: OPCODE before it makes it the encoding of a well-formed symbol (R83, R86). -/
theorem decodeVerbFrame_ok {d : Nat} {bs rest : List Byte} {i : Instr} (h : decodeVerbFrame bs = .ok (i, rest)) :
    i.wf d = true ∧ i.level = .symbol ∧ encode i ++ rest = 0x60 :: bs := by
  simp only [decodeVerbFrame, bind_eq_ok_iff, Prod.exists, takeByte_ok_iff] at h
  obtain ⟨v, args, rfl, h⟩ := h
  split at h
  case h_1 hv =>
    simp only [bind_eq_ok_iff, Prod.exists, takeU32_ok_iff, pure_eq_ok_iff, Prod.mk.injEq] at h
    obtain ⟨n, _, rfl, rfl, rfl⟩ := h
    rw [eq_verbCode hv (by decide)]
    exact ⟨rfl, rfl, rfl⟩
  case h_5 hv =>
    simp only [bind_eq_ok_iff, Prod.exists, takeSegment_ok_iff, pure_eq_ok_iff, Prod.mk.injEq] at h
    obtain ⟨seg, _, ⟨hlen, rfl⟩, rfl, rfl⟩ := h
    rw [eq_verbCode hv (by decide)]
    exact ⟨wf_iff.mpr (if_pos hlen), rfl, rfl⟩
  case h_6 hv =>
    simp only [bind_eq_ok_iff, Prod.exists, takeSegment_ok_iff, pure_eq_ok_iff, Prod.mk.injEq] at h
    obtain ⟨seg, _, ⟨hlen, rfl⟩, rfl, rfl⟩ := h
    rw [eq_verbCode hv (by decide)]
    exact ⟨wf_iff.mpr (if_pos hlen), rfl, rfl⟩
  case h_7 hv =>
    simp only [bind_eq_ok_iff, Prod.exists, takeU16_ok_iff, pure_eq_ok_iff, Prod.mk.injEq] at h
    obtain ⟨crc, _, rfl, rsvd, _, rfl, rfl, rfl⟩ := h
    rw [eq_verbCode hv (by decide)]
    exact ⟨rfl, rfl, by simp [encode, verbCode]⟩
  case h_8 hv =>
    simp only [bind_eq_ok_iff, Prod.exists, takeByte_ok_iff, pure_eq_ok_iff, Prod.mk.injEq] at h
    obtain ⟨x0, _, rfl, x1, _, rfl, x2, _, rfl, x3, _, rfl, x4, _, rfl, rfl, rfl⟩ := h
    rw [eq_verbCode hv (by decide)]
    exact ⟨rfl, rfl, rfl⟩
  case h_9 hv =>
    cases h
    exact ⟨wf_iff.mpr (if_neg (not_known_of_decodeVerb hv)), rfl, rfl⟩
  all_goals
    rename_i hv
    cases h
    rw [eq_verbCode hv (by decide)]
    exact ⟨rfl, rfl, rfl⟩

theorem decodeSymbol_ok {d : Nat} {bs rest : List Byte} {i : Instr} (h : decodeSymbol bs = .ok (i, rest)) :
    i.wf d = true ∧ i.level = .symbol ∧ encode i ++ rest = bs := by
  simp only [decodeSymbol, bind_eq_ok_iff, Prod.exists, takeByte_ok_iff] at h
  obtain ⟨b, args, rfl, h⟩ := h
  split at h
  next hop =>
    rw [hop]
    exact decodeVerbFrame_ok h
  next hop =>
    cases h
    exact ⟨wf_iff.mpr (if_neg hop), rfl, rfl⟩

theorem takeSegment_encodeSegment {d : Nat} {seg : List Byte} (h : (Instr.startBank seg).wf d = true)
    (rest : List Byte) : takeSegment (encodeSegment seg ++ rest) = .ok (seg, rest) := by
  refine takeSegment_ok_iff.mpr ⟨?_, rfl⟩
  by_contra hlen
  simp [wf_iff, Instr.check, hlen] at h

theorem decodeSymbol_encode {d : Nat} {i : Instr} (hl : i.level = .symbol) (hwf : i.wf d = true) (rest : List Byte) :
    decodeSymbol (encode i ++ rest) = .ok (i, rest) := by
  cases i
  case startBlock n =>
    show (takeU32 (le32 n ++ rest) >>= fun r => pure (Instr.startBlock r.1, r.2)) = _
    rw [takeU32_le32]
    rfl
  case startBank seg =>
    show (takeSegment (encodeSegment seg ++ rest) >>= fun r => pure (Instr.startBank r.1, r.2)) = _
    rw [takeSegment_encodeSegment hwf]
    rfl
  case continueBank seg =>
    show (takeSegment (encodeSegment seg ++ rest) >>= fun r => pure (Instr.continueBank r.1, r.2)) = _
    rw [takeSegment_encodeSegment (d := d) hwf]
    rfl
  case endBank crc rsvd =>
    rw [encode, List.append_assoc, List.append_assoc]
    show (takeU16 (le16 crc ++ (le16 rsvd ++ rest)) >>= fun c =>
      takeU16 c.2 >>= fun r => pure (Instr.endBank c.1 r.1, r.2)) = _
    rw [takeU16_le16]
    show (takeU16 (le16 rsvd ++ rest) >>= fun r => pure (Instr.endBank crc r.1, r.2)) = _
    rw [takeU16_le16]
    rfl
  case unknownVerb v =>
    have hv : v ∉ knownVerbs := fun hv => by simp [wf_iff, Instr.check, hv] at hwf
    exact BankAssembler.decodeVerbFrame_of_unknown (BankAssembler.decodeVerb_of_not_known hv) rest
  case stray b =>
    have hb : b ≠ Config.opcodeByte := fun hb => by simp [wf_iff, Instr.check, hb] at hwf
    simp [encode, decodeSymbol, takeByte, bind, Except.bind, hb, pure, Except.pure]
  case endBlockLogical => rfl
  case endBlockPhysical => rfl
  case filler => rfl
  case toBeContd => rfl
  all_goals cases hl

/-! ## Every level -/

theorem decodeBlock_ok_iff {bs rest : List Byte} {i : Instr} :
    decodeBlock bs = .ok (i, rest) ↔
      ∃ payload crc rsvd, i = .block payload crc rsvd ∧ payload.length = Config.payloadLen ∧ bs = encode i ++ rest := by
  simp only [decodeBlock, bind_eq_ok_iff, Prod.exists, takeBytes_ok_iff, takeU16_ok_iff, pure_eq_ok_iff, Prod.mk.injEq]
  constructor
  · rintro ⟨payload, _, ⟨hlen, rfl⟩, crc, _, rfl, rsvd, _, rfl, rfl, rfl⟩
    exact ⟨payload, crc, rsvd, rfl, hlen, by simp [encode]⟩
  · rintro ⟨payload, crc, rsvd, rfl, hlen, rfl⟩
    exact ⟨payload, _, ⟨hlen, by simp [encode]⟩, crc, _, rfl, rsvd, rest, rfl, rfl, rfl⟩

theorem wf_block_iff {d : Nat} {payload : List Byte} {crc rsvd : BitVec 16} :
    (Instr.block payload crc rsvd).wf d = true ↔ payload.length = Config.payloadLen := by
  simp [wf_iff, Instr.check]

theorem exists_block_of_level {i : Instr} (h : i.level = .frame) : ∃ payload crc rsvd, i = .block payload crc rsvd := by
  cases i
  case block payload crc rsvd => exact ⟨payload, crc, rsvd, rfl⟩
  all_goals cases h

theorem decodeRecord_ok_iff_wf {d : Nat} {bs rest : List Byte} {i : Instr} :
    decodeRecord d bs = .ok (i, rest) ↔ i.wf d = true ∧ i.level = .record ∧ encode i ++ rest = bs := by
  rw [decodeRecord_ok_iff]
  constructor
  · rintro ⟨ty, a, rfl, hfits, rfl⟩
    exact ⟨wf_extract_iff.mpr hfits, level_extract ty a, by rw [encode_extract]⟩
  · rintro ⟨hwf, hlevel, rfl⟩
    obtain ⟨ty, a, rfl⟩ := exists_extract_of_level hlevel
    exact ⟨ty, a, rfl, wf_extract_iff.mp hwf, by rw [encode_extract]⟩

theorem decodeNode_ok_iff_wf {d : Nat} {bs rest : List Byte} {i : Instr} :
    decodeNode d bs = .ok (i, rest) ↔ i.wf d = true ∧ i.level = .node ∧ encode i ++ rest = bs := by
  simp only [decodeNode, bind_eq_ok_iff, Prod.exists, decodeExpr_ok_iff, pure_eq_ok_iff, Prod.mk.injEq]
  constructor
  · rintro ⟨e, _, ⟨hfits, rfl⟩, rfl, rfl⟩
    exact ⟨wf_ofExpr_iff.mpr hfits, level_ofExpr e, by rw [encode_ofExpr]⟩
  · rintro ⟨hwf, hlevel, rfl⟩
    obtain ⟨e, rfl⟩ := exists_ofExpr_of_level hlevel
    exact ⟨e, rest, ⟨wf_ofExpr_iff.mp hwf, by rw [encode_ofExpr]⟩, rfl, rfl⟩

theorem decodeBlock_ok_iff_wf {d : Nat} {bs rest : List Byte} {i : Instr} :
    decodeBlock bs = .ok (i, rest) ↔ i.wf d = true ∧ i.level = .frame ∧ encode i ++ rest = bs := by
  rw [decodeBlock_ok_iff]
  constructor
  · rintro ⟨payload, crc, rsvd, rfl, hlen, rfl⟩
    exact ⟨wf_block_iff.mpr hlen, rfl, rfl⟩
  · rintro ⟨hwf, hlevel, rfl⟩
    obtain ⟨payload, crc, rsvd, rfl⟩ := exists_block_of_level hlevel
    exact ⟨payload, crc, rsvd, rfl, wf_block_iff.mp hwf, rfl⟩

theorem decodeSymbol_ok_iff_wf {d : Nat} {bs rest : List Byte} {i : Instr} :
    decodeSymbol bs = .ok (i, rest) ↔ i.wf d = true ∧ i.level = .symbol ∧ encode i ++ rest = bs :=
  ⟨decodeSymbol_ok, fun ⟨hwf, hlevel, hbs⟩ => hbs ▸ decodeSymbol_encode hlevel hwf rest⟩

/-- The decoder of a level accepts exactly the encodings of the well-formed instructions of the level. -/
theorem decode_ok_iff {level : Level} {d : Nat} {bs rest : List Byte} {i : Instr} :
    decode level d bs = .ok (i, rest) ↔ i.wf d = true ∧ i.level = level ∧ encode i ++ rest = bs := by
  cases level with
  | frame => exact decodeBlock_ok_iff_wf
  | symbol => exact decodeSymbol_ok_iff_wf
  | record => exact decodeRecord_ok_iff_wf
  | node => exact decodeNode_ok_iff_wf

/-- Settles O1: one direction of `decode_ok_iff`. -/
theorem decodeEncodeAgree : Obligations.DecodeEncodeAgree := by
  unfold Obligations.DecodeEncodeAgree
  intro maxDepth i rest hwf
  exact decode_ok_iff.mpr ⟨hwf, rfl, rfl⟩

/-- Settles O2: the other direction of `decode_ok_iff`. -/
theorem decodedBytesAreTheEncoding : Obligations.DecodedBytesAreTheEncoding := by
  unfold Obligations.DecodedBytesAreTheEncoding
  intro level maxDepth bs rest i h
  exact decode_ok_iff.mp h

/-! ## Images -/

/-- An operation that a recipe may hold. -/
def IsOperation (d : Nat) (i : Instr) : Prop := i.level = .record ∧ i.wf d = true

theorem recipeWf_iff {d : Nat} {recipe : List Instr} :
    recipeWf d recipe = true ↔ recipe.length ≤ 65535 ∧ ∀ i ∈ recipe, IsOperation d i := by
  simp only [recipeWf, IsOperation, Bool.and_eq_true, decide_eq_true_eq, List.all_eq_true, beq_iff_eq]

theorem decodeRecords_ok_iff {d n : Nat} {bs rest : List Byte} {is : List Instr} :
    decodeRecords d n bs = .ok (is, rest) ↔
      is.length = n ∧ (∀ i ∈ is, IsOperation d i) ∧ bs = (is.map encode).flatten ++ rest := by
  induction n generalizing bs rest is with
  | zero => cases is <;> simp [decodeRecords]
  | succ n ih =>
    simp only [decodeRecords, bind_eq_ok_iff, Prod.exists, decodeRecord_ok_iff_wf, ih, pure_eq_ok_iff, Prod.mk.injEq]
    constructor
    · rintro ⟨i, _, ⟨hwf, hlevel, rfl⟩, more, _, ⟨rfl, hmore, rfl⟩, rfl, rfl⟩
      exact ⟨rfl, List.forall_mem_cons.mpr ⟨⟨hlevel, hwf⟩, hmore⟩, by simp⟩
    · rintro ⟨hlen, hall, rfl⟩
      obtain ⟨i, more, rfl⟩ := List.exists_cons_of_length_eq_add_one hlen
      obtain ⟨⟨hlevel, hwf⟩, hmore⟩ := List.forall_mem_cons.mp hall
      exact ⟨i, (more.map encode).flatten ++ rest, ⟨hwf, hlevel, by simp⟩, more, rest,
        ⟨Nat.succ.inj hlen, hmore, rfl⟩, rfl, rfl⟩

/-- An image is its number of operations and their encodings, with nothing after them (R100, R106). -/
theorem decodeImage_ok_iff {d : Nat} {image : List Byte} {recipe : List Instr} :
    decodeImage d image = .ok recipe ↔
      ∃ nOps : BitVec 16, recipe.length = nOps.toNat ∧ (∀ i ∈ recipe, IsOperation d i) ∧
        image = le16 nOps ++ (recipe.map encode).flatten := by
  simp only [decodeImage, bind_eq_ok_iff, Prod.exists, takeU16_ok_iff, decodeRecords_ok_iff]
  constructor
  · rintro ⟨nOps, _, rfl, is, rest, ⟨hlen, hall, rfl⟩, h⟩
    split at h
    next hrest =>
      obtain rfl := List.isEmpty_iff.mp hrest
      cases h
      exact ⟨nOps, hlen, hall, by simp⟩
    next => cases h
  · rintro ⟨nOps, hlen, hall, rfl⟩
    exact ⟨nOps, _, rfl, recipe, [], ⟨hlen, hall, by simp⟩, rfl⟩

/-- A number of operations fits the image's first field exactly when it is at most 65535. -/
theorem exists_nOps_iff {n : Nat} {p : List Byte → Prop} :
    (∃ nOps : BitVec 16, n = nOps.toNat ∧ p (le16 nOps)) ↔ n ≤ 65535 ∧ p (leBytes 2 n) := by
  constructor
  · rintro ⟨nOps, rfl, hp⟩
    exact ⟨Nat.le_of_lt_succ nOps.isLt, hp⟩
  · rintro ⟨hle, hp⟩
    have hn : (BitVec.ofNat 16 n).toNat = n := by
      rw [BitVec.toNat_ofNat]
      omega
    exact ⟨BitVec.ofNat 16 n, hn.symm, by rwa [le16, hn]⟩

/-- Settles O3: `decodeImage_ok_iff`, with the number of operations written out. -/
theorem imagesAreRecipes : Obligations.ImagesAreRecipes := by
  unfold Obligations.ImagesAreRecipes
  intro maxDepth image recipe
  have hcount := exists_nOps_iff (n := recipe.length)
    (p := fun f => (∀ i ∈ recipe, IsOperation maxDepth i) ∧ image = f ++ (recipe.map encode).flatten)
  rw [decodeImage_ok_iff, hcount, recipeWf_iff, encodeImage, and_assoc, eq_comm (a := image)]

/-- Settles O4: each word is decoded by evaluation. -/
theorem wordsOfTheSpecDecode : Obligations.WordsOfTheSpecDecode := by
  unfold Obligations.WordsOfTheSpecDecode
  exact ⟨rfl, rfl, rfl, rfl, rfl, rfl⟩

end Sys2Proof.Encoding
end

section
/-! PROOFS. The CRC engine (`40_crc.md`): one round is a linear and invertible map of the running state, from which the
bit-serial form (R127), the running state (R125, R126, R128) and the detection of a changed byte (R144) follow. -/

namespace Sys2Proof.CrcEngine

open Machine

/-! ## One round -/

/-- A round shifts the top bit out and, where it was set, adds the polynomial. -/
theorem crcRound_eq (c : BitVec 16) : crcRound c = (c <<< 1) ^^^ (if c.getLsbD 15 then Config.crcPoly else 0) := by
  unfold crcRound
  split <;> simp

theorem crcRound_of_top_clear {c : BitVec 16} (h : c.getLsbD 15 = false) : crcRound c = c <<< 1 := by
  rw [crcRound, h, if_neg Bool.false_ne_true]

theorem crcRound_xor (a b : BitVec 16) : crcRound (a ^^^ b) = crcRound a ^^^ crcRound b := by
  simp only [crcRound_eq, BitVec.shiftLeft_xor_distrib, BitVec.getLsbD_xor]
  have hpoly : (if (a.getLsbD 15 ^^ b.getLsbD 15) = true then Config.crcPoly else 0) =
      (if a.getLsbD 15 then Config.crcPoly else 0) ^^^ (if b.getLsbD 15 then Config.crcPoly else 0) := by
    cases a.getLsbD 15 <;> cases b.getLsbD 15 <;> rfl
  rw [hpoly]
  ac_rfl

/-- The polynomial's low bit keeps the bit that the shift loses, so a round loses nothing. -/
theorem eq_zero_of_crcRound_eq_zero {c : BitVec 16} (h : crcRound c = 0) : c = 0 := by
  have hbit : ∀ i, (crcRound c).getLsbD i = false := fun i => by rw [h]; exact BitVec.getLsbD_zero
  have htop : c.getLsbD 15 = false := by
    have h0 := hbit 0
    rw [crcRound_eq] at h0
    cases htop : c.getLsbD 15 with
    | false => rfl
    | true => simp [htop, Config.crcPoly] at h0
  apply BitVec.eq_of_getLsbD_eq
  intro i hi
  rcases Nat.lt_or_ge i 15 with hlow | hhigh
  · have hnext := hbit (i + 1)
    simpa [crcRound_of_top_clear htop, hi, show i + 1 < 16 by omega] using hnext
  · obtain rfl : i = 15 := by omega
    simpa using htop

/-- The rounds of the bit-serial form are those of the table form, with the bits in the opposite order (R127). -/
theorem crcSerialRound_reverse (c : BitVec 16) : crcSerialRound c.reverse = (crcRound c).reverse := by
  have hpoly : (0x8408 : BitVec 16) = Config.crcPoly.reverse := by decide
  have hlow : c.reverse.getLsbD 0 = c.getLsbD 15 := BitVec.getLsbD_reverse.trans (BitVec.getMsbD_eq_getLsbD c 0)
  rw [crcSerialRound, crcRound_eq, hlow, hpoly]
  apply BitVec.eq_of_getLsbD_eq
  intro i hi
  cases c.getLsbD 15 <;> simp [BitVec.getLsbD_reverse, BitVec.getMsbD_eq_getLsbD, hi] <;> grind

/-! ## The eight rounds of a byte -/

theorem repeat_crcRound_xor (n : Nat) (a b : BitVec 16) :
    Nat.repeat crcRound n (a ^^^ b) = Nat.repeat crcRound n a ^^^ Nat.repeat crcRound n b := by
  induction n with
  | zero => rfl
  | succ n ih => simp only [Nat.repeat, ih, crcRound_xor]

theorem crcStep_xor (a b : BitVec 16) : crcStep (a ^^^ b) = crcStep a ^^^ crcStep b := repeat_crcRound_xor 8 a b

theorem eq_zero_of_repeat_crcRound_eq_zero {n : Nat} {c : BitVec 16} (h : Nat.repeat crcRound n c = 0) : c = 0 := by
  induction n with
  | zero => exact h
  | succ n ih => exact ih (eq_zero_of_crcRound_eq_zero h)

theorem crcStep_injective {a b : BitVec 16} (h : crcStep a = crcStep b) : a = b := by
  have hzero : crcStep (a ^^^ b) = 0 := by rw [crcStep_xor, h, BitVec.xor_self]; rfl
  exact BitVec.xor_eq_zero_iff.mp (eq_zero_of_repeat_crcRound_eq_zero hzero)

theorem repeat_crcSerialRound_reverse (n : Nat) (c : BitVec 16) :
    Nat.repeat crcSerialRound n c.reverse = (Nat.repeat crcRound n c).reverse := by
  induction n with
  | zero => rfl
  | succ n ih => simp only [Nat.repeat, ih, crcSerialRound_reverse]

/-- The low byte reaches the top only after eight rounds, so no round divides. -/
theorem repeat_crcRound_byte {n : Nat} (hn : n ≤ 8) (x : Byte) :
    Nat.repeat crcRound n (x.setWidth 16) = x.setWidth 16 <<< n := by
  induction n with
  | zero => simp [Nat.repeat]
  | succ n ih =>
    have htop : (x.setWidth 16 <<< n).getLsbD 15 = false := by
      have hout : x.getLsbD (15 - n) = false := BitVec.getLsbD_of_ge x (15 - n) (by omega)
      simp [hout]
    rw [Nat.repeat, ih (by omega), crcRound_of_top_clear htop, BitVec.shiftLeft_add]

/-! ## The update of a byte -/

theorem state_eq_hi8_xor_lo8 (s : BitVec 16) : s = ((hi8 s).setWidth 16 <<< 8) ^^^ (lo8 s).setWidth 16 := by
  apply BitVec.eq_of_getLsbD_eq
  intro i hi
  by_cases hlow : i < 8
  · simp [hi8, lo8, hi, hlow]
  · simp [hi8, lo8, hi, hlow]
    grind

/-- A byte is added, bits reversed, to the top of the running state, and then eight rounds are made: the table holds
the rounds of the top byte (R122, R124). -/
theorem crcUpdate_eq (s : BitVec 16) (b : Byte) : crcUpdate s b = crcStep (s ^^^ ((reflect8 b).setWidth 16 <<< 8)) := by
  have hlow : crcStep ((lo8 s).setWidth 16) = (lo8 s).setWidth 16 <<< 8 := repeat_crcRound_byte (Nat.le_refl 8) _
  have hsplit : s ^^^ ((reflect8 b).setWidth 16 <<< 8) =
      ((reflect8 b ^^^ hi8 s).setWidth 16 <<< 8) ^^^ (lo8 s).setWidth 16 := by
    conv_lhs => rw [state_eq_hi8_xor_lo8 s]
    rw [BitVec.setWidth_xor, BitVec.shiftLeft_xor_distrib]
    ac_rfl
  rw [hsplit, crcStep_xor, hlow]
  rfl

theorem crcUpdate_injective_state {s s' : BitVec 16} {b : Byte} (h : crcUpdate s b = crcUpdate s' b) : s = s' := by
  rw [crcUpdate_eq, crcUpdate_eq] at h
  exact (BitVec.xor_left_inj _).mp (crcStep_injective h)

theorem reflect8_shift_injective {b b' : Byte}
    (h : (reflect8 b).setWidth 16 <<< 8 = ((reflect8 b').setWidth 16 <<< 8 : BitVec 16)) : b = b' := by
  have hhi : reflect8 b = reflect8 b' := by
    apply BitVec.eq_of_getLsbD_eq
    intro i hi
    have hbit := congrArg (fun x => x.getLsbD (i + 8)) h
    simpa [show i + 8 < 16 by omega] using hbit
  simpa [reflect8] using congrArg BitVec.reverse hhi

theorem crcUpdate_injective_byte {s : BitVec 16} {b b' : Byte} (h : crcUpdate s b = crcUpdate s b') : b = b' := by
  rw [crcUpdate_eq, crcUpdate_eq] at h
  exact reflect8_shift_injective ((BitVec.xor_right_inj _).mp (crcStep_injective h))

/-! ## The running state and the result -/

/-- The result is the running state with its bits reversed (R125). -/
theorem crcFinish_eq_reverse (s : BitVec 16) : crcFinish s = s.reverse := by
  apply BitVec.eq_of_getLsbD_eq
  intro i hi
  by_cases hlow : i < 8 <;>
    simp [crcFinish, reflect8, hi8, lo8, BitVec.getLsbD_reverse, BitVec.getMsbD_eq_getLsbD, hi, hlow] <;> grind

theorem crcFinish_injective {s s' : BitVec 16} (h : crcFinish s = crcFinish s') : s = s' := by
  rw [crcFinish_eq_reverse, crcFinish_eq_reverse] at h
  simpa using congrArg BitVec.reverse h

theorem crcRun_append (s : BitVec 16) (p q : List Byte) : crcRun s (p ++ q) = crcRun (crcRun s p) q :=
  List.foldl_append

theorem crcRun_injective {s s' : BitVec 16} {q : List Byte} (h : crcRun s q = crcRun s' q) : s = s' := by
  induction q generalizing s s' with
  | nil => exact h
  | cons b q ih => exact crcUpdate_injective_state (ih h)

theorem crcRun_zeros (n : Nat) : crcRun 0 (List.replicate n 0) = 0 := by
  induction n with
  | zero => rfl
  | succ n ih => exact ih

/-- Settles O6: byte by byte the serial state is the reversed running state. -/
theorem crcBitSerialForm : Obligations.CrcBitSerialForm := by
  unfold Obligations.CrcBitSerialForm
  intro bytes
  have hupdate : ∀ s b, crcSerialUpdate s.reverse b = (crcUpdate s b).reverse := by
    intro s b
    have hbyte : s.reverse ^^^ b.setWidth 16 = (s ^^^ ((reflect8 b).setWidth 16 <<< 8)).reverse := by
      apply BitVec.eq_of_getLsbD_eq
      intro i hi
      simp [reflect8, hi]
      grind
    rw [crcSerialUpdate, hbyte, repeat_crcSerialRound_reverse, crcUpdate_eq, crcStep]
  have hrun : ∀ s, bytes.foldl crcSerialUpdate s.reverse = (crcRun s bytes).reverse := by
    induction bytes with
    | nil => exact fun s => rfl
    | cons b bs ih =>
      intro s
      rw [List.foldl_cons, hupdate, ih]
      rfl
  rw [crc, crcFinish_eq_reverse]
  exact hrun 0

/-- Settles O7: the three derivations of R125, R128 and R126. -/
theorem crcRunningState : Obligations.CrcRunningState := by
  unfold Obligations.CrcRunningState
  refine ⟨crcFinish_eq_reverse, fun p q => ?_, fun n => ?_⟩
  · exact congrArg crcFinish (crcRun_append 0 p q)
  · exact (congrArg crcFinish (crcRun_zeros n)).trans (by decide)

/-- Settles O8: after the common beginning the two bytes lead to different states, which the common rest keeps apart. -/
theorem crcDetectsByteChange : Obligations.CrcDetectsByteChange := by
  unfold Obligations.CrcDetectsByteChange
  intro bytes k b hk hne hcrc
  have hold : bytes = bytes.take k ++ bytes[k] :: bytes.drop (k + 1) := by simp
  have hset : bytes.set k b = bytes.take k ++ b :: bytes.drop (k + 1) := List.set_eq_take_append_cons_drop ▸ if_pos hk
  have hrun := crcFinish_injective hcrc
  rw [hset] at hrun
  conv_rhs at hrun => rw [hold]
  rw [crcRun_append, crcRun_append] at hrun
  exact hne (crcUpdate_injective_byte (crcRun_injective (q := bytes.drop (k + 1)) hrun))

end Sys2Proof.CrcEngine
end

section
/-! PROOFS. What the stream pipeline does not depend on (`10_state.md` R21, `60_exceptions.md` R287): a change of what
BRA and EVG neither read nor write commutes with them. The frame registers are among it but for the index that an error
records (R276), and so is the number of strays, which is only ever added to (R41). -/

namespace Sys2Proof.Independence

open Machine

/-! ## Changes outside BRA and EVG -/

/-- A change of what lies outside BRA and EVG, with a number of strays to add. -/
structure Change where
  strays : BitVec 32 := 0#32
  bfv    : Bfv → Bfv := id
  rtab   : FinMap (List Byte) → FinMap (List Byte) := id
  rin    : Rin → Rin := id
  rinOut : List RinResult → List RinResult := id

/-- The state with the change made. -/
def Change.apply (c : Change) (s : State) : State :=
  { s with
    bfv := c.bfv s.bfv
    rtab := c.rtab s.rtab
    rin := c.rin s.rin
    counters := { s.counters with strayCount := s.counters.strayCount + c.strays }
    queues := { s.queues with rinOut := c.rinOut s.queues.rinOut } }

/-- The error index taken again from the frame index. -/
def reindex (s : State) : State := { s with status := { s.status with errIndex := s.bfv.index } }

/-- The change made in what an operation answers; an error records the index that stands in the changed frame
registers (R276). -/
def Change.outcome (c : Change) : Outgoing → Outgoing
  | .ok t => .ok (c.apply t)
  | .error t => .error (reindex (c.apply t))

variable (c : Change) (s : State)

@[simp] theorem apply_bra : (c.apply s).bra = s.bra := rfl

/-- The change that changes nothing. -/
theorem apply_default : Change.apply {} s = s := by
  rw [Change.apply, BitVec.add_zero]
  rfl

theorem outcome_bind (r : Outgoing) (f : State → Outgoing) (hf : ∀ t, f (c.apply t) = c.outcome (f t)) :
    c.outcome r >>= f = c.outcome (r >>= f) := by
  cases r with
  | ok t => exact hf t
  | error t => rfl

/-! ## The event grouper -/

theorem evgAppend_apply (bank : Bank) : evgAppend bank (c.apply s) = c.outcome (evgAppend bank s) := by
  simp only [evgAppend, apply_ite c.outcome]
  rfl

theorem evgStart_apply (bank : Bank) : evgStart bank (c.apply s) = c.apply (evgStart bank s) := by
  have hforced : c.apply (if s.evg.inEvent && !s.evg.buf.isEmpty then emitEvent s else s) =
      if s.evg.inEvent && !s.evg.buf.isEmpty then emitEvent (c.apply s) else c.apply s := apply_ite c.apply _ _ _
  exact congrArg (fun t : State => { t with evg := ⟨true, if keepMarkers s then [bank] else []⟩ }) hforced.symm

theorem evgStop_apply (bank : Bank) : evgStop bank (c.apply s) = c.outcome (evgStop bank s) := by
  have hin : (c.apply s).evg.inEvent = s.evg.inEvent := rfl
  have hkeep : keepMarkers (c.apply s) = keepMarkers s := rfl
  simp only [evgStop, hin, hkeep, evgAppend_apply]
  by_cases h : s.evg.inEvent = true
  · by_cases hk : keepMarkers s = true
    · simp only [h, hk, if_true]
      exact outcome_bind c _ _ fun t => rfl
    · simp only [h, hk, if_true]
      rfl
  · simp only [h]
    rfl

theorem evgOther_apply (bank : Bank) : evgOther bank (c.apply s) = c.outcome (evgOther bank s) := by
  have hin : (c.apply s).evg.inEvent = s.evg.inEvent := rfl
  simp only [evgOther, hin, evgAppend_apply, apply_ite c.outcome]
  rfl

theorem evgBank_apply (bank : Bank) : evgBank bank (c.apply s) = c.outcome (evgBank bank s) := by
  have hcfg : (c.apply s).cfg = s.cfg := rfl
  simp only [evgBank, hcfg, evgStart_apply, evgStop_apply, evgOther_apply, apply_ite c.outcome]
  rfl

/-! ## The reassembler -/

theorem braEmitBank_apply : braEmitBank (c.apply s) = c.outcome (braEmitBank s) := by
  have hevg := evgBank_apply c { s with
    queues := { s.queues with bankOut := s.queues.bankOut ++ [bankOf s.bra.buf] }
    counters := { s.counters with bankCount := s.counters.bankCount + 1 } } (bankOf s.bra.buf)
  exact (congrArg (· >>= _) hevg).trans (outcome_bind c _ _ fun t => rfl)

theorem braEndBank_apply (field : BitVec 32) : braEndBank field (c.apply s) = c.outcome (braEndBank field s) := by
  simp only [braEndBank, apply_bra, braEmitBank_apply, apply_ite c.outcome]
  rfl

theorem braSegByte_apply (b : Byte) : braSegByte b (c.apply s) = c.outcome (braSegByte b s) := by
  simp only [braSegByte, apply_ite c.outcome]
  rfl

theorem braSegLen_apply (len : BitVec 32) : braSegLen len (c.apply s) = c.apply (braSegLen len s) := by
  simp only [braSegLen, apply_ite c.apply]
  rfl

theorem braFieldDone_apply : braFieldDone (c.apply s) = c.outcome (braFieldDone s) := by
  simp only [braFieldDone, apply_bra, braSegLen_apply, braEndBank_apply]
  split <;> rfl

theorem braField_apply (b : Byte) : braField b (c.apply s) = c.outcome (braField b s) := by
  have hdone : braFieldDone { c.apply (braFieldByte b s) with bra := { (braFieldByte b s).bra with k := 0 } } =
      c.outcome (braFieldDone { braFieldByte b s with bra := { (braFieldByte b s).bra with k := 0 } }) :=
    braFieldDone_apply c { braFieldByte b s with bra := { (braFieldByte b s).bra with k := 0 } }
  have hbyte : braFieldByte b (c.apply s) = c.apply (braFieldByte b s) := rfl
  simp only [braField, hbyte, apply_bra, hdone, apply_ite c.outcome]
  rfl

theorem verbContinue_apply : verbContinue (c.apply s) = c.apply (verbContinue s) := by
  have hopen : c.apply (if s.bra.isOpen then s else { s with bra := { s.bra with buf := [], isOpen := true } }) =
      if s.bra.isOpen then c.apply s
      else c.apply { s with bra := { s.bra with buf := [], isOpen := true } } := apply_ite c.apply _ _ _
  exact congrArg (braEnterField .segLen) hopen.symm

theorem braVerb_apply (v : Byte) : braVerb v (c.apply s) = c.apply (braVerb v s) := by
  simp only [braVerb, verbContinue_apply]
  split <;> rfl

theorem skipStray_apply : skipStray (c.apply s) = c.apply (skipStray s) := by
  have hadd : s.counters.strayCount + c.strays + 1 = s.counters.strayCount + 1 + c.strays := by ac_rfl
  simp only [skipStray, Change.apply, hadd]

theorem braScan_apply (b : Byte) : braScan b (c.apply s) = c.apply (braScan b s) := by
  simp only [braScan, skipStray_apply, apply_ite c.apply]
  rfl

theorem braByte_apply (b : Byte) : braByte b (c.apply s) = c.outcome (braByte b s) := by
  simp only [braByte, apply_bra, braScan_apply, braVerb_apply, braField_apply, braSegByte_apply]
  split <;> rfl

/-- BRA does the same to everything else whatever stands outside it. -/
theorem braBytes_apply (bs : List Byte) : braBytes bs (c.apply s) = c.outcome (braBytes bs s) := by
  induction bs generalizing s with
  | nil => rfl
  | cons b bs ih =>
    rw [braBytes_cons, braBytes_cons, braByte_apply]
    exact outcome_bind c _ _ ih

/-- An error records the index of the frame registers, which the change that changes nothing shows. -/
theorem braBytes_error_reindex {bs : List Byte} {t : State} (h : braBytes bs s = .error t) : reindex t = t := by
  have hsame := braBytes_apply {} s bs
  rw [apply_default, h, Change.outcome, apply_default] at hsame
  exact (Except.error.inj hsame).symm

/-- A change that keeps the frame registers is made in an error as in any other state. -/
theorem braBytes_apply_of_bfv {c : Change} (hbfv : c.bfv = id) (bs : List Byte) :
    braBytes bs (c.apply s) =
      match braBytes bs s with
      | .ok t => .ok (c.apply t)
      | .error t => .error (c.apply t) := by
  rw [braBytes_apply]
  cases h : braBytes bs s with
  | ok t => rfl
  | error t =>
    have hindex : reindex (c.apply t) = c.apply (reindex t) := by
      simp only [reindex, Change.apply, hbfv, id_eq]
    simp only [Change.outcome, hindex, braBytes_error_reindex s h]

/-- BRA's state does not depend on the frame registers where it raises no error (R62). -/
theorem braBytes_bfv {bs : List Byte} {s t : State} (h : braBytes bs s = .ok t) (r : Bfv) :
    braBytes bs { s with bfv := r } = .ok { t with bfv := r } := by
  have happly : ∀ u, Change.apply { bfv := fun _ => r } u = { u with bfv := r } := fun u => by
    rw [Change.apply, BitVec.add_zero]
    rfl
  rw [← happly, ← happly, braBytes_apply, h, Change.outcome]

/-- Settles O28: the inserted bytes are counted, and counted strays change nothing that comes after. -/
theorem straysResynchronise : Obligations.StraysResynchronise := by
  unfold Obligations.StraysResynchronise
  intro junk rest s hscan hjunk
  rw [braBytes_append, braBytes_strays junk hscan hjunk]
  exact braBytes_apply_of_bfv (c := { strays := BitVec.ofNat 32 junk.length }) s rfl rest

end Sys2Proof.Independence
end

section
/-! PROOFS. The segments of a bank (`42_bank_assembler.md` R168 to R170, R180): what START_BANK and CONTINUE append to
the bank buffer, where they overflow it, and how several segments form one Bank (R178). -/

namespace Sys2Proof.BankSegments

open Machine Claims FrameValidator Encoding

/-! ## The segment read -/

/-- The bank open with `base` in its buffer, BRA at the length of a segment (R168, R169). -/
def segmentOpened (base : List Byte) (s : State) : State :=
  { s with bra := { s.bra with state := .segLen, k := 0, acc := 0, isOpen := true, buf := base } }

/-- The state in which a segment has been appended to `base`. -/
def withSegment (base seg : List Byte) (s : State) : State :=
  { s with bra := { s.bra with
      state := .scan, k := 0, acc := BitVec.ofNat 32 seg.length
      rem := if seg = [] then s.bra.rem else 0
      isOpen := true, buf := base ++ seg } }

/-- CONTINUE keeps the bytes of an open bank, and opens an empty bank otherwise. -/
theorem verbContinue_eq (s : State) :
    verbContinue s = segmentOpened (if s.bra.isOpen then s.bra.buf else []) s := by
  unfold verbContinue
  cases hopen : s.bra.isOpen with
  | false => rfl
  | true =>
    rw [if_pos rfl, if_pos rfl, segmentOpened, ← hopen]
    rfl

/-- Both verbs enter the segment read with the bytes of their base. -/
theorem exec_of_segmentBase {i : Instr} {seg base : List Byte} {s : State} (h : segmentBase i seg base s) :
    exec i s = .next (settle (braBytes (encodeSegment seg) (segmentOpened base s))) := by
  rcases h with ⟨rfl, rfl⟩ | ⟨rfl, rfl⟩
  · rfl
  · rw [← verbContinue_eq]
    rfl

/-- A length is zero only of an empty segment. -/
theorem ofNat_length_eq_zero_iff {seg : List Byte} (hlen : seg.length < 2 ^ 32) :
    BitVec.ofNat 32 seg.length = 0 ↔ seg = [] := by
  rw [← List.length_eq_zero_iff, ← BitVec.toNat_inj, BitVec.toNat_ofNat, Nat.mod_eq_of_lt hlen]
  rfl

/-- The four bytes of the length are collected, and say how many bytes are to be copied (R170). -/
theorem braBytes_encodeSegment {seg : List Byte} (base : List Byte) (s : State) (hlen : seg.length < 2 ^ 32) :
    braBytes (encodeSegment seg) (segmentOpened base s) =
      braBytes seg (braSegLen (BitVec.ofNat 32 seg.length)
        { segmentOpened base s with bra := { (segmentOpened base s).bra with
            k := 0, acc := BitVec.ofNat 32 seg.length } }) := by
  rw [encodeSegment_eq hlen, braBytes_append, braBytes_le32 _ (.inr (.inl rfl)) rfl]
  rfl

theorem braBytes_encodeSegment_fits {base seg : List Byte} {s : State}
    (hfit : base.length + seg.length ≤ s.params.maxBankBytes) (hlen : seg.length < 2 ^ 32) :
    braBytes (encodeSegment seg) (segmentOpened base s) = .ok (withSegment base seg s) := by
  rw [braBytes_encodeSegment base s hlen]
  by_cases hne : seg = []
  · subst hne
    simp [braSegLen, segmentOpened, withSegment, braGoto]
  · have hnz := (ofNat_length_eq_zero_iff hlen).not.mpr hne
    rw [braSegLen, if_neg hnz, withSegment, if_neg hne]
    exact braBytes_segment seg rfl hne rfl hlen hfit

theorem braBytes_encodeSegment_overflows {base seg : List Byte} {s : State}
    (hbase : base.length ≤ s.params.maxBankBytes) (hover : s.params.maxBankBytes < base.length + seg.length)
    (hlen : seg.length < 2 ^ 32) :
    braBytes (encodeSegment seg) (segmentOpened base s) =
      .error (errorState .bankOverflow 0 0 s.params.maxBankBytes { s with bra := { s.bra with
        state := .segData, k := 0, acc := BitVec.ofNat 32 seg.length
        rem := BitVec.ofNat 32 (base.length + seg.length - s.params.maxBankBytes)
        isOpen := true, buf := base ++ seg.take (s.params.maxBankBytes - base.length) } }) := by
  have hne : seg ≠ [] := by
    rintro rfl
    simp only [List.length_nil] at hover
    omega
  rw [braBytes_encodeSegment base s hlen, braSegLen, if_neg ((ofNat_length_eq_zero_iff hlen).not.mpr hne)]
  exact braBytes_segment_overflow seg rfl rfl hlen hbase hover

/-- Settles O20: both verbs enter the same segment read, which copies what fits. -/
theorem segmentAppended : Obligations.SegmentAppended := by
  unfold Obligations.SegmentAppended
  intro i seg base s hbase hfit hlen
  rw [exec_of_segmentBase hbase, braBytes_encodeSegment_fits hfit hlen]
  rfl

/-- Settles O21: the same segment read, where the buffer fills up. -/
theorem segmentOverflows : Obligations.SegmentOverflows := by
  unfold Obligations.SegmentOverflows
  intro i seg base s hbase hle hover hlen
  rw [exec_of_segmentBase hbase, braBytes_encodeSegment_overflows hle hover hlen]
  rfl

end Sys2Proof.BankSegments
end

section
/-! PROOFS. END_BANK (`42_bank_assembler.md` R172, R173): the two checks, and what the event grouper
(`43_event_grouper.md` R200 to R208) does with a verified bank that is no start marker. -/

namespace Sys2Proof.EndOfBank

open Machine Claims FrameValidator EventGrouper

/-! ## The two checks -/

theorem braEndBank_of_crc_mismatch {crcf rsvd : BitVec 16} {s : State} (hcrc : crcf ≠ crc s.bra.buf) :
    braEndBank (rsvd ++ crcf) (crcField crcf rsvd s) =
      .error (errorState .bankCrcMismatch crcf (crc s.bra.buf) s.bra.buf.length (crcField crcf rsvd s)) := by
  have hlow : (rsvd ++ crcf).extractLsb' 0 16 = crcf := BitVec.extractLsb'_append_eq_right
  rcases braEndBank_cases (rsvd ++ crcf) (crcField crcf rsvd s) with ⟨-, h⟩ | ⟨hgood, -⟩ | ⟨hgood, -⟩
  · rw [h, hlow]
    rfl
  · exact absurd (hlow.symm.trans hgood) hcrc
  · exact absurd (hlow.symm.trans hgood) hcrc

theorem braEndBank_of_short {crcf rsvd : BitVec 16} {s : State} (hcrc : crcf = crc s.bra.buf)
    (hshort : s.bra.buf.length < 8) :
    braEndBank (rsvd ++ crcf) (crcField crcf rsvd s) =
      .error (errorState .bankTooShort 0 0 s.bra.buf.length (crcField crcf rsvd s)) := by
  have hlow : (rsvd ++ crcf).extractLsb' 0 16 = crcf := BitVec.extractLsb'_append_eq_right
  rcases braEndBank_cases (rsvd ++ crcf) (crcField crcf rsvd s) with ⟨hbad, -⟩ | ⟨-, -, h⟩ | ⟨-, hlong, -⟩
  · exact absurd (hlow.trans hcrc) hbad
  · exact h
  · exact absurd hshort (Nat.not_lt.mpr hlong)

/-- Settles O22: the four bytes are collected, and the complete field fails one of the two checks. -/
theorem endBankRejects : Obligations.EndBankRejects := by
  unfold Obligations.EndBankRejects
  intro crcf rsvd s
  refine ⟨fun hcrc => ?_, fun hcrc hshort => ?_⟩
  · rw [exec_endBank, braBytes_endBank, braEndBank_of_crc_mismatch hcrc]
    rfl
  · rw [exec_endBank, braBytes_endBank, braEndBank_of_short hcrc hshort]
    rfl

/-! ## The event grouper by case -/

section Grouper

variable {bank : Bank} {s : State} (hstart : bank.bankId ≠ s.cfg.startId)

include hstart

theorem evgBank_of_no_event (hin : s.evg.inEvent = false) : evgBank bank s = .ok s := by
  rcases evgBank_cases bank s with ⟨h, -⟩ | ⟨-, ⟨-, h⟩ | ⟨h, -⟩⟩
  · exact absurd h hstart
  · exact h
  · simp [hin] at h

theorem evgBank_of_member (hin : s.evg.inEvent = true) (hstop : bank.bankId ≠ s.cfg.stopId)
    (hroom : s.evg.buf.length ≠ s.params.maxEventBanks) :
    evgBank bank s = .ok { s with evg := { s.evg with buf := s.evg.buf ++ [bank] } } := by
  rcases evgBank_cases bank s with
    ⟨h, -⟩ | ⟨-, ⟨h, -⟩ | ⟨-, ⟨-, -, h⟩ | ⟨h, -⟩ | ⟨h, -⟩ | ⟨-, h, -⟩⟩⟩
  · exact absurd h hstart
  · simp [hin] at h
  · exact h
  · exact absurd h hstop
  · exact absurd h hstop
  · exact absurd h hroom

/-- The event that a stop marker closes is emitted with the marker where KEEP_MARKERS is 1 (R203, R207). -/
theorem evgBank_of_stopId (hin : s.evg.inEvent = true) (hstop : bank.bankId = s.cfg.stopId)
    (hroom : keepMarkers s = true → s.evg.buf.length ≠ s.params.maxEventBanks) :
    evgBank bank s = .ok { eventEmitted (s.evg.buf ++ if keepMarkers s then [bank] else []) s with
      evg := { inEvent := false, buf := [] } } := by
  rcases evgBank_cases bank s with
    ⟨h, -⟩ | ⟨-, ⟨h, -⟩ | ⟨-, ⟨h, -⟩ | ⟨-, hkeep, h⟩ | ⟨-, hkeep, -, h⟩ | ⟨hkeep, hfull, -⟩⟩⟩
  · exact absurd h hstart
  · simp [hin] at h
  · exact absurd hstop h
  · rw [h, hkeep, if_neg Bool.false_ne_true, List.append_nil]
    rfl
  · rw [h, hkeep, if_pos rfl]
    rfl
  · exact absurd hfull (hroom (hkeep hstop))

theorem evgBank_of_full (hin : s.evg.inEvent = true) (hfull : s.evg.buf.length = s.params.maxEventBanks)
    (hkeep : bank.bankId = s.cfg.stopId → keepMarkers s = true) :
    evgBank bank s = .error (errorState .eventOverflow 0 0 s.evg.buf.length s) := by
  rcases evgBank_cases bank s with
    ⟨h, -⟩ | ⟨-, ⟨h, -⟩ | ⟨-, ⟨-, h, -⟩ | ⟨hstop, hdrop, -⟩ | ⟨-, -, h, -⟩ | ⟨-, -, h⟩⟩⟩
  · exact absurd h hstart
  · simp [hin] at h
  · exact absurd hfull h
  · simp [hkeep hstop] at hdrop
  · exact absurd hfull h
  · exact h

end Grouper

/-- Settles O23: the verified bank reaches EVG, which passes it over or appends it. -/
theorem endBankMember : Obligations.EndBankMember := by
  unfold Obligations.EndBankMember
  intro crcf rsvd s hv hstart
  refine ⟨fun hin => ?_, fun hin hstop hroom => ?_⟩
  · rw [exec_endBank_of_verified rsvd hv, evgBank_of_no_event (s := bankEmitted crcf rsvd s) hstart hin]
    rfl
  · have hevg := evgBank_of_member (s := bankEmitted crcf rsvd s) hstart hin hstop hroom
    rw [exec_endBank_of_verified rsvd hv, hevg, ← hin]
    rfl

/-- Settles O25: the verified bank reaches EVG, which emits and closes the event. -/
theorem endBankStopsEvent : Obligations.EndBankStopsEvent := by
  unfold Obligations.EndBankStopsEvent
  intro crcf rsvd s hv hstart hstop hin hroom
  rw [exec_endBank_of_verified rsvd hv, evgBank_of_stopId (s := bankEmitted crcf rsvd s) hstart hin hstop hroom]
  rfl

/-- Settles O26: the verified bank reaches EVG, which has no room for it. -/
theorem endBankEventOverflow : Obligations.EndBankEventOverflow := by
  unfold Obligations.EndBankEventOverflow
  intro crcf rsvd s hv hstart hin hfull hkeep
  rw [exec_endBank_of_verified rsvd hv, evgBank_of_full (s := bankEmitted crcf rsvd s) hstart hin hfull hkeep]
  rfl

end Sys2Proof.EndOfBank
end

section
/-! PROOFS. Whole symbols of the bank stream (`30_encoding.md` section 2): from SCAN the bytes of a symbol run the
instruction, and the segments of a bank, whatever no-effect bytes stand between them, form one Bank (R95, R178). -/

namespace Sys2Proof.BankStream

open Machine Claims BankSegments EndOfBank EventGrouper Encoding

/-! ## Symbols -/

/-- OPCODE and a verb byte run the verb's action, which overwrites the state VERB. -/
theorem braBytes_verb {s : State} (h : s.bra.state = .scan) (v : Byte) (args : List Byte) :
    braBytes (0x60 :: v :: args) s = braBytes args (braVerb v (braGoto .verb s)) := by
  rw [braBytes_cons, braByte_scan h]
  rfl

theorem braBytes_startBank {seg : List Byte} {s : State} (h : s.bra.state = .scan) :
    braBytes (encode (.startBank seg)) s = braBytes (encodeSegment seg) (segmentOpened [] s) :=
  braBytes_verb h 0x07 (encodeSegment seg)

theorem braBytes_continueBank {seg : List Byte} {s : State} (h : s.bra.state = .scan) :
    braBytes (encode (.continueBank seg)) s =
      braBytes (encodeSegment seg) (segmentOpened (if s.bra.isOpen then s.bra.buf else []) s) := by
  have hcont := braBytes_verb h 0x08 (encodeSegment seg)
  exact hcont.trans (congrArg _ (verbContinue_eq (braGoto .verb s)))

theorem braBytes_endBankSymbol {crcf rsvd : BitVec 16} {s : State} (h : s.bra.state = .scan) :
    braBytes (encode (.endBank crcf rsvd)) s = braEndBank (rsvd ++ crcf) (crcField crcf rsvd s) := by
  rw [encode, List.append_assoc]
  exact (braBytes_verb h 0x0E (le16 crcf ++ le16 rsvd)).trans (braBytes_endBank crcf rsvd s)

theorem braBytes_toBeContd {s : State} (h : s.bra.state = .scan) (x0 x1 x2 x3 x4 : Byte) :
    braBytes (encode (.toBeContd x0 x1 x2 x3 x4)) s =
      .ok { s with bra := { s.bra with state := .scan, k := 0, acc := 0 } } :=
  (braBytes_verb h 0x0F [x0, x1, x2, x3, x4]).trans
    (BankAssembler.braBytes_tbcSkip rfl (List.cons_ne_nil _ _) rfl)

/-! ## A bank of several segments -/

/-- The states in SCAN with `data` in the open bank that differ from `s` in BRA and in the strays counted only. -/
structure Collected (s : State) (data : List Byte) (t : State) : Prop where
  eq : t = { s with bra := t.bra, counters := { s.counters with strayCount := t.counters.strayCount } }
  scan : t.bra.state = .scan
  isOpen : t.bra.isOpen = true
  buf : t.bra.buf = data

theorem Collected.trans {s t u : State} {data data' : List Byte} (h : Collected s data t) (k : Collected t data' u) :
    Collected s data' u where
  eq := by rw [k.eq, h.eq]
  scan := k.scan
  isOpen := k.isOpen
  buf := k.buf

theorem Collected.params {s t : State} {data : List Byte} (h : Collected s data t) : t.params = s.params := by
  rw [h.eq]

theorem collected_withSegment (base seg : List Byte) (s : State) :
    Collected s (base ++ seg) (withSegment base seg s) := ⟨rfl, rfl, rfl, rfl⟩

/-- The state after TO_BE_CONTD and a number of stray bytes (R161, R171). -/
def skippedTo (strays : Nat) (s : State) : State :=
  { s with
    bra := { s.bra with state := .scan, k := 0, acc := 0 }
    counters := { s.counters with strayCount := s.counters.strayCount + BitVec.ofNat 32 strays } }

theorem braBytes_toBeContd_strays {s : State} (h : s.bra.state = .scan) (x0 x1 x2 x3 x4 : Byte) {junk : List Byte}
    (hjunk : ∀ b ∈ junk, b ≠ 0x60) :
    braBytes (encode (.toBeContd x0 x1 x2 x3 x4) ++ junk) s = .ok (skippedTo junk.length s) := by
  rw [braBytes_append, braBytes_toBeContd h]
  exact braBytes_strays junk rfl hjunk

/-- One more segment, after TO_BE_CONTD and stray bytes, is appended to the open bank (R169, R171, R181). -/
theorem braBytes_group {data junk seg : List Byte} {s : State} (hs : Collected s data s) (x0 x1 x2 x3 x4 : Byte)
    (hjunk : ∀ b ∈ junk, b ≠ 0x60) (hlen : seg.length < 2 ^ 32)
    (hfit : data.length + seg.length ≤ s.params.maxBankBytes) :
    ∃ t, braBytes (encode (.toBeContd x0 x1 x2 x3 x4) ++ junk ++ encode (.continueBank seg)) s = .ok t ∧
      Collected s (data ++ seg) t := by
  have hbase : (if (skippedTo junk.length s).bra.isOpen then (skippedTo junk.length s).bra.buf else []) = data :=
    (if_pos hs.isOpen).trans hs.buf
  refine ⟨withSegment data seg (skippedTo junk.length s), ?_, rfl, rfl, rfl, rfl⟩
  rw [braBytes_append, braBytes_toBeContd_strays hs.scan x0 x1 x2 x3 x4 hjunk]
  show braBytes (encode (.continueBank seg)) (skippedTo junk.length s) = _
  rw [braBytes_continueBank rfl, hbase]
  exact braBytes_encodeSegment_fits hfit hlen

/-- The further segments are appended one after another. -/
theorem braBytes_groups {data : List Byte} {more : List (List Byte × List Byte)} {s : State}
    (hs : Collected s data s) (x0 x1 x2 x3 x4 : Byte)
    (hmore : ∀ p ∈ more, (∀ b ∈ p.1, b ≠ 0x60) ∧ p.2.length < 2 ^ 32)
    (hfit : (data ++ (more.map Prod.snd).flatten).length ≤ s.params.maxBankBytes) :
    ∃ t, braBytes (more.map fun p =>
        encode (.toBeContd x0 x1 x2 x3 x4) ++ p.1 ++ encode (.continueBank p.2)).flatten s = .ok t ∧
      Collected s (data ++ (more.map Prod.snd).flatten) t := by
  induction more generalizing data s with
  | nil => exact ⟨s, rfl, by simpa using hs⟩
  | cons p more ih =>
    obtain ⟨⟨hjunk, hlen⟩, hrest⟩ := List.forall_mem_cons.mp hmore
    simp only [List.map_cons, List.flatten_cons, ← List.append_assoc data] at hfit ⊢
    have hfirst : data.length + p.2.length ≤ s.params.maxBankBytes := by
      simp only [List.length_append] at hfit
      omega
    obtain ⟨t, ht, hcol⟩ := braBytes_group hs x0 x1 x2 x3 x4 hjunk hlen hfirst
    obtain ⟨u, hu, hcol'⟩ := ih ⟨rfl, hcol.scan, hcol.isOpen, hcol.buf⟩ hrest (hcol.params ▸ hfit)
    refine ⟨u, ?_, hcol.trans hcol'⟩
    rw [braBytes_append, ht]
    exact hu

/-- END_BANK of a verified bank that no event takes emits the Bank and closes it. -/
theorem braBytes_endBank_emits (rsvd : BitVec 16) {t : State} (hscan : t.bra.state = .scan)
    (hmin : 8 ≤ t.bra.buf.length) (hevent : t.evg.inEvent = false)
    (hstart : (headerBank t.bra.buf).bankId ≠ t.cfg.startId) :
    braBytes (encode (.endBank (crc t.bra.buf) rsvd)) t = .ok (bankClosed (bankEmitted (crc t.bra.buf) rsvd t)) := by
  have hevg := evgBank_of_no_event (s := bankEmitted (crc t.bra.buf) rsvd t) hstart hevent
  rw [braBytes_endBankSymbol hscan, braEndBank_of_verified rsvd ⟨rfl, hmin⟩, braEmitBank_crcField, hevg]
  rfl

/-- Settles O27: the segments are collected, and END_BANK verifies and emits the bank, which no event takes. -/
theorem segmentsFormBank : Obligations.SegmentsFormBank := by
  unfold Obligations.SegmentsFormBank
  intro seg more x0 x1 x2 x3 x4 rsvd s hscan hlen hmore data hdata hmin hmax hevent hstart
  have hseg : ([] : List Byte).length + seg.length ≤ s.params.maxBankBytes := by
    simp only [hdata, List.length_append, List.length_nil] at hmax ⊢
    omega
  have hopen := collected_withSegment [] seg s
  obtain ⟨t, ht, hcol⟩ := braBytes_groups ⟨rfl, hopen.scan, hopen.isOpen, hopen.buf⟩ x0 x1 x2 x3 x4 hmore
    (hopen.params ▸ hdata ▸ hmax)
  have hall : Collected s data t := hdata ▸ hopen.trans hcol
  have hsame : t.queues = s.queues ∧ t.counters.bankCount = s.counters.bankCount ∧ t.evg = s.evg ∧
      t.status = s.status ∧ t.cfg = s.cfg := by
    rw [hall.eq]
    exact ⟨rfl, rfl, rfl, rfl, rfl⟩
  obtain ⟨hqueues, hcount, hevg, hstatus, hcfg⟩ := hsame
  obtain rfl := hall.buf
  refine ⟨bankClosed (bankEmitted (crc t.bra.buf) rsvd t), ?_, by rw [← hqueues]; rfl, by rw [← hcount]; rfl,
    rfl, rfl, rfl, hevg, hstatus⟩
  rw [braBytes_append, braBytes_append, braBytes_startBank hscan, braBytes_encodeSegment_fits hseg hlen]
  show (braBytes _ (withSegment [] seg s) >>= _) = _
  rw [ht]
  exact braBytes_endBank_emits rsvd hcol.scan hmin (hevg ▸ hevent) (hcfg ▸ hstart)

end Sys2Proof.BankStream
end

section
/-! PROOFS. The block frame (`41_block_validator.md` R140 to R146, `20_memory.md` R60 to R62): how its 32000 bytes are
placed, how the complete frame is checked and released, and that sending them one step at a time is the same. -/

namespace Sys2Proof.BlockFrame

open Machine Claims FrameValidator Independence

/-! ## Storing a byte sequence -/

/-- The memory with bytes stored from an address upward. -/
def storeFrom : Nat → List Byte → Memory → Memory
  | _, [], m => m
  | a, b :: bs, m => storeFrom (a + 1) bs (memWrite a b m)

theorem memRead_storeFrom {a : Nat} {bs : List Byte} {m : Memory} (h : Memory.wf m) (x : Nat) :
    memRead (storeFrom a bs m) x = if a ≤ x ∧ x < a + bs.length then bs.getD (x - a) 0 else memRead m x := by
  induction bs generalizing a m with
  | nil => rw [storeFrom, if_neg (by simp only [List.length_nil]; omega)]
  | cons b bs ih =>
    rw [storeFrom, ih (memWrite_wf h), memRead_memWrite h, List.length_cons]
    by_cases hx : x = a
    · subst hx
      rw [if_neg (by omega), if_pos rfl, if_pos (by omega), Nat.sub_self, List.getD_cons_zero]
    · by_cases hin : a + 1 ≤ x ∧ x < a + 1 + bs.length
      · rw [if_pos hin, if_pos (by omega), show x - a = x - (a + 1) + 1 by omega, List.getD_cons_succ]
      · rw [if_neg hin, if_neg hx, if_neg (by omega)]

theorem storeFrom_wf {a : Nat} {bs : List Byte} {m : Memory} (h : Memory.wf m) : Memory.wf (storeFrom a bs m) := by
  induction bs generalizing a m with
  | nil => exact h
  | cons b bs ih => exact ih (memWrite_wf h)

theorem payloadStored_storeFrom {payload : List Byte} {m : Memory} (h : Memory.wf m) :
    payloadStored payload m (storeFrom 0 payload m) := fun a => by
  rw [memRead_storeFrom h]
  simp only [Nat.zero_le, true_and, Nat.zero_add, Nat.sub_zero]

/-- A stored payload is read back. -/
theorem memReadBytes_of_payloadStored {payload : List Byte} {m₀ m : Memory} (h : payloadStored payload m₀ m) :
    memReadBytes m 0 payload.length = payload := by
  apply List.ext_getElem (memReadBytes_length m 0 _)
  intro k hk hk'
  simp only [memReadBytes, List.getElem_map, List.getElem_range, Nat.zero_add]
  rw [h k, if_pos hk', List.getD_eq_getElem _ _ hk']

/-! ## Placing bytes -/

theorem bfvPlace_payload (b : Byte) {s : State} (h : s.bfv.fill < 31996) :
    bfvPlace b s = { s with bfv := { s.bfv with
      buf := memWrite s.bfv.fill b s.bfv.buf, fill := s.bfv.fill + 1 } } := if_pos h

theorem bfvPlace_trailer (b : Byte) {s : State} (h : 31996 ≤ s.bfv.fill) :
    bfvPlace b s = { s with bfv := { s.bfv with
      trl := setByte32 (s.bfv.fill - 31996) b s.bfv.trl, fill := s.bfv.fill + 1 } } := if_neg (Nat.not_lt.mpr h)

theorem bfvPlace_fill (b : Byte) (s : State) : (bfvPlace b s).bfv.fill = s.bfv.fill + 1 := by
  unfold bfvPlace
  split <;> rfl

/-- Placing a byte writes the frame registers only. -/
theorem bfvPlace_eq (b : Byte) (s : State) :
    bfvPlace b s = { s with bfv := { s.bfv with
      buf := (bfvPlace b s).bfv.buf, trl := (bfvPlace b s).bfv.trl, fill := s.bfv.fill + 1 } } := by
  unfold bfvPlace
  split <;> rfl

/-- A byte that does not complete the frame is only placed (R141). -/
theorem bfvByte_of_partial (b : Byte) {s : State} (h : s.bfv.fill + 1 < 32000) :
    bfvByte b s = .next (bfvPlace b s) := by
  have hroom : s.bfv.fill < Config.blockLen := Nat.lt_of_succ_lt h
  have hpart : (bfvPlace b s).bfv.fill ≠ Config.blockLen := bfvPlace_fill b s ▸ Nat.ne_of_lt h
  simp only [bfvByte, if_pos hroom, if_neg hpart]

/-- The 32000th byte completes the frame (R142). -/
theorem bfvByte_of_last (b : Byte) {s : State} (h : s.bfv.fill + 1 = 32000) :
    bfvByte b s = .next (bfvFrameComplete (bfvPlace b s)) := by
  have hroom : s.bfv.fill < Config.blockLen := Nat.lt_of_succ_le (Nat.le_of_eq h)
  have hfull : (bfvPlace b s).bfv.fill = Config.blockLen := (bfvPlace_fill b s).trans h
  simp only [bfvByte, if_pos hroom, if_pos hfull]

/-- There is no offset in a full frame buffer (log entry 5). -/
theorem bfvByte_of_full (b : Byte) {s : State} (h : 32000 ≤ s.bfv.fill) : bfvByte b s = .fault .frameBufferRange :=
  if_neg (Nat.not_lt.mpr h)

theorem bfvBytes_cons_of_partial (b : Byte) (bs : List Byte) {s : State} (hrun : s.status.runState = .running)
    (h : s.bfv.fill + 1 < 32000) : bfvBytes (b :: bs) s = bfvBytes bs (bfvPlace b s) := by
  have hgo : (bfvPlace b s).status.runState ≠ .error := by
    rw [bfvPlace_eq]
    simp [hrun]
  simp only [bfvBytes, bfvByte_of_partial b h, if_neg hgo]

theorem bfvBytes_singleton_of_last (b : Byte) {s : State} (h : s.bfv.fill + 1 = 32000) :
    bfvBytes [b] s = .next (bfvFrameComplete (bfvPlace b s)) := by
  simp only [bfvBytes, bfvByte_of_last b h, ite_self]

/-- Payload bytes go to the frame buffer, in order (R141). -/
theorem bfvBytes_payload (bs cs : List Byte) {s : State} (hrun : s.status.runState = .running)
    (h : s.bfv.fill + bs.length ≤ 31996) :
    bfvBytes (bs ++ cs) s = bfvBytes cs { s with bfv := { s.bfv with
      buf := storeFrom s.bfv.fill bs s.bfv.buf, fill := s.bfv.fill + bs.length } } := by
  induction bs generalizing s with
  | nil => rfl
  | cons b bs ih =>
    rw [List.length_cons] at h
    rw [List.cons_append, bfvBytes_cons_of_partial b _ hrun (by omega), bfvPlace_payload b (by omega),
      ih (by exact hrun)]
    · simp only [storeFrom, List.length_cons, Nat.add_assoc, Nat.add_comm 1]
    · simp only
      omega

/-- The four trailer bytes are collected, and the last one completes the frame (R141, R142). -/
theorem bfvBytes_trailer (crcf rsvd : BitVec 16) {s : State} (hrun : s.status.runState = .running)
    (h : s.bfv.fill = 31996) :
    bfvBytes (le16 crcf ++ le16 rsvd) s =
      .next (bfvFrameComplete { s with bfv := { s.bfv with fill := 32000, trl := rsvd ++ crcf } }) := by
  have htrl := setByte32_four ((rsvd ++ crcf : BitVec 32).extractLsb' 0 8) ((rsvd ++ crcf : BitVec 32).extractLsb' 8 8)
    ((rsvd ++ crcf : BitVec 32).extractLsb' 16 8) ((rsvd ++ crcf : BitVec 32).extractLsb' 24 8) s.bfv.trl
  rw [append_four] at htrl
  rw [le16_append, le32_eq, bfvBytes_cons_of_partial _ _ hrun (by omega), bfvPlace_trailer _ (by omega),
    bfvBytes_cons_of_partial _ _ (by exact hrun) (by simp only; omega), bfvPlace_trailer _ (by simp only; omega),
    bfvBytes_cons_of_partial _ _ (by exact hrun) (by simp only; omega), bfvPlace_trailer _ (by simp only; omega),
    bfvBytes_singleton_of_last _ (by simp only; omega), bfvPlace_trailer _ (by simp only; omega)]
  simp only [h, Nat.sub_self, Nat.reduceAdd, Nat.reduceSub, htrl]

/-- The frame buffer after a payload has been received. -/
def receivedBuf (payload : List Byte) (s : State) : Memory := storeFrom 0 payload s.bfv.buf

/-- From a frame boundary the 32000 bytes of a block are placed, and the complete frame is checked (R80, R141). -/
theorem exec_block {payload : List Byte} (crcf rsvd : BitVec 16) {s : State} (hlen : payload.length = 31996)
    (hrun : s.status.runState = .running) (hfill : s.bfv.fill = 0) :
    exec (.block payload crcf rsvd) s =
      .next (bfvFrameComplete (frameReceived (receivedBuf payload s) crcf rsvd s)) := by
  show bfvBytes (payload ++ le16 crcf ++ le16 rsvd) s = _
  rw [List.append_assoc, bfvBytes_payload _ _ hrun (by omega), bfvBytes_trailer crcf rsvd (by exact hrun)
    (by simp only; omega), hfill]
  rfl

/-! ## The complete frame -/

/-- What is left of a release: the frame is discarded and the index advances, unless BRA or EVG raised (R146, R151). -/
def frameDiscarded : Outgoing → State
  | .ok t => { t with bfv := { t.bfv with index := t.bfv.index + 1, fill := 0, trl := 0 } }
  | .error t => t

theorem bfvDrain_eq (s : State) :
    bfvDrain s = frameDiscarded (braBytes s.bfv.releasing { s with bfv := { s.bfv with releasing := [] } }) := by
  unfold bfvDrain
  cases braBytes s.bfv.releasing { s with bfv := { s.bfv with releasing := [] } } <;> rfl

theorem bfvPayload_received {payload : List Byte} {crcf rsvd : BitVec 16} {s : State} (hlen : payload.length = 31996)
    (hwf : Memory.wf s.bfv.buf) : bfvPayload (frameReceived (receivedBuf payload s) crcf rsvd s) = payload := by
  have hread := memReadBytes_of_payloadStored (payloadStored_storeFrom (payload := payload) hwf)
  rwa [hlen] at hread

theorem bfvFrameComplete_of_mismatch {payload : List Byte} {crcf rsvd : BitVec 16} {s : State}
    (hlen : payload.length = 31996) (hwf : Memory.wf s.bfv.buf) (hcrc : crcf ≠ crc payload) :
    bfvFrameComplete (frameReceived (receivedBuf payload s) crcf rsvd s) =
      errorState .crcMismatch crcf (crc payload) 0 (frameReceived (receivedBuf payload s) crcf rsvd s) := by
  have hlow : (rsvd ++ crcf).extractLsb' 0 16 = crcf := BitVec.extractLsb'_append_eq_right
  have hexp : (frameReceived (receivedBuf payload s) crcf rsvd s).bfv.trl.extractLsb' 0 16 = crcf := hlow
  simp only [bfvFrameComplete, hexp, bfvPayload_received hlen hwf, if_pos hcrc, raiseError_eq_errorState]

theorem bfvFrameComplete_of_match {payload : List Byte} {rsvd : BitVec 16} {s : State}
    (hlen : payload.length = 31996) (hwf : Memory.wf s.bfv.buf) :
    bfvFrameComplete (frameReceived (receivedBuf payload s) (crc payload) rsvd s) =
      frameDiscarded (braBytes payload { frameReceived (receivedBuf payload s) (crc payload) rsvd s with
        bfv := { (frameReceived (receivedBuf payload s) (crc payload) rsvd s).bfv with releasing := [] } }) := by
  have hlow : (rsvd ++ crc payload).extractLsb' 0 16 = crc payload := BitVec.extractLsb'_append_eq_right
  have hexp : (frameReceived (receivedBuf payload s) (crc payload) rsvd s).bfv.trl.extractLsb' 0 16 = crc payload :=
    hlow
  simp only [bfvFrameComplete, hexp, bfvPayload_received hlen hwf, ne_eq, not_true_eq_false, if_false, bfvRelease,
    bfvDrain_eq]

/-- Settles O10: the frame is received and its checksum matches. -/
theorem blockReleased : Obligations.BlockReleased := by
  unfold Obligations.BlockReleased
  intro payload rsvd s hlen hrun hfill hwf
  refine ⟨receivedBuf payload s, payloadStored_storeFrom hwf, ?_⟩
  rw [exec_block _ _ hlen hrun hfill, bfvFrameComplete_of_match hlen hwf]
  rfl

/-- Settles O11: the frame is received and its checksum does not match. -/
theorem blockCrcMismatch : Obligations.BlockCrcMismatch := by
  unfold Obligations.BlockCrcMismatch
  intro payload crcf rsvd s hlen hcrc hrun hfill hwf
  refine ⟨receivedBuf payload s, payloadStored_storeFrom hwf, ?_⟩
  rw [exec_block _ _ hlen hrun hfill, bfvFrameComplete_of_mismatch hlen hwf hcrc]

/-- Settles O12: the first byte of the block already finds no offset. -/
theorem blockNeedsRoom : Obligations.BlockNeedsRoom := by
  unfold Obligations.BlockNeedsRoom
  intro payload crcf rsvd s hlen hfull
  show bfvBytes (payload ++ le16 crcf ++ le16 rsvd) s = _
  obtain ⟨b, bs, rfl⟩ := List.exists_cons_of_length_eq_add_one hlen
  simp only [List.cons_append, bfvBytes, bfvByte_of_full b hfull]

/-! ## One byte sent -/

/-- A SEND of a byte that the stream's state accepts is one `bfv_byte` (R140, R310). -/
theorem hostCommand_send_byte (b : Byte) {s : State} (hrun : s.status.runState = .running) (hcfg : s.cfg.valid = 7)
    (hframe : s.bfv.index ≠ 0xFFFFFFFF ∨ s.bfv.fill + 1 ≠ 32000) :
    hostCommand (.send (.byte b)) s = bfvByte b { s with status := { s.status with started := true } } := by
  have hbelow : ¬ (InSymbol.byte b ≠ .eos ∧ s.bfv.index = 0xFFFFFFFF ∧ s.bfv.fill + 1 = Config.blockLen) :=
    fun h => hframe.elim (· h.2.1) (· h.2.2)
  simp only [hostCommand, cmdSend, hrun, hcfg, ne_eq, not_true_eq_false, if_false, if_neg hbelow, streamStep]

theorem getLsbD_byteMask (i : Nat) : (0xFF#32).getLsbD i = decide (i < 8) := by
  rw [show (0xFF#32) = BitVec.ofNat 32 (2 ^ 8 - 1) from rfl, BitVec.getLsbD_ofNat, Nat.testBit_two_pow_sub_one]
  by_cases h : i < 8
  · simp [h, show i < 32 by omega]
  · simp [h]

/-- A byte's bits are written at its place of a register, and the other bits are kept. -/
theorem getLsbD_setByte32 {k i : Nat} (hi : i < 32) (b : Byte) (acc : BitVec 32) :
    (setByte32 k b acc).getLsbD i =
      if 8 * k ≤ i ∧ i < 8 * k + 8 then b.getLsbD (i - 8 * k) else acc.getLsbD i := by
  simp only [setByte32, BitVec.getLsbD_or, BitVec.getLsbD_and, BitVec.getLsbD_not, BitVec.getLsbD_shiftLeft,
    BitVec.getLsbD_setWidth, getLsbD_byteMask]
  by_cases hlow : i < 8 * k
  · simp [hi, hlow, show ¬ 8 * k ≤ i by omega]
  · by_cases hin : i < 8 * k + 8
    · simp [hi, hlow, hin, show 8 * k ≤ i by omega, show i - 8 * k < 8 by omega, show i - 8 * k < 32 by omega]
    · have hout : b.getLsbD (i - 8 * k) = false := BitVec.getLsbD_of_ge _ _ (by omega)
      simp [hi, hlow, hin, hout, show ¬ i - 8 * k < 8 by omega]

/-- One byte of a 32-bit register is written, and the others keep their values (R33, R141). -/
theorem extractLsb'_setByte32 {k j : Nat} (hj : j < 4) (b : Byte) (acc : BitVec 32) :
    (setByte32 k b acc).extractLsb' (8 * j) 8 = if j = k then b else acc.extractLsb' (8 * j) 8 := by
  apply BitVec.eq_of_getLsbD_eq
  intro i hi
  rw [BitVec.getLsbD_extractLsb', getLsbD_setByte32 (by omega), decide_eq_true hi, Bool.true_and]
  by_cases hjk : j = k
  · subst hjk
    rw [if_pos (by omega), if_pos rfl, Nat.add_sub_cancel_left]
  · rw [if_neg (by omega), if_neg hjk, BitVec.getLsbD_extractLsb', decide_eq_true hi, Bool.true_and]

/-- Settles O9: the byte is accepted and does not complete the frame, so it is placed. -/
theorem sendFillsFrame : Obligations.SendFillsFrame := by
  unfold Obligations.SendFillsFrame
  intro b s hrun hcfg hfill hwf
  have hsend := (hostCommand_send_byte b hrun hcfg (.inr (Nat.ne_of_lt hfill))).trans
    (bfvByte_of_partial (s := { s with status := { s.status with started := true } }) b hfill)
  rcases Nat.lt_or_ge s.bfv.fill 31996 with hpay | htrl
  · rw [bfvPlace_payload b (by exact hpay)] at hsend
    refine ⟨_, _, hsend, fun a => ?_, fun j hj => ?_⟩
    · rw [memRead_memWrite hwf]
      simp only [hpay, and_true]
    · rw [if_neg (by omega)]
  · rw [bfvPlace_trailer b (by exact htrl)] at hsend
    refine ⟨_, _, hsend, fun a => ?_, fun j hj => ?_⟩
    · rw [if_neg (by omega)]
    · rw [extractLsb'_setByte32 hj]
      simp only [show (j = s.bfv.fill - 31996) ↔ (s.bfv.fill = 31996 + j) by omega]

/-! ## A frame sent byte by byte -/

/-- The state with the commands the host has issued. -/
def withTodo (todo : List HostCmd) (s : State) : State := { s with host := { s.host with todo := todo } }

/-- The SENDs of a byte sequence. -/
def sends (bs : List Byte) : List HostCmd := bs.map fun b => .send (.byte b)

/-- The state in which the stream has started. -/
def started (s : State) : State := { s with status := { s.status with started := true } }

/-- A step performs the SEND that the host issued next. -/
theorem step_send {b : Byte} {rest : List HostCmd} {s : State} (hrun : s.status.runState = .running)
    (hcfg : s.cfg.valid = 7) (hrel : s.bfv.releasing = []) (hindex : s.bfv.index ≠ 0xFFFFFFFF) :
    step (withTodo (.send (.byte b) :: rest) s) = bfvByte b (started (withTodo rest s)) := by
  have hidle : ¬ (s.status.runState = .running ∧ s.bfv.releasing ≠ []) := fun h => h.2 hrel
  have hnext : step (withTodo (.send (.byte b) :: rest) s) = hostCommand (.send (.byte b)) (withTodo rest s) :=
    if_neg hidle
  exact hnext.trans (hostCommand_send_byte (s := withTodo rest s) b hrun hcfg (.inl hindex))

theorem run_one (M : Host.Core) (s : M.State) : M.run 1 s = M.step s := by
  rw [Host.Core.run]
  cases M.step s <;> rfl

theorem run_succ_of_next {M : Host.Core} {n : Nat} {s t : M.State} (h : M.step s = .next t) :
    M.run (n + 1) s = M.run n t := by
  rw [Host.Core.run, h]

theorem bfvPlace_withTodo (b : Byte) (todo : List HostCmd) (s : State) :
    bfvPlace b (withTodo todo s) = withTodo todo (bfvPlace b s) := by
  simp only [bfvPlace, apply_ite (withTodo todo)]
  rfl

/-- The SENDs of frame bytes, the last of which may complete the frame, do what the bytes do in one go. -/
theorem run_sends {bs : List Byte} (hne : bs ≠ []) (rest : List HostCmd) {s : State}
    (hrun : s.status.runState = .running) (hcfg : s.cfg.valid = 7) (hrel : s.bfv.releasing = [])
    (hindex : s.bfv.index ≠ 0xFFFFFFFF) (hfit : s.bfv.fill + bs.length ≤ 32000) :
    Sys2Proof.core.run bs.length (withTodo (sends bs ++ rest) s) = bfvBytes bs (started (withTodo rest s)) := by
  induction bs generalizing s with
  | nil => exact absurd rfl hne
  | cons b bs ih =>
    have hstep : step (withTodo (sends (b :: bs) ++ rest) s) = bfvByte b (started (withTodo (sends bs ++ rest) s)) :=
      step_send hrun hcfg hrel hindex
    cases bs with
    | nil =>
      refine (run_one Sys2Proof.core _).trans (hstep.trans ?_)
      simp only [bfvBytes, ite_self]
      show bfvByte b (started (withTodo rest s)) = _
      cases bfvByte b (started (withTodo rest s)) <;> rfl
    | cons c cs =>
      rw [List.length_cons] at hfit
      have hpart : s.bfv.fill + 1 < 32000 := by
        rw [List.length_cons] at hfit
        omega
      have hplaced := bfvPlace_eq b (started s)
      have hnext := hstep.trans (bfvByte_of_partial b (by exact hpart))
      rw [List.length_cons, run_succ_of_next (M := Sys2Proof.core) hnext,
        bfvBytes_cons_of_partial b _ (by exact hrun) (by exact hpart)]
      show Sys2Proof.core.run _ (bfvPlace b (withTodo _ (started s))) = _
      rw [bfvPlace_withTodo, ih (List.cons_ne_nil c cs)]
      · show bfvBytes _ (withTodo rest (started (bfvPlace b (started s)))) =
          bfvBytes _ (bfvPlace b (withTodo rest (started s)))
        rw [bfvPlace_withTodo, hplaced]
        rfl
      · rw [hplaced]; exact hrun
      · rw [hplaced]; exact hcfg
      · rw [hplaced]; exact hrel
      · rw [hplaced]; exact hindex
      · rw [bfvPlace_fill]
        show s.bfv.fill + 1 + (c :: cs).length ≤ 32000
        omega

/-- Settles O13: the frame's bytes are sent from offset 0, and BLOCK places the same bytes. -/
theorem frameIsItsSends : Obligations.FrameIsItsSends := by
  unfold Obligations.FrameIsItsSends
  intro payload crcf rsvd rest s hlen hrun hcfg hfill hrel hindex
  have hall : (payload ++ le16 crcf ++ le16 rsvd).length = 32000 := by simp [hlen]
  have hne : payload ++ le16 crcf ++ le16 rsvd ≠ [] := List.ne_nil_of_length_pos (by omega)
  have hsends := run_sends hne rest hrun hcfg hrel hindex (by omega)
  rw [hall] at hsends
  exact hsends

/-! ## Two blocks -/

/-- A verified block takes BRA where its payload takes it, starts the next frame and keeps the buffer's form. -/
theorem exec_block_of_ok {payload : List Byte} (rsvd : BitVec 16) {s t : State} (hlen : payload.length = 31996)
    (hrun : s.status.runState = .running) (hfill : s.bfv.fill = 0) (hwf : Memory.wf s.bfv.buf)
    (hok : braBytes payload s = .ok t) :
    ∃ m, exec (.block payload (crc payload) rsvd) s =
        .next { t with bfv := { fill := 0, buf := m, trl := 0, index := s.bfv.index + 1, releasing := [] } } ∧
      Memory.wf m := by
  refine ⟨receivedBuf payload s, ?_, storeFrom_wf hwf⟩
  have hbra := braBytes_bfv hok
    { (frameReceived (receivedBuf payload s) (crc payload) rsvd s).bfv with releasing := [] }
  rw [exec_block _ _ hlen hrun hfill, bfvFrameComplete_of_match hlen hwf]
  exact congrArg (fun r => Host.Outcome.next (frameDiscarded r)) hbra

/-- Settles O29: block boundaries are invisible to BRA, which does not depend on the frame registers (R62). -/
theorem payloadsConcatenate : Obligations.PayloadsConcatenate := by
  unfold Obligations.PayloadsConcatenate
  intro p q r1 r2 s t hp hq hrun hfill hwf hok
  rw [braBytes_append] at hok
  obtain ⟨t₁, hfirst, hsecond⟩ := HostCommands.bind_eq_ok hok
  obtain ⟨m₁, hu, hwf₁⟩ := exec_block_of_ok r1 hp hrun hfill hwf hfirst
  have hstatus : t₁.status = s.status := by
    have houtcome := hfirst ▸ braBytes_outcome p s
    cases houtcome with
    | ok _ status => exact status
  obtain ⟨m₂, hv, -⟩ := exec_block_of_ok r2 hq (by exact hstatus ▸ hrun) rfl hwf₁ (braBytes_bfv hsecond
    { fill := 0, buf := m₁, trl := 0, index := s.bfv.index + 1, releasing := [] })
  refine ⟨_, _, hu, hv, rfl, rfl, rfl, ?_⟩
  show s.bfv.index + 1 + 1 = s.bfv.index + 2
  rw [BitVec.add_assoc]
  rfl

end Sys2Proof.BlockFrame
end

section
/-! PROOFS. Expression nodes (`44_recipe_interpreter.md` R243 to R251): what a node leaves, and its errors. -/

namespace Sys2Proof.ExpressionNodes

open Machine Claims RecipeInterpreter

/-- The state of the model's raise is the one the statements name (R284). -/
theorem raiseRin_eq_rinFailed (code : RinCode) (aux : Nat) (s : State) : raiseRin code aux s = rinFailed code aux s :=
  rfl

theorem rinEval_of_error {ctx : Record} {e : Expr} {code : RinCode} {aux : Nat} (h : eval ctx e = .error (code, aux))
    (s : State) : rinEval ctx e s = .error (rinFailed code aux s) := by
  rw [rinEval, h]
  rfl

theorem exec_ofExpr_of_ok {e : Expr} {v : Int} {s : State} (h : eval s.rin.ctx e = .ok v) :
    exec (.ofExpr e) s = .next (withVal v s) := by
  rw [exec_ofExpr, execNode, rinEval_of_ok h]

theorem exec_ofExpr_of_error {e : Expr} {code : RinCode} {aux : Nat} {s : State}
    (h : eval s.rin.ctx e = .error (code, aux)) : exec (.ofExpr e) s = .next (rinFailed code aux s) := by
  rw [exec_ofExpr, execNode, rinEval_of_error h]

/-- A raise adds an entry to RIN_OUT, which a value does not. -/
theorem rinFailed_ne_withVal (code : RinCode) (aux : Nat) (v : Int) (s : State) :
    rinFailed code aux s ≠ withVal v s := by
  intro h
  have hout : s.queues.rinOut ++ [.fail s.rin.bankId code] = s.queues.rinOut := congrArg (·.queues.rinOut) h
  simp at hout

/-- Settles O42: a value is left in `val`, and an error leaves another state. -/
theorem nodeLeavesValue : Obligations.NodeLeavesValue := by
  unfold Obligations.NodeLeavesValue
  intro e v s
  refine ⟨exec_ofExpr_of_ok, fun hexec => ?_⟩
  cases heval : eval s.rin.ctx e with
  | ok w =>
    rw [exec_ofExpr_of_ok heval] at hexec
    have hval : w = v := congrArg (·.rin.val) (Host.Outcome.next.inj hexec)
    rw [hval]
  | error x =>
    rw [exec_ofExpr_of_error heval] at hexec
    exact absurd (Host.Outcome.next.inj hexec) (rinFailed_ne_withVal x.1 x.2 v s)

/-! ## LIT and REF -/

theorem eval_ref_of_absent {ctx : Record} {sym : Sym} (h : mapFind sym.toNat ctx = none) :
    eval ctx (.ref sym) = .error (.unresolvedSymbol, sym.toNat) := by
  simp only [eval, evalRef, h]

theorem eval_ref_of_int {ctx : Record} {sym : Sym} {n : Int} (h : mapFind sym.toNat ctx = some (.scalar (.int n))) :
    eval ctx (.ref sym) = .ok n := by
  simp only [eval, evalRef, h]

theorem eval_ref_of_not_int {ctx : Record} {sym : Sym} {v : Value} (h : mapFind sym.toNat ctx = some v)
    (hv : ∀ n, v ≠ .scalar (.int n)) : eval ctx (.ref sym) = .error (.notScalarInteger, sym.toNat) := by
  rcases v with (n | _ | _) | items
  · exact absurd rfl (hv n)
  all_goals simp only [eval, evalRef, h]

/-- Settles O40: the three outcomes of looking a symbol up. -/
theorem literalAndReferenceRun : Obligations.LiteralAndReferenceRun := by
  unfold Obligations.LiteralAndReferenceRun
  intro s
  exact ⟨fun n => ⟨rfl, exec_ofExpr_of_ok (e := .lit n) rfl⟩,
    fun sym n h => exec_ofExpr_of_ok (e := .ref sym) (eval_ref_of_int h),
    fun sym => ⟨rfl, fun h => exec_ofExpr_of_error (e := .ref sym) (eval_ref_of_absent h)⟩,
    fun sym v h hv => exec_ofExpr_of_error (e := .ref sym) (eval_ref_of_not_int h hv)⟩

/-! ## Comparisons -/

theorem eval_cmp_of_ok {ctx : Record} {lhs rhs : Expr} {x y : Int} (op : CmpOp) (hx : eval ctx lhs = .ok x)
    (hy : eval ctx rhs = .ok y) : eval ctx (.cmp op lhs rhs) = .ok (if cmpHolds op x y then 1 else 0) := by
  simp only [eval, hx, hy, cmpValue]

theorem eval_cmp_of_left_error {ctx : Record} {lhs : Expr} {code : RinCode} {aux : Nat} (op : CmpOp) (rhs : Expr)
    (hx : eval ctx lhs = .error (code, aux)) : eval ctx (.cmp op lhs rhs) = .error (code, aux) := by
  simp only [eval, hx]

theorem eval_cmp_of_right_error {ctx : Record} {lhs rhs : Expr} {x : Int} {code : RinCode} {aux : Nat} (op : CmpOp)
    (hx : eval ctx lhs = .ok x) (hy : eval ctx rhs = .error (code, aux)) :
    eval ctx (.cmp op lhs rhs) = .error (code, aux) := by
  simp only [eval, hx, hy]

/-- A comparison whose sides have values leaves 1 where the relation holds and 0 otherwise. -/
theorem exec_compare_of_ok {lhs rhs : Expr} {x y : Int} {s : State} {p : Prop} [Decidable p] (op : CmpOp)
    (hx : eval s.rin.ctx lhs = .ok x) (hy : eval s.rin.ctx rhs = .ok y) (hp : cmpHolds op x y = true ↔ p) :
    exec (.compare op lhs rhs) s = .next (withVal (if p then 1 else 0) s) := by
  rw [← if_congr hp rfl rfl]
  exact exec_ofExpr_of_ok (e := .cmp op lhs rhs) (eval_cmp_of_ok op hx hy)

/-- Settles O41: each operator's relation, and the error of the first side that has one. -/
theorem comparisonsRun : Obligations.ComparisonsRun := by
  unfold Obligations.ComparisonsRun
  intro lhs rhs s
  refine ⟨⟨rfl, rfl, rfl, rfl, rfl, rfl⟩, fun x y hx hy => ?_, fun op code aux hx => ?_, fun op x code aux hx hy => ?_⟩
  · exact ⟨exec_compare_of_ok .eq hx hy beq_iff_eq, exec_compare_of_ok .ne hx hy bne_iff_ne,
      exec_compare_of_ok .lt hx hy decide_eq_true_iff, exec_compare_of_ok .le hx hy decide_eq_true_iff,
      exec_compare_of_ok .gt hx hy decide_eq_true_iff, exec_compare_of_ok .ge hx hy decide_eq_true_iff⟩
  · exact exec_ofExpr_of_error (e := .cmp op lhs rhs) (eval_cmp_of_left_error op rhs hx)
  · exact exec_ofExpr_of_error (e := .cmp op lhs rhs) (eval_cmp_of_right_error op hx hy)

end Sys2Proof.ExpressionNodes
end

section
/-! PROOFS. The operation of a recipe (`44_recipe_interpreter.md` R226, R242, R252 to R259): its steps by outcome, the
plain and the looped form, and where each of them fails. -/

namespace Sys2Proof.RecipeOperation

open Machine Claims RecipeInterpreter ExpressionNodes

/-! ## Conditions and counts -/

theorem rinTest_of_error {ctx : Record} {e : Expr} {code : RinCode} {aux : Nat}
    (h : eval ctx e = .error (code, aux)) (s : State) : rinTest ctx (some e) s = .error (rinFailed code aux s) := by
  simp only [rinTest, rinEval_of_error h, bind, Except.bind]

/-- A condition that holds changes the last value at most. -/
theorem rinTest_of_condHolds {ctx : Record} {cond : Option Expr} (h : condHolds ctx cond) (s : State) :
    ∃ v, rinTest ctx cond s = .ok (true, withVal v s) := by
  rcases h with rfl | ⟨e, v, rfl, heval, hv⟩
  · exact ⟨s.rin.val, rfl⟩
  · refine ⟨v, ?_⟩
    rw [rinTest_some_of_ok heval, truth, bne_iff_ne.mpr hv]

theorem rinCount_of_error {ctx : Record} {e : Expr} {code : RinCode} {aux : Nat} (h : eval ctx e = .error (code, aux))
    (s : State) : rinCount ctx e s = .error (rinFailed code aux s) := by
  simp only [rinCount, rinEval_of_error h, bind, Except.bind]

theorem rinCount_of_negative {ctx : Record} {e : Expr} {c : Int} (h : eval ctx e = .ok c) (hc : c < 0) (s : State) :
    rinCount ctx e s = .error (rinFailed .negativeCount 0 (withVal c s)) := by
  simp only [rinCount, rinEval_of_ok h, bind, Except.bind, if_pos hc, raiseRin_eq_rinFailed]

/-! ## Reading values -/

theorem valuesRead_valuesRead (ty : ExtractType) (m k : Nat) (s : State) :
    valuesRead ty k (valuesRead ty m s) = valuesRead ty (m + k) s := by
  simp only [valuesRead, Nat.add_mul, Nat.add_assoc]

theorem valuesFit_of_le {ty : ExtractType} {m n : Nat} {s : State} (h : valuesFit ty n s) (hmn : m ≤ n) :
    valuesFit ty m s := by
  have hbytes := Nat.mul_le_mul_right (storageBytes ty) hmn
  obtain ⟨hdata, hcap⟩ := h
  exact ⟨by omega, by omega⟩

theorem valuesFit_valuesRead {ty : ExtractType} {m k : Nat} {s : State} (h : valuesFit ty (m + k) s) :
    valuesFit ty k (valuesRead ty m s) := by
  obtain ⟨hdata, hcap⟩ := h
  rw [Nat.add_mul] at hdata
  refine ⟨?_, ?_⟩ <;> simp only [valuesRead] <;> omega

theorem extractList_of_fit {ty : ExtractType} {n : Nat} {s : State} (h : valuesFit ty n s) :
    extractList ty n s = .ok (valuesAt ty s.rin.data s.rin.cursor n, valuesRead ty n s) := extractList_fits ty n h.1 h.2

/-- The first value that cannot be read ends the reading (R242). -/
theorem extractList_of_error {ty : ExtractType} {n k : Nat} {s u : State} (hk : k < n) (hfit : valuesFit ty k s)
    (herr : extract ty (valuesRead ty k s) = .error u) : extractList ty n s = .error u := by
  induction k generalizing n s with
  | zero =>
    obtain ⟨n, rfl⟩ := Nat.exists_eq_add_one_of_ne_zero (Nat.ne_of_gt hk)
    have hhere : extract ty s = .error u := by simpa [valuesRead] using herr
    simp only [extractList, hhere, bind, Except.bind]
  | succ k ih =>
    obtain ⟨n, rfl⟩ := Nat.exists_eq_add_one_of_ne_zero (Nat.ne_zero_of_lt hk)
    have hone := extractList_of_fit (valuesFit_of_le hfit (Nat.succ_le_succ (Nat.zero_le k)))
    simp only [extractList, bind, Except.bind] at hone
    have hfirst : ∃ v, extract ty s = .ok (v, valuesRead ty 1 s) := by
      cases h : extract ty s with
      | error e => simp [h] at hone
      | ok p =>
        simp only [h, pure, Except.pure, Except.ok.injEq, Prod.mk.injEq] at hone
        exact ⟨p.1, by rw [← hone.2]⟩
    obtain ⟨v, hv⟩ := hfirst
    rw [Nat.add_comm] at hfit
    have hrest := ih (n := n) (Nat.lt_of_succ_lt_succ hk) (valuesFit_valuesRead hfit)
      (by rwa [valuesRead_valuesRead, Nat.add_comm])
    simp only [extractList, hv, bind, Except.bind, hrest]

/-- The value after `k` others does not fit the data (R226, R259). -/
theorem extract_truncated {ty : ExtractType} {k : Nat} {s : State}
    (h : s.rin.data.length < s.rin.cursor + (k + 1) * storageBytes ty) :
    extract ty (valuesRead ty k s) =
      .error (rinFailed .truncatedPayload (storageBytes ty) (valuesRead ty k s)) := by
  rw [Nat.succ_mul] at h
  exact if_pos (by simp only [valuesRead]; omega)

/-- The value after `k` others fits the data and is one too many (R226). -/
theorem extract_full {ty : ExtractType} {k : Nat} {s : State}
    (hdata : s.rin.cursor + (k + 1) * storageBytes ty ≤ s.rin.data.length)
    (hfull : s.rin.nvals + k = s.params.maxResultValues) :
    extract ty (valuesRead ty k s) = .error (rinFailed .capacity 0 (valuesRead ty k s)) := by
  rw [Nat.succ_mul] at hdata
  rcases extract_cases ty (valuesRead ty k s) with ⟨hshort, -⟩ | ⟨-, -, h⟩ | ⟨-, hroom, -⟩
  · simp only [valuesRead] at hshort
    omega
  · exact h
  · exact absurd hfull hroom

theorem itemOf_eq_loopElement (vs : List Scalar) : itemOf vs = loopElement vs := by
  rcases vs with _ | ⟨v, _ | ⟨w, vs⟩⟩ <;> rfl

theorem itemValue_itemOf (vs : List Scalar) : itemValue (itemOf vs) = plainValue vs := by
  rcases vs with _ | ⟨v, _ | ⟨w, vs⟩⟩ <;> rfl

theorem extractItem_of_fit {ty : ExtractType} {n : Nat} {s : State} (h : valuesFit ty n s) :
    extractItem ty n s = .ok (itemOf (valuesAt ty s.rin.data s.rin.cursor n), valuesRead ty n s) := by
  simp only [extractItem, extractList_of_fit h, bind, Except.bind, pure, Except.pure]

theorem extractItem_of_error {ty : ExtractType} {n k : Nat} {s u : State} (hk : k < n) (hfit : valuesFit ty k s)
    (herr : extract ty (valuesRead ty k s) = .error u) : extractItem ty n s = .error u := by
  simp only [extractItem, extractList_of_error hk hfit herr, bind, Except.bind]

/-! ## The operation by outcome -/

theorem rinOp_of_test_error {ty : ExtractType} {a : Extract} {s u : State}
    (htest : rinTest s.rin.ctx a.cond s = .error u) : rinOp ty a s = .error u := by
  simp only [rinOp, htest, bind, Except.bind]

theorem rinOp_of_value_error {ty : ExtractType} {a : Extract} {s t u : State}
    (htest : rinTest s.rin.ctx a.cond s = .ok (true, t)) (hvalue : rinValue ty a t = .error u) :
    rinOp ty a s = .error u := by
  simp only [rinOp, htest, bind, Except.bind, if_true, hvalue]

/-- Where the condition holds, the value that is read is stored. -/
theorem exec_extract_of_value_ok {ty : ExtractType} {a : Extract} {x : Value} {s t : State}
    (hcond : condHolds s.rin.ctx a.cond) (hvalue : ∀ v, rinValue ty a (withVal v s) = .ok (x, t)) :
    exec (.extract ty a) s = .next (fieldStored a.field x t) := by
  obtain ⟨v, htest⟩ := rinTest_of_condHolds hcond s
  rw [exec_extract, rinOp_of_value_ok htest (hvalue v)]
  rfl

/-- Where the condition holds, an error of the value is the operation's. -/
theorem exec_extract_of_value_error {ty : ExtractType} {a : Extract} {s u : State}
    (hcond : condHolds s.rin.ctx a.cond) (hvalue : ∀ v, rinValue ty a (withVal v s) = .error u) :
    exec (.extract ty a) s = .next u := by
  obtain ⟨v, htest⟩ := rinTest_of_condHolds hcond s
  rw [exec_extract, rinOp_of_value_error htest (hvalue v)]
  rfl

/-- The count of a plain operation, or the bound of a looped one: what is evaluated first (R252). -/
def FirstCount (a : Extract) (e : Expr) : Prop := (a.loop = none ∧ e = a.count) ∨ ∃ l, a.loop = some l ∧ e = l.bound

theorem rinValue_of_count_error {ty : ExtractType} {a : Extract} {e : Expr} {s u : State} (he : FirstCount a e)
    (hcount : rinCount s.rin.ctx e s = .error u) : rinValue ty a s = .error u := by
  rcases he with ⟨hloop, rfl⟩ | ⟨l, hloop, rfl⟩
  · simp only [rinValue, hloop, hcount, bind, Except.bind]
  · simp only [rinValue, hloop, hcount, bind, Except.bind]

theorem rinValue_plain_of_item_error {ty : ExtractType} {a : Extract} {c : Nat} {s u : State} (hloop : a.loop = none)
    (hcount : eval s.rin.ctx a.count = .ok (c : Int)) (hitem : extractItem ty c (withVal c s) = .error u) :
    rinValue ty a s = .error u := by
  simp only [rinValue, hloop, rinCount_of_ok hcount, bind, Except.bind, hitem]

/-- Settles O34: the count's values are read in one go. -/
theorem plainOperationStores : Obligations.PlainOperationStores := by
  unfold Obligations.PlainOperationStores
  intro ty a c s hloop hcond hcount hfit
  refine exec_extract_of_value_ok hcond fun v => ?_
  have hitem : extractItem ty c (withVal c (withVal v s)) = .ok (itemOf (valuesAt ty s.rin.data s.rin.cursor c),
      valuesRead ty c (withVal c s)) := extractItem_of_fit (s := withVal c s) hfit
  rw [rinValue_plain_of_ok (s := withVal v s) hloop hcount hitem, itemValue_itemOf]

/-- Settles O38: each error comes from the first step that fails. -/
theorem operationErrors : Obligations.OperationErrors := by
  unfold Obligations.OperationErrors
  intro ty a s
  refine ⟨fun e code aux hcond heval => ?_, fun hcond => ⟨fun e code aux he heval => ?_, fun e c he heval hc => ?_,
    fun c k hloop hcount hk hfit => ?_⟩⟩
  · rw [exec_extract, rinOp_of_test_error (hcond ▸ rinTest_of_error heval s)]
    rfl
  · obtain ⟨v, htest⟩ := rinTest_of_condHolds hcond s
    refine ⟨v, ?_⟩
    rw [exec_extract, rinOp_of_value_error htest (rinValue_of_count_error he (rinCount_of_error heval (withVal v s)))]
    rfl
  · exact exec_extract_of_value_error hcond fun v =>
      rinValue_of_count_error he (rinCount_of_negative heval hc (withVal v s))
  · have hvalue : ∀ u, extract ty (valuesRead ty k (withVal c s)) = .error u →
        exec (.extract ty a) s = .next u := fun u herr =>
      exec_extract_of_value_error hcond fun v => rinValue_plain_of_item_error (s := withVal v s) hloop hcount
        (extractItem_of_error (s := withVal c s) hk hfit herr)
    exact ⟨fun hshort => hvalue _ (extract_truncated (s := withVal c s) hshort),
      fun hdata hfull => hvalue _ (extract_full (s := withVal c s) hdata hfull)⟩

/-! ## Iterations -/

theorem readBefore_succ (go : Nat → Bool) (cnt : Nat → Nat) (n : Nat) :
    readBefore go cnt (n + 1) = readBefore go cnt n + if go n then cnt n else 0 := by
  simp [readBefore, List.range_succ]

/-- The guard of an iteration evaluates to whether it runs. -/
theorem rinTest_guard {l : Loop} {go : Nat → Bool} {n i : Nat} {s : State} (hguards : guardsAre l go n s) (hi : i < n)
    (u : State) : ∃ v, rinTest (iterationCtx l i s) l.guard u = .ok (go i, withVal v u) := by
  have hguard := hguards i hi
  cases hg : l.guard with
  | none =>
    rw [hg] at hguard
    exact ⟨u.rin.val, by rw [hguard]; rfl⟩
  | some g =>
    rw [hg] at hguard
    obtain ⟨v, heval, hgo⟩ := hguard
    exact ⟨v, by rw [hgo]; exact rinTest_some_of_ok heval u⟩

/-- The element of iteration `i` where `m` values have been read before it. -/
def elementAt (ty : ExtractType) (m c : Nat) (s : State) : Item :=
  loopElement (valuesAt ty s.rin.data (s.rin.cursor + m * storageBytes ty) c)

theorem rinIteration_of_guard {ty : ExtractType} {count : Expr} {l : Loop} {i m : Nat} {go : Bool} {v w : Int}
    {s : State} (htest : rinTest (iterationCtx l i s) l.guard (valuesRead ty m (withVal v s)) =
      .ok (go, valuesRead ty m (withVal w s))) :
    rinIteration ty count l i (valuesRead ty m (withVal v s)) =
      if go then
        rinCount (iterationCtx l i s) count (valuesRead ty m (withVal w s)) >>= fun c =>
          extractItem ty c.1 c.2 >>= fun item => pure ([item.1], item.2)
      else .ok ([], valuesRead ty m (withVal w s)) := by
  have htest' : rinTest (bindLoopVar l.var i (valuesRead ty m (withVal v s)).rin.ctx) l.guard
      (valuesRead ty m (withVal v s)) = .ok (go, valuesRead ty m (withVal w s)) := htest
  simp only [rinIteration, htest', bind, Except.bind]
  rfl

/-- An iteration that succeeds: it reads its count's values and adds one element, or reads and adds nothing. -/
theorem rinIteration_of_ok {ty : ExtractType} {count : Expr} {l : Loop} {go : Nat → Bool} {cnt : Nat → Nat}
    {n i m : Nat} {s : State} (hguards : guardsAre l go n s) (hcounts : countsAre count l go cnt n s) (hi : i < n)
    (hfit : valuesFit ty (m + if go i then cnt i else 0) s) (v : Int) :
    ∃ w, rinIteration ty count l i (valuesRead ty m (withVal v s)) =
      .ok (if go i then [elementAt ty m (cnt i) s] else [],
        valuesRead ty (m + if go i then cnt i else 0) (withVal w s)) := by
  obtain ⟨w, htest⟩ := rinTest_guard hguards hi (valuesRead ty m (withVal v s))
  have hiter := rinIteration_of_guard (count := count) (w := w) htest
  cases hgo : go i with
  | false =>
    rw [hgo] at hiter
    exact ⟨w, hiter⟩
  | true =>
    rw [hgo, if_pos rfl, rinCount_of_ok (hcounts i hi hgo)] at hiter
    rw [hgo, if_pos rfl] at hfit
    have hitem := extractItem_of_fit (valuesFit_valuesRead (s := withVal (cnt i) s) hfit)
    rw [valuesRead_valuesRead] at hitem
    refine ⟨cnt i, hiter.trans ?_⟩
    show (extractItem ty (cnt i) (valuesRead ty m (withVal (cnt i) s)) >>= _) = _
    rw [hitem, itemOf_eq_loopElement]
    rfl

theorem rinLoop_add (ty : ExtractType) (count : Expr) (l : Loop) (n m i : Nat) (s : State) :
    rinLoop ty count l (n + m) i s =
      rinLoop ty count l n i s >>= fun p => rinLoop ty count l m (i + n) p.2 >>= fun q => pure (p.1 ++ q.1, q.2) := by
  induction n generalizing i s with
  | zero =>
    rw [Nat.zero_add, Nat.add_zero, rinLoop]
    show _ = rinLoop ty count l m i s >>= fun q => pure q
    rw [bind_pure]
  | succ n ih =>
    rw [Nat.succ_add_eq_add_succ, Nat.add_succ, rinLoop, rinLoop, bind_assoc]
    congr 1
    funext p
    simp only [ih, bind_assoc, pure_bind, Nat.add_right_comm i 1 n, Nat.add_assoc i n 1, List.append_assoc]

/-- The elements of the first `n` iterations, in order (R256). -/
def loopElements (ty : ExtractType) (go : Nat → Bool) (cnt : Nat → Nat) (n : Nat) (s : State) : List Item :=
  ((List.range n).filter go).map fun i => elementAt ty (readBefore go cnt i) (cnt i) s

/-- The first `n` iterations, where they all succeed (R252, R254). -/
theorem rinLoop_of_ok {ty : ExtractType} {count : Expr} {l : Loop} {go : Nat → Bool} {cnt : Nat → Nat} {n : Nat}
    {s : State} (hguards : guardsAre l go n s) (hcounts : countsAre count l go cnt n s)
    (hfit : valuesFit ty (readBefore go cnt n) s) (v : Int) :
    ∃ w, rinLoop ty count l n 0 (withVal v s) =
      .ok (loopElements ty go cnt n s, valuesRead ty (readBefore go cnt n) (withVal w s)) := by
  induction n with
  | zero => exact ⟨v, by simp [rinLoop, loopElements, readBefore, valuesRead]⟩
  | succ n ih =>
    have hle : readBefore go cnt n ≤ readBefore go cnt (n + 1) := by
      rw [readBefore_succ]
      exact Nat.le_add_right _ _
    obtain ⟨w, hfirst⟩ := ih (fun i hi => hguards i (Nat.lt_succ_of_lt hi))
      (fun i hi => hcounts i (Nat.lt_succ_of_lt hi)) (valuesFit_of_le hfit hle)
    obtain ⟨w', hlast⟩ := rinIteration_of_ok hguards hcounts (Nat.lt_succ_self n) (readBefore_succ go cnt n ▸ hfit) w
    refine ⟨w', ?_⟩
    rw [rinLoop_add, hfirst]
    show (rinLoop ty count l 1 (0 + n) _ >>= _) = _
    simp only [rinLoop, Nat.zero_add, hlast, bind, Except.bind, pure, Except.pure, List.append_nil]
    rw [← readBefore_succ]
    congr 2
    cases hgo : go n <;> simp [loopElements, List.range_succ, hgo]

/-- A loop ends at the first iteration that fails (R252). -/
theorem rinLoop_of_error {ty : ExtractType} {count : Expr} {l : Loop} {n j : Nat} {items : List Item} {s t u : State}
    (hj : j < n) (hfirst : rinLoop ty count l j 0 s = .ok (items, t)) (herr : rinIteration ty count l j t = .error u) :
    rinLoop ty count l n 0 s = .error u := by
  obtain ⟨k, rfl⟩ := Nat.exists_eq_add_of_lt hj
  rw [Nat.add_assoc, rinLoop_add, hfirst]
  show (rinLoop ty count l (k + 1) (0 + j) t >>= _) = _
  rw [Nat.zero_add, rinLoop, herr]
  rfl

theorem rinValue_looped {ty : ExtractType} {a : Extract} {l : Loop} {n : Nat} {s : State} (hloop : a.loop = some l)
    (hbound : eval s.rin.ctx l.bound = .ok (n : Int)) :
    rinValue ty a s = rinLoop ty a.count l n 0 (withVal n s) >>= fun p => pure (.seq p.1, p.2) := by
  simp only [rinValue, hloop, rinCount_of_ok hbound, bind, Except.bind]

/-- Settles O36: the bound's iterations all succeed, and their elements are stored. -/
theorem loopedOperationStores : Obligations.LoopedOperationStores := by
  unfold Obligations.LoopedOperationStores
  intro ty a l n go cnt s hloop hcond hbound hguards hcounts hfit
  obtain ⟨w, hall⟩ := rinLoop_of_ok hguards hcounts hfit n
  refine ⟨w, exec_extract_of_value_ok hcond fun v => ?_⟩
  have hvalue := rinValue_looped (ty := ty) (s := withVal v s) hloop hbound
  rw [hvalue]
  show (rinLoop ty a.count l n 0 (withVal n s) >>= _) = _
  rw [hall]
  rfl

section FailingIteration

variable {ty : ExtractType} {a : Extract} {l : Loop} {n j : Nat} {go : Nat → Bool} {cnt : Nat → Nat} {s : State}
  (hloop : a.loop = some l) (hcond : condHolds s.rin.ctx a.cond) (hbound : eval s.rin.ctx l.bound = .ok (n : Int))
  (hj : j < n) (hguards : guardsAre l go j s) (hcounts : countsAre a.count l go cnt j s)
  (hfit : valuesFit ty (readBefore go cnt j) s)

include hloop hcond hbound hj hguards hcounts hfit

/-- Where the first `j` iterations succeed, an error of iteration `j` is the operation's. -/
theorem exec_extract_of_iteration_error :
    ∃ w, ∀ u, rinIteration ty a.count l j (valuesRead ty (readBefore go cnt j) (withVal w s)) = .error u →
      exec (.extract ty a) s = .next u := by
  obtain ⟨w, hfirst⟩ := rinLoop_of_ok hguards hcounts hfit n
  refine ⟨w, fun u herr => exec_extract_of_value_error hcond fun v => ?_⟩
  have hvalue := rinValue_looped (ty := ty) (s := withVal v s) hloop hbound
  rw [hvalue]
  show (rinLoop ty a.count l n 0 (withVal n s) >>= _) = _
  rw [rinLoop_of_error hj hfirst herr]
  rfl

/-- The guard of iteration `j` holds: what follows is its count and its values. -/
theorem exec_extract_of_count (hguard : condHolds (iterationCtx l j s) l.guard) :
    ∃ w, ∀ u, (rinCount (iterationCtx l j s) a.count (valuesRead ty (readBefore go cnt j) (withVal w s)) >>= fun c =>
        extractItem ty c.1 c.2 >>= fun item => pure ([item.1], item.2)) = .error u →
      exec (.extract ty a) s = .next u := by
  obtain ⟨v, hop⟩ := exec_extract_of_iteration_error hloop hcond hbound hj hguards hcounts hfit
  obtain ⟨w, htest⟩ := rinTest_of_condHolds hguard (valuesRead ty (readBefore go cnt j) (withVal v s))
  have hiter := rinIteration_of_guard (ty := ty) (count := a.count) (go := true) (w := w) htest
  exact ⟨w, fun u herr => hop u (hiter.trans herr)⟩

end FailingIteration

/-- Settles O37: iteration `j` fails in its guard, in its count or at one of its values. -/
theorem loopedOperationFails : Obligations.LoopedOperationFails := by
  unfold Obligations.LoopedOperationFails
  intro ty a l n j go cnt s hloop hcond hbound hj hguards hcounts hfit
  refine ⟨fun g code aux hg heval => ?_, fun hguard => ?_⟩
  · obtain ⟨w, hop⟩ := exec_extract_of_iteration_error hloop hcond hbound hj hguards hcounts hfit
    have htest := rinTest_of_error heval (valuesRead ty (readBefore go cnt j) (withVal w s))
    rw [← hg] at htest
    exact ⟨w, hop _ (congrArg (· >>= _) htest)⟩
  · obtain ⟨w, hop⟩ := exec_extract_of_count hloop hcond hbound hj hguards hcounts hfit hguard
    refine ⟨fun code aux heval => ⟨w, hop _ ?_⟩, fun c heval hc => hop _ ?_, fun c k heval hk hfitk => ?_⟩
    · rw [rinCount_of_error heval]
      rfl
    · rw [rinCount_of_negative heval hc]
      rfl
    · have hvalue : ∀ u, extract ty (valuesRead ty (readBefore go cnt j + k) (withVal c s)) = .error u →
          exec (.extract ty a) s = .next u := fun u herr => by
        refine hop u ?_
        rw [rinCount_of_ok heval]
        show (extractItem ty c (valuesRead ty (readBefore go cnt j) (withVal c s)) >>= _) = _
        rw [extractItem_of_error hk (valuesFit_valuesRead (s := withVal c s) hfitk)
          (by rw [valuesRead_valuesRead]; exact herr)]
        rfl
      exact ⟨fun hshort => hvalue _ (extract_truncated (s := withVal c s) hshort),
        fun hdata hfull => hvalue _ (extract_full (s := withVal c s) hdata hfull)⟩

/-! ## The count's node -/

/-- A plain operation with no condition, and the count it stands with. -/
def plain (field : Sym) (count : Expr) : Extract := { field := field, cond := none, loop := none, count := count }

/-- A plain operation depends on its count through the value that the count leaves. -/
theorem rinOp_plain_of_count {ty : ExtractType} {field : Sym} {e e' : Expr} {s s' : State}
    (h : rinCount s.rin.ctx e s = rinCount s'.rin.ctx e' s') :
    rinOp ty (plain field e) s = rinOp ty (plain field e') s' := by
  simp only [rinOp, plain, rinTest, rinValue, h, bind, Except.bind, if_true]

/-- Settles O31: the operation's first step evaluates the count as its node does. -/
theorem operationRunsCountNode : Obligations.OperationRunsCountNode := by
  unfold Obligations.OperationRunsCountNode
  intro ty field count s t hbusy hnode
  have hop : ∀ u, rinCount s.rin.ctx count s = .error u → exec (.extract ty (plain field count)) s = .next u := by
    intro u hcount
    have hvalue := rinValue_of_count_error (ty := ty) (a := plain field count) (.inl ⟨rfl, rfl⟩) hcount
    rw [exec_extract, rinOp_of_value_error (t := s) rfl hvalue]
    rfl
  cases heval : eval s.rin.ctx count with
  | ok v =>
    rw [exec_ofExpr_of_ok heval] at hnode
    obtain rfl := Host.Outcome.next.inj hnode
    refine ⟨fun h => absurd hbusy h, fun _ hneg => hop _ (rinCount_of_negative heval hneg s), fun _ hpos => ?_⟩
    obtain ⟨c, rfl⟩ : ∃ c : Nat, v = c := ⟨v.toNat, (Int.toNat_of_nonneg hpos).symm⟩
    have hlit : eval (withVal (c : Int) s).rin.ctx (.lit (c : Int)) = .ok (c : Int) := rfl
    have hcount : rinCount s.rin.ctx count s =
        rinCount (withVal (c : Int) s).rin.ctx (.lit (c : Int)) (withVal c s) := by
      rw [rinCount_of_ok heval, rinCount_of_ok hlit]
      rfl
    rw [exec_extract, exec_extract]
    exact congrArg (fun r => Host.Outcome.next (settle r)) (rinOp_plain_of_count hcount)
  | error x =>
    rw [exec_ofExpr_of_error heval] at hnode
    obtain rfl := Host.Outcome.next.inj hnode
    exact ⟨fun _ => hop _ (rinCount_of_error heval s), nofun, nofun⟩

/-! ## The frame of an operation -/

/-- Settles O39: the two ways an operation goes on, and the one way it ends the command. -/
theorem operationFrame : Obligations.OperationFrame := by
  unfold Obligations.OperationFrame
  intro ty a s
  refine ⟨_, exec_extract ty a s, ?_⟩
  have houtcome := rinOp_outcome ty a s
  generalize rinOp ty a s = r at houtcome
  have honly := HostCommands.RinOnly.of_outcome houtcome
  refine ⟨honly.sameStream, by rw [honly]; exact ⟨rfl, rfl, rfl⟩, by rw [honly], ?_⟩
  cases houtcome with
  | @skipped t reads _ =>
    have hforward := reads.forward
    rw [reads.eq]
    exact ⟨rfl, rfl, rfl, hforward, .inl ⟨rfl, rfl, rfl, rfl, rfl, rfl, rfl, fun _ _ => rfl⟩⟩
  | @stored t v reads =>
    have hforward := reads.forward
    rw [reads.eq]
    refine ⟨rfl, rfl, rfl, hforward, .inl ⟨rfl, rfl, rfl, rfl, rfl, rfl, rfl, fun k hk => ?_⟩⟩
    exact (mapFind_mapInsert _ _ _ _).trans (if_neg hk)
  | @failed u code aux reads hcode =>
    have hforward := reads.forward
    rw [reads.eq]
    exact ⟨rfl, rfl, rfl, hforward, .inr ⟨rfl, rfl, rfl, hcode.1, hcode.2.1, hcode.2.2, rfl, rfl, rfl⟩⟩

end Sys2Proof.RecipeOperation
end

section
/-! PROOFS. DECODE (`44_recipe_interpreter.md` R222 to R225, R261, R262, R286): the checks before a recipe runs, the one
entry it reports, and what the entry depends on. -/

namespace Sys2Proof.DecodeCommand

open Machine Claims HostCommands RecipeOperation

/-! ## The three ways of a DECODE -/

theorem cmdDecode_of_no_recipe {bank : Bank} {s : State} (hidle : s.rin.state ≠ .busy)
    (hfind : mapFind bank.bankId.toNat s.rtab = none) :
    cmdDecode bank s = .next (decodeRejected bank .noRecipe bank.bankId s) := by
  simp only [cmdDecode, if_neg hidle, hfind]
  rfl

theorem cmdDecode_of_malformed {bank : Bank} {s : State} {image : List Byte} {e : DecodeError}
    (hidle : s.rin.state ≠ .busy) (hfind : mapFind bank.bankId.toNat s.rtab = some image)
    (hdec : decodeImage s.params.maxExprDepth image = .error e) :
    cmdDecode bank s = .next (decodeRejected bank .malformedRecipe bank.bankId s) := by
  simp only [cmdDecode, if_neg hidle, hfind, hdec]
  rfl

theorem cmdDecode_of_recipe {bank : Bank} {s : State} {image : List Byte} {recipe : List Instr}
    (hidle : s.rin.state ≠ .busy) (hfind : mapFind bank.bankId.toNat s.rtab = some image)
    (hdec : decodeImage s.params.maxExprDepth image = .ok recipe) :
    cmdDecode bank s = rinRun recipe (recipeStarted bank s) := by
  simp only [cmdDecode, if_neg hidle, hfind, hdec]
  rfl

/-- Settles O43: an image that encodes no well-formed recipe does not decode. -/
theorem recipeCheckedFirst : Obligations.RecipeCheckedFirst := by
  unfold Obligations.RecipeCheckedFirst
  intro bank s hidle
  refine ⟨fun hfind => ⟨_, cmdDecode_of_no_recipe hidle hfind⟩, fun image hfind hbad => ⟨bank.bankId, ?_⟩⟩
  cases hdec : decodeImage s.params.maxExprDepth image with
  | error e => exact cmdDecode_of_malformed hidle hfind hdec
  | ok recipe =>
    obtain ⟨hwf, himage⟩ := (Encoding.imagesAreRecipes _ _ _).mp hdec
    exact absurd himage (hbad recipe hwf)

/-! ## The operations of a recipe -/

/-- The entry that a command reports: the record with the error registers as they were, or a code that is no success
with the last record kept. -/
def Reported (s t : State) : Prop :=
  (t.rin.code = .ok ∧ t.queues.rinOut = s.queues.rinOut ++ [.ok s.rin.bankId t.rin.out] ∧
    t.rin.errPc = s.rin.errPc ∧ t.rin.errCursor = s.rin.errCursor ∧ t.rin.errAux = s.rin.errAux) ∨
  (t.rin.code ≠ .ok ∧ t.queues.rinOut = s.queues.rinOut ++ [.fail s.rin.bankId t.rin.code] ∧ t.rin.out = s.rin.out)

theorem rinRun_cons_of_busy {i : Instr} {is : List Instr} {s t : State} (h : exec i s = .next t)
    (hbusy : t.rin.state = .busy) : rinRun (i :: is) s = rinRun is t := by
  simp only [rinRun, h, if_pos hbusy]

theorem rinRun_cons_of_ended {i : Instr} {is : List Instr} {s t : State} (h : exec i s = .next t)
    (hend : t.rin.state ≠ .busy) : rinRun (i :: is) s = .next t := by
  simp only [rinRun, h, if_neg hend]

/-- The operations run to an end: the last one succeeds or one of them fails (R225, R262). -/
theorem rinRun_reports {is : List Instr} (his : ∀ i ∈ is, IsExtract i) {s : State} (hbusy : s.rin.state = .busy) :
    ∃ t, rinRun is s = .next t ∧ t.rin.state = .done ∧ Reported s t := by
  induction is generalizing s with
  | nil => exact ⟨rinSucceed s, rfl, rfl, .inl ⟨rfl, rfl, rfl, rfl, rfl⟩⟩
  | cons i is ih =>
    obtain ⟨⟨ty, a, rfl⟩, hrest⟩ := List.forall_mem_cons.mp his
    obtain ⟨t, hexec, -, -, -, -, hout, hid, -, hcase⟩ := operationFrame ty a s
    rcases hcase with ⟨-, hstate, -, hpc, hcur, haux, hqueue, -⟩ | ⟨hstate, -, -, hcode, -, -, -, -, hqueue⟩
    · have hgo := hstate.trans hbusy
      obtain ⟨u, hrun, hdone, hreport⟩ := ih hrest hgo
      rw [Reported, hqueue, hid, hpc, hcur, haux, hout] at hreport
      exact ⟨u, (rinRun_cons_of_busy hexec hgo).trans hrun, hdone, hreport⟩
    · exact ⟨t, rinRun_cons_of_ended hexec (by simp [hstate]), hstate, .inr ⟨hcode, hqueue, hout⟩⟩

/-- What only the RIN has changed leaves the other units, the settings and the host's side. -/
theorem RinOnly.frame {s t : State} (h : RinOnly s t) : sameStream s t ∧ sameSettings s t ∧ t.host = s.host := by
  refine ⟨h.sameStream, ?_, ?_⟩ <;> rw [h]
  exact ⟨rfl, rfl, rfl⟩

/-- Settles O44: each of the three ways ends in DONE with one entry. -/
theorem decodeReportsOnce : Obligations.DecodeReportsOnce := by
  unfold Obligations.DecodeReportsOnce
  intro bank s hidle
  suffices h : ∃ t, cmdDecode bank s = .next t ∧ t.rin.state = .done ∧ Reported (recipeStarted bank s) t by
    obtain ⟨t, hcmd, hdone, hreport⟩ := h
    obtain ⟨hstream, hsettings, hhost⟩ := RinOnly.frame (cmdDecode_rinOnly hcmd)
    exact ⟨t, hcmd, hdone, hstream, hsettings, hhost, hreport⟩
  cases hfind : mapFind bank.bankId.toNat s.rtab with
  | none => exact ⟨_, cmdDecode_of_no_recipe hidle hfind, rfl, .inr ⟨nofun, rfl, rfl⟩⟩
  | some image =>
    cases hdec : decodeImage s.params.maxExprDepth image with
    | error e => exact ⟨_, cmdDecode_of_malformed hidle hfind hdec, rfl, .inr ⟨nofun, rfl, rfl⟩⟩
    | ok recipe =>
      rw [cmdDecode_of_recipe hidle hfind hdec]
      exact rinRun_reports (decodeImage_extract hdec) rfl

/-! ## What an operation depends on -/

/-- Two states that an operation cannot tell apart: the parameters and the RIN agree, but for the code and the record
of the last command and the model's own field `val`. -/
structure Agree (s s' : State) : Prop where
  params : s'.params = s.params
  rin : s'.rin = { s.rin with code := s'.rin.code, out := s'.rin.out, val := s'.rin.val }

/-- Two answers of a reading operation that differ in no more than the states do. -/
inductive AgreeRead {α : Type} : Except State (α × State) → Except State (α × State) → Prop
  | ok (a : α) {t t' : State} (h : Agree t t') : AgreeRead (.ok (a, t)) (.ok (a, t'))
  | error (code : RinCode) (aux : Nat) {u u' : State} (h : Agree u u') :
      AgreeRead (.error (raiseRin code aux u)) (.error (raiseRin code aux u'))

theorem AgreeRead.bind {α β : Type} {r r' : Except State (α × State)} {f g : α × State → Except State (β × State)}
    (h : AgreeRead r r') (hf : ∀ a t t', Agree t t' → AgreeRead (f (a, t)) (g (a, t'))) :
    AgreeRead (r >>= f) (r' >>= g) := by
  cases h with
  | ok a h => exact hf a _ _ h
  | error code aux h => exact .error code aux h

section Agreement

variable {s s' : State} (h : Agree s s')

include h

theorem Agree.ctx : s'.rin.ctx = s.rin.ctx := by rw [h.rin]

theorem Agree.data : s'.rin.data = s.rin.data := by rw [h.rin]

theorem Agree.cursor : s'.rin.cursor = s.rin.cursor := by rw [h.rin]

theorem Agree.nvals : s'.rin.nvals = s.rin.nvals := by rw [h.rin]

theorem rinEval_agree (ctx : Record) (e : Expr) : AgreeRead (rinEval ctx e s) (rinEval ctx e s') := by
  simp only [rinEval]
  cases eval ctx e with
  | ok v => exact .ok v ⟨h.params, by rw [h.rin]⟩
  | error x => exact .error x.1 x.2 h

theorem rinTest_agree (ctx : Record) (e : Option Expr) : AgreeRead (rinTest ctx e s) (rinTest ctx e s') := by
  cases e with
  | none => exact .ok true h
  | some e => exact (rinEval_agree h ctx e).bind fun v t t' ht => .ok (truth v) ht

theorem rinCount_agree (ctx : Record) (e : Expr) : AgreeRead (rinCount ctx e s) (rinCount ctx e s') := by
  refine (rinEval_agree h ctx e).bind fun c t t' ht => ?_
  dsimp only
  split
  · exact .error _ _ ht
  · exact .ok _ ht

theorem extract_agree (ty : ExtractType) : AgreeRead (extract ty s) (extract ty s') := by
  simp only [extract, h.data, h.cursor, h.nvals, h.params]
  split
  · exact .error _ _ h
  · split
    · exact .error _ _ h
    · exact .ok _ ⟨rfl, by rw [h.rin]⟩

omit h in
theorem extractList_agree (ty : ExtractType) (n : Nat) {s s' : State} (h : Agree s s') :
    AgreeRead (extractList ty n s) (extractList ty n s') := by
  induction n generalizing s s' with
  | zero => exact .ok [] h
  | succ n ih => exact (extract_agree h ty).bind fun v t t' ht => (ih ht).bind fun vs u u' hu => .ok (v :: vs) hu

theorem extractItem_agree (ty : ExtractType) (c : Nat) : AgreeRead (extractItem ty c s) (extractItem ty c s') :=
  (extractList_agree ty c h).bind fun vs _ _ ht => .ok (itemOf vs) ht

theorem rinIteration_agree (ty : ExtractType) (count : Expr) (l : Loop) (i : Nat) :
    AgreeRead (rinIteration ty count l i s) (rinIteration ty count l i s') := by
  simp only [rinIteration, h.ctx]
  refine (rinTest_agree h _ l.guard).bind fun go t t' ht => ?_
  dsimp only
  split
  · exact (rinCount_agree ht _ count).bind fun c u u' hu =>
      (extractItem_agree hu ty c).bind fun item v v' hv => .ok [item] hv
  · exact .ok [] ht

omit h in
theorem rinLoop_agree (ty : ExtractType) (count : Expr) (l : Loop) (n i : Nat) {s s' : State} (h : Agree s s') :
    AgreeRead (rinLoop ty count l n i s) (rinLoop ty count l n i s') := by
  induction n generalizing i s s' with
  | zero => exact .ok [] h
  | succ n ih =>
    exact (rinIteration_agree h ty count l i).bind fun items t t' ht =>
      (ih (i + 1) ht).bind fun more u u' hu => .ok (items ++ more) hu

theorem rinValue_agree (ty : ExtractType) (a : Extract) : AgreeRead (rinValue ty a s) (rinValue ty a s') := by
  simp only [rinValue, h.ctx]
  split
  · exact (rinCount_agree h _ _).bind fun n t t' ht =>
      (rinLoop_agree ty a.count _ n 0 ht).bind fun items u u' hu => .ok (Value.seq items) hu
  · exact (rinCount_agree h _ _).bind fun c t t' ht =>
      (extractItem_agree ht ty c).bind fun item u u' hu => .ok (itemValue item) hu

/-- An operation that goes on leaves states that agree, and one that fails raises the same error in both. -/
theorem rinOp_agree (ty : ExtractType) (a : Extract) :
    (∃ t t', rinOp ty a s = .ok t ∧ rinOp ty a s' = .ok t' ∧ Agree t t') ∨
    (∃ code aux u u', rinOp ty a s = .error (raiseRin code aux u) ∧ rinOp ty a s' = .error (raiseRin code aux u') ∧
      Agree u u') := by
  simp only [rinOp, h.ctx]
  have htest := rinTest_agree h s.rin.ctx a.cond
  generalize rinTest s.rin.ctx a.cond s = r at htest
  generalize rinTest s.rin.ctx a.cond s' = r' at htest
  cases htest with
  | error code aux hu => exact .inr ⟨code, aux, _, _, rfl, rfl, hu⟩
  | @ok go t t' ht =>
    cases go with
    | false => exact .inl ⟨_, _, rfl, rfl, ht.params, by rw [rinAdvance_rin, rinAdvance_rin, ht.rin]⟩
    | true =>
      have hvalue := rinValue_agree ht ty a
      simp only [bind, Except.bind, if_true]
      generalize rinValue ty a t = q at hvalue
      generalize rinValue ty a t' = q' at hvalue
      cases hvalue with
      | error code aux hu => exact .inr ⟨code, aux, _, _, rfl, rfl, hu⟩
      | ok x hu =>
        exact .inl ⟨_, _, rfl, rfl, hu.params, by
          rw [rinAdvance_rin, rinAdvance_rin, rinStore_rin, rinStore_rin, hu.rin]⟩

end Agreement

theorem rinOp_ok {ty : ExtractType} {a : Extract} {s t : State} (h : rinOp ty a s = .ok t) :
    t.rin.state = s.rin.state ∧ t.queues = s.queues := by
  have houtcome := rinOp_outcome ty a s
  rw [h] at houtcome
  cases houtcome with
  | skipped reads _ => rw [reads.eq]; exact ⟨rfl, rfl⟩
  | stored v reads => rw [reads.eq]; exact ⟨rfl, rfl⟩

theorem rinOp_error_queues {ty : ExtractType} {a : Extract} {s u : State} (h : rinOp ty a s = .error u) :
    u.queues.rinOut = s.queues.rinOut ++ [.fail u.rin.bankId u.rin.code] := by
  have houtcome := rinOp_outcome ty a s
  rw [h] at houtcome
  cases houtcome with
  | failed code aux reads _ => rw [reads.eq]; rfl

/-- The two commands end with the same entry, code and error registers. -/
def SameReport (s s' t t' : State) : Prop :=
  ∃ entry, t.queues.rinOut = s.queues.rinOut ++ [entry] ∧ t'.queues.rinOut = s'.queues.rinOut ++ [entry] ∧
    t'.rin.code = t.rin.code ∧ t'.rin.errPc = t.rin.errPc ∧ t'.rin.errCursor = t.rin.errCursor ∧
    t'.rin.errAux = t.rin.errAux

/-- The operations of a recipe report the same from states that agree (R261). -/
theorem rinRun_agree {is : List Instr} (his : ∀ i ∈ is, IsExtract i) {s s' : State} (h : Agree s s')
    (hbusy : s.rin.state = .busy) :
    ∃ t t', rinRun is s = .next t ∧ rinRun is s' = .next t' ∧ SameReport s s' t t' := by
  induction is generalizing s s' with
  | nil =>
    refine ⟨rinSucceed s, rinSucceed s', rfl, rfl, .ok s.rin.bankId s.rin.ctx, rfl, ?_, ?_⟩
    · rw [rinSucceed_queues, h.rin]
    · rw [rinSucceed_rin, rinSucceed_rin, h.rin]
      exact ⟨rfl, rfl, rfl, rfl⟩
  | cons i is ih =>
    obtain ⟨⟨ty, a, rfl⟩, hrest⟩ := List.forall_mem_cons.mp his
    have hstate : s'.rin.state = s.rin.state := by rw [h.rin]
    rcases rinOp_agree h ty a with ⟨t, t', ht, ht', hagree⟩ | ⟨code, aux, u, u', hu, hu', hagree⟩
    · obtain ⟨hst, hq⟩ := rinOp_ok ht
      obtain ⟨hst', hq'⟩ := rinOp_ok ht'
      have hexec : exec (.extract ty a) s = .next t := by rw [exec_extract, ht]; rfl
      have hexec' : exec (.extract ty a) s' = .next t' := by rw [exec_extract, ht']; rfl
      obtain ⟨v, v', hv, hv', hreport⟩ := ih hrest hagree (hst.trans hbusy)
      rw [SameReport, hq, hq'] at hreport
      exact ⟨v, v', (rinRun_cons_of_busy hexec (hst.trans hbusy)).trans hv,
        (rinRun_cons_of_busy hexec' (hst'.trans (hstate.trans hbusy))).trans hv', hreport⟩
    · have hexec : exec (.extract ty a) s = .next (raiseRin code aux u) := by rw [exec_extract, hu]; rfl
      have hexec' : exec (.extract ty a) s' = .next (raiseRin code aux u') := by rw [exec_extract, hu']; rfl
      refine ⟨_, _, rinRun_cons_of_ended hexec nofun, rinRun_cons_of_ended hexec' nofun,
        .fail u.rin.bankId code, rinOp_error_queues hu, ?_, ?_⟩
      · rw [rinOp_error_queues hu', raiseRin_rin, hagree.rin]
      · rw [raiseRin_rin, raiseRin_rin, hagree.rin]
        exact ⟨rfl, rfl, rfl, rfl⟩

/-- Settles O45: the table decides alike, and the recipe runs alike. -/
theorem decodeReadsTableAndBank : Obligations.DecodeReadsTableAndBank := by
  unfold Obligations.DecodeReadsTableAndBank
  intro bank s s' hidle hidle' hrtab hparams
  suffices h : ∃ t t', cmdDecode bank s = .next t ∧ cmdDecode bank s' = .next t' ∧ SameReport s s' t t' by
    obtain ⟨t, t', ht, ht', entry, hreport⟩ := h
    exact ⟨t, t', entry, ht, ht', hreport⟩
  cases hfind : mapFind bank.bankId.toNat s.rtab with
  | none =>
    exact ⟨_, _, cmdDecode_of_no_recipe hidle hfind, cmdDecode_of_no_recipe hidle' (hrtab ▸ hfind),
      _, rfl, rfl, rfl, rfl, rfl, rfl⟩
  | some image =>
    cases hdec : decodeImage s.params.maxExprDepth image with
    | error e =>
      exact ⟨_, _, cmdDecode_of_malformed hidle hfind hdec,
        cmdDecode_of_malformed hidle' (hrtab ▸ hfind) (hparams ▸ hdec), _, rfl, rfl, rfl, rfl, rfl, rfl⟩
    | ok recipe =>
      rw [cmdDecode_of_recipe hidle hfind hdec, cmdDecode_of_recipe hidle' (hrtab ▸ hfind) (hparams ▸ hdec)]
      exact rinRun_agree (s := recipeStarted bank s) (s' := recipeStarted bank s') (decodeImage_extract hdec)
        ⟨hparams, rfl⟩ rfl

end Sys2Proof.DecodeCommand
end

section
/-! PROOFS. A step runs the instruction that the bytes decode to (`41_block_validator.md` R146,
`44_recipe_interpreter.md` R222, R225). -/

namespace Sys2Proof.StepRuns

open Machine Claims HostCommands BankStream BankSegments Encoding BlockFrame DecodeCommand

/-! ## A symbol -/

/-- From SCAN the bytes of a symbol run its instruction. -/
theorem exec_symbol {d : Nat} {i : Instr} {s : State} (hl : i.level = .symbol) (hwf : i.wf d = true)
    (hscan : s.bra.state = .scan) : exec i s = .next (settle (braBytes (encode i) s)) := by
  have hverb : ∀ v args, settle (braBytes (0x60 :: v :: args) s) =
      settle (braBytes args (braVerb v (braGoto .verb s))) := fun v args => congrArg settle (braBytes_verb hscan v args)
  cases i
  case startBlock n => exact congrArg Host.Outcome.next (hverb 0x61 (le32 n)).symm
  case endBlockLogical => exact congrArg Host.Outcome.next (hverb 0x62 []).symm
  case endBlockPhysical => exact congrArg Host.Outcome.next (hverb 0x63 []).symm
  case filler => exact congrArg Host.Outcome.next (hverb 0x64 []).symm
  case startBank seg => exact congrArg Host.Outcome.next (hverb 0x07 (encodeSegment seg)).symm
  case continueBank seg =>
    rw [braBytes_continueBank hscan, ← verbContinue_eq]
    rfl
  case endBank crc rsvd =>
    rw [encode, List.append_assoc]
    exact congrArg Host.Outcome.next (hverb 0x0E (le16 crc ++ le16 rsvd)).symm
  case toBeContd x0 x1 x2 x3 x4 => exact congrArg Host.Outcome.next (hverb 0x0F [x0, x1, x2, x3, x4]).symm
  case unknownVerb v =>
    have hv : decodeVerb v = .unknown :=
      BankAssembler.decodeVerb_of_not_known fun hv => by simp [wf_iff, Instr.check, hv] at hwf
    have hrun : braVerb v (braGoto .verb s) = verbUnknown s := by
      simp only [braVerb, hv]
      rfl
    refine congrArg Host.Outcome.next (Eq.symm ?_)
    exact (hverb v []).trans (congrArg (fun t => settle (braBytes [] t)) hrun)
  case stray b =>
    have hb : b ≠ Config.opcodeByte := fun hb => by simp [wf_iff, Instr.check, hb] at hwf
    have hrun : braBytes [b] s = .ok (skipStray s) := by
      rw [braBytes_cons, braByte_scan hscan, braScan, if_neg hb]
      rfl
    rw [encode, hrun]
    rfl
  all_goals cases hl

/-- A release goes on with the bytes after its first symbol, unless that symbol raised an error. -/
theorem bfvDrain_append {bs rest : List Byte} {s t : State} (hrun : s.status.runState = .running)
    (hrel : s.bfv.releasing = bs ++ rest)
    (ht : settle (braBytes bs { s with bfv := { s.bfv with releasing := [] } }) = t) :
    bfvDrain s = if t.status.runState = .error then t
      else bfvDrain { t with bfv := { t.bfv with releasing := rest } } := by
  subst ht
  rw [bfvDrain_eq, hrel, braBytes_append]
  have houtcome := braBytes_outcome bs { s with bfv := { s.bfv with releasing := [] } }
  generalize braBytes bs { s with bfv := { s.bfv with releasing := [] } } = r at houtcome
  cases houtcome with
  | error _ raised _ => exact (if_pos raised).symm
  | @ok u frame status =>
    have hgo : u.status.runState ≠ .error := by
      rw [status]
      simp [hrun]
    have hbfv : { u.bfv with releasing := [] } = u.bfv := by rw [frame.bfv]
    show frameDiscarded (braBytes rest u) = if u.status.runState = .error then u else _
    rw [if_neg hgo, bfvDrain_eq]
    show frameDiscarded (braBytes rest u) =
      frameDiscarded (braBytes rest { u with bfv := { u.bfv with releasing := [] } })
    rw [hbfv]

theorem ne_nil_of_decodeSymbol {bs rest : List Byte} {i : Instr} (h : decodeSymbol bs = .ok (i, rest)) : bs ≠ [] := by
  rintro rfl
  cases h

theorem step_of_releasing {s : State} (hrun : s.status.runState = .running) (hrel : s.bfv.releasing ≠ []) :
    step s = .next (bfvDrain s) := if_pos ⟨hrun, hrel⟩

/-! ## A recipe -/

theorem step_of_todo {c : HostCmd} {rest : List HostCmd} {s : State} (hrel : s.bfv.releasing = [])
    (htodo : s.host.todo = c :: rest) : step s = hostCommand c { s with host := { s.host with todo := rest } } := by
  have hidle : ¬ (s.status.runState = .running ∧ s.bfv.releasing ≠ []) := fun h => h.2 hrel
  simp only [step, nextAction, if_neg hidle, htodo]

theorem step_of_idle {s : State} (hrel : s.bfv.releasing = []) (htodo : s.host.todo = []) : step s = .next s := by
  have hidle : ¬ (s.status.runState = .running ∧ s.bfv.releasing ≠ []) := fun h => h.2 hrel
  simp only [step, nextAction, if_neg hidle, htodo]

theorem rinRun_eq_runOperations {is : List Instr} (his : ∀ i ∈ is, IsExtract i) (s : State) :
    rinRun is s = .next (runOperations is s) := by
  induction is generalizing s with
  | nil => rfl
  | cons i is ih =>
    obtain ⟨⟨ty, a, rfl⟩, hrest⟩ := List.forall_mem_cons.mp his
    simp only [rinRun, runOperations, exec_extract, ih hrest]
    split <;> rfl

/-- Settles O30: a release runs its first symbol and goes on, and a DECODE runs the operations that the image decodes
to. -/
theorem stepRunsDecoded : Obligations.StepRunsDecoded := by
  unfold Obligations.StepRunsDecoded
  refine ⟨fun s i rest hrun hscan hdec => ?_, fun s bank rest image recipe hrel htodo hidle hfind hdec => ?_⟩
  · obtain ⟨hwf, hlevel, hbytes⟩ := (decodeSymbol_ok_iff_wf (d := 0)).mp hdec
    refine ⟨_, exec_symbol hlevel hwf hscan, ?_⟩
    rw [step_of_releasing hrun (ne_nil_of_decodeSymbol hdec), bfvDrain_append hrun hbytes.symm rfl]
  · rw [step_of_todo hrel htodo]
    exact (cmdDecode_of_recipe (s := withTodo rest s) hidle hfind hdec).trans
      (rinRun_eq_runOperations (decodeImage_extract hdec) _)

/-- Settles O53: with no release in progress the host's next command is performed, if there is one. -/
theorem idleOrNextCommand : Obligations.IdleOrNextCommand := by
  unfold Obligations.IdleOrNextCommand
  exact fun s hrel => ⟨step_of_idle hrel, fun c rest htodo => step_of_todo hrel htodo⟩

end Sys2Proof.StepRuns
end

section
/-! PROOFS. The host's registers and commands (`10_state.md` R42, R48, `60_exceptions.md` R294, R312 to R314): what the
registers read as, the recipe table, the refusals, and that the stream ignores the recipe interpreter (R21, R287). -/

namespace Sys2Proof.HostRegisters

open Machine Claims HostCommands BlockFrame Independence

/-! ## Status words, bit by bit -/

/-- A value below `2^n` has no bit from `n` upward. -/
theorem getLsbD_of_small {v : BitVec 32} {n j : Nat} (hv : v.toNat < 2 ^ n) (hj : n ≤ j) : v.getLsbD j = false :=
  Nat.testBit_lt_two_pow (hv.trans_le (Nat.pow_le_pow_right (by decide) hj))

theorem getLsbD_runStateCode_high (r : RunState) {j : Nat} (hj : 2 ≤ j) : (runStateCode r).getLsbD j = false :=
  getLsbD_of_small (by cases r <;> decide) hj

theorem getLsbD_streamErrorCode_high (e : StreamError) {j : Nat} (hj : 4 ≤ j) :
    (streamErrorCode e).getLsbD j = false := getLsbD_of_small (by cases e <;> decide) hj

theorem getLsbD_rinStateCode_high (r : RinState) {j : Nat} (hj : 2 ≤ j) : (rinStateCode r).getLsbD j = false :=
  getLsbD_of_small (by cases r <;> decide) hj

theorem getLsbD_rinResultCode_high (c : RinCode) {j : Nat} (hj : 4 ≤ j) : (rinResultCode c).getLsbD j = false :=
  getLsbD_of_small (by cases c <;> decide) hj

theorem getLsbD_flagBit {b : Bool} {i j : Nat} (hj : j < 32) : (flagBit b i).getLsbD j = (decide (j = i) && b) := by
  have hbit : (if b then 1#32 else 0#32).getLsbD (j - i) = (decide (j - i = 0) && b) := by
    cases b <;> simp
  rw [flagBit, BitVec.getLsbD_shiftLeft, hbit, decide_eq_true hj, Bool.true_and, ← Bool.and_assoc]
  congr 1
  by_cases hji : j = i
  · simp [hji]
  · simp [hji]
    omega

/-- The bits of STATUS: two fields and six flags (R42). -/
theorem getLsbD_statusWord {j : Nat} (hj : j < 32) (s : State) :
    (statusWord s).getLsbD j =
      ((runStateCode s.status.runState).getLsbD j
        || (!decide (j < 4) && (streamErrorCode s.status.errCode).getLsbD (j - 4))
        || (decide (j = 8) && s.bra.isOpen) || (decide (j = 9) && s.evg.inEvent)
        || (decide (j = 10) && s.status.endFieldTruncated) || (decide (j = 11) && s.status.endOpenBankDropped)
        || (decide (j = 12) && s.status.endOpenEventDropped) || (decide (j = 13) && s.status.started)) := by
  simp only [statusWord, BitVec.getLsbD_or, BitVec.getLsbD_shiftLeft, getLsbD_flagBit hj, decide_eq_true hj,
    Bool.true_and]

/-- The bits of RIN_STATUS: two fields (R42). -/
theorem getLsbD_rinStatusWord {j : Nat} (hj : j < 32) (s : State) :
    (rinStatusWord s).getLsbD j =
      ((rinStateCode s.rin.state).getLsbD j
        || (!decide (j < 4) && (rinResultCode s.rin.code).getLsbD (j - 4))) := by
  simp only [rinStatusWord, BitVec.getLsbD_or, BitVec.getLsbD_shiftLeft, decide_eq_true hj, Bool.true_and]

/-- A field of a word is read bit by bit. -/
theorem extractLsb'_eq_of_bits {v : BitVec 32} {n w : Nat} {x : BitVec w}
    (h : ∀ i, i < w → v.getLsbD (n + i) = x.getLsbD i) : v.extractLsb' n w = x := by
  apply BitVec.eq_of_getLsbD_eq
  intro i hi
  rw [BitVec.getLsbD_extractLsb', decide_eq_true hi, Bool.true_and, h i hi]

/-! ## The fields of the status words -/

section Fields

variable (s : State)

theorem statusWord_runState : (statusWord s).extractLsb' 0 2 = (runStateCode s.status.runState).extractLsb' 0 2 := by
  refine extractLsb'_eq_of_bits fun i hi => ?_
  simp (disch := omega) only [getLsbD_statusWord, BitVec.getLsbD_extractLsb', decide_eq_true, decide_eq_false,
    Bool.not_true, Bool.false_and, Bool.or_false, Bool.true_and]

theorem statusWord_errCode : (statusWord s).extractLsb' 4 4 = (streamErrorCode s.status.errCode).extractLsb' 0 4 := by
  refine extractLsb'_eq_of_bits fun i hi => ?_
  simp (disch := omega) only [getLsbD_statusWord, getLsbD_runStateCode_high, BitVec.getLsbD_extractLsb', decide_eq_true,
    decide_eq_false, Bool.not_false, Bool.false_and, Bool.or_false, Bool.false_or, Bool.true_and, Nat.zero_add,
    Nat.add_sub_cancel_left]

/-- Above the error code stand the flags, and nothing else. -/
theorem getLsbD_statusWord_flags {j : Nat} (hlow : 8 ≤ j) (hj : j < 32) :
    (statusWord s).getLsbD j =
      ((decide (j = 8) && s.bra.isOpen) || (decide (j = 9) && s.evg.inEvent)
        || (decide (j = 10) && s.status.endFieldTruncated) || (decide (j = 11) && s.status.endOpenBankDropped)
        || (decide (j = 12) && s.status.endOpenEventDropped) || (decide (j = 13) && s.status.started)) := by
  simp (disch := omega) only [getLsbD_statusWord, getLsbD_runStateCode_high, getLsbD_streamErrorCode_high,
    Bool.and_false, Bool.false_or]

theorem statusWord_reserved_low : (statusWord s).extractLsb' 2 2 = 0 := by
  refine extractLsb'_eq_of_bits fun i hi => ?_
  simp (disch := omega) only [getLsbD_statusWord, getLsbD_runStateCode_high, decide_eq_true, decide_eq_false,
    Bool.not_true, Bool.false_and, Bool.or_false]
  exact BitVec.getLsbD_zero.symm

theorem statusWord_reserved_high : (statusWord s).extractLsb' 14 18 = 0 := by
  refine extractLsb'_eq_of_bits fun i hi => ?_
  simp (disch := omega) only [getLsbD_statusWord_flags, decide_eq_false, Bool.false_and, Bool.or_false]
  exact BitVec.getLsbD_zero.symm

theorem rinStatusWord_state : (rinStatusWord s).extractLsb' 0 2 = (rinStateCode s.rin.state).extractLsb' 0 2 := by
  refine extractLsb'_eq_of_bits fun i hi => ?_
  simp (disch := omega) only [getLsbD_rinStatusWord, BitVec.getLsbD_extractLsb', decide_eq_true, Bool.not_true,
    Bool.false_and, Bool.or_false, Bool.true_and]

theorem rinStatusWord_code : (rinStatusWord s).extractLsb' 4 4 = (rinResultCode s.rin.code).extractLsb' 0 4 := by
  refine extractLsb'_eq_of_bits fun i hi => ?_
  simp (disch := omega) only [getLsbD_rinStatusWord, getLsbD_rinStateCode_high, BitVec.getLsbD_extractLsb',
    decide_eq_true, decide_eq_false, Bool.not_false, Bool.false_or, Bool.true_and, Nat.zero_add,
    Nat.add_sub_cancel_left]

theorem rinStatusWord_reserved_low : (rinStatusWord s).extractLsb' 2 2 = 0 := by
  refine extractLsb'_eq_of_bits fun i hi => ?_
  simp (disch := omega) only [getLsbD_rinStatusWord, getLsbD_rinStateCode_high, decide_eq_true, Bool.not_true,
    Bool.false_and, Bool.or_false]
  exact BitVec.getLsbD_zero.symm

theorem rinStatusWord_reserved_high : (rinStatusWord s).extractLsb' 8 24 = 0 := by
  refine extractLsb'_eq_of_bits fun i hi => ?_
  simp (disch := omega) only [getLsbD_rinStatusWord, getLsbD_rinStateCode_high, getLsbD_rinResultCode_high,
    Bool.and_false, Bool.or_false]
  exact BitVec.getLsbD_zero.symm

end Fields

/-! ## The register map -/

/-- The reserved bits of CFG_FLAGS read as 0 (R26). -/
theorem cfgFlags_reserved (v : BitVec 32) : (v &&& cfgFlagsMask).extractLsb' 1 31 = 0 := by
  refine extractLsb'_eq_of_bits fun i hi => ?_
  have hmask : cfgFlagsMask.getLsbD (1 + i) = false := getLsbD_of_small (n := 1) (by decide) (by omega)
  rw [BitVec.getLsbD_and, hmask, Bool.and_false]
  exact BitVec.getLsbD_zero.symm

theorem csrValue_unlisted {n : Nat} (h : n ∉ [0x00, 0x01, 0x02, 0x08, 0x09, 0x0A, 0x0B, 0x0C, 0x10, 0x11, 0x12, 0x13,
    0x14, 0x18, 0x19, 0x1A, 0x1B]) (s : State) : csrValue n s = 0 := by
  simp only [List.mem_cons, List.not_mem_nil, or_false, not_or] at h
  simp only [csrValue, h, if_false]

/-- Settles O47: the registers by number, and the status words by field. -/
theorem registersRead : Obligations.RegistersRead := by
  unfold Obligations.RegistersRead
  intro s
  refine ⟨fun n => rfl, rfl, rfl, ?_, cfgFlags_reserved s.cfg.flags, ⟨?_, statusWord_reserved_low s, ?_, ?_, ?_, ?_,
    ?_, ?_, ?_, statusWord_reserved_high s⟩, rfl, rfl, rfl, rfl, rfl, rfl, rfl, rfl, rfl,
    ⟨?_, rinStatusWord_reserved_low s, ?_, rinStatusWord_reserved_high s⟩, rfl, rfl, rfl,
    fun n hn => csrValue_unlisted hn s⟩
  · show (s.cfg.flags &&& cfgFlagsMask).getLsbD 0 = _
    rw [BitVec.getLsbD_and]
    exact Bool.and_true _
  · exact (statusWord_runState s).trans (by cases s.status.runState <;> rfl)
  · exact (statusWord_errCode s).trans (by cases s.status.errCode <;> rfl)
  · exact (getLsbD_statusWord_flags s (by decide) (by decide)).trans (by simp)
  · exact (getLsbD_statusWord_flags s (by decide) (by decide)).trans (by simp)
  · exact (getLsbD_statusWord_flags s (by decide) (by decide)).trans (by simp)
  · exact (getLsbD_statusWord_flags s (by decide) (by decide)).trans (by simp)
  · exact (getLsbD_statusWord_flags s (by decide) (by decide)).trans (by simp)
  · exact (getLsbD_statusWord_flags s (by decide) (by decide)).trans (by simp)
  · exact (rinStatusWord_state s).trans (by cases s.rin.state <;> rfl)
  · exact (rinStatusWord_code s).trans (by cases s.rin.code <;> rfl)

/-! ## The recipe table and the refusals -/

theorem hostCommand_rtabWrite {id : BankId} {image : List Byte} {s : State} (hidle : s.rin.state ≠ .busy)
    (hfits : image.length ≤ s.params.maxRecipeBytes) :
    hostCommand (.rtabWrite id image) s = .next { s with rtab := mapInsert id.toNat image s.rtab } := by
  simp only [hostCommand, cmdRtabWrite, if_neg hidle, if_neg (Nat.not_lt.mpr hfits)]

theorem hostCommand_rtabClear {id : BankId} {s : State} (hidle : s.rin.state ≠ .busy) :
    hostCommand (.rtabClear id) s = .next { s with rtab := mapErase id.toNat s.rtab } := by
  simp only [hostCommand, cmdRtabClear, if_neg hidle]

/-- Settles O49: the laws of finite maps, ids compared as numbers. -/
theorem recipeTableWritten : Obligations.RecipeTableWritten := by
  unfold Obligations.RecipeTableWritten
  intro id s hidle hwf
  refine ⟨fun image hfits => ⟨_, hostCommand_rtabWrite hidle hfits, fun id' => ?_⟩,
    _, hostCommand_rtabClear hidle, fun id' => ?_⟩
  · simp only [mapFind_mapInsert, BitVec.toNat_inj]
  · split
    next h => rw [h, mapFind_mapErase_same hwf]
    next h => exact mapFind_mapErase_other (fun heq => h (BitVec.toNat_inj.mp heq)) _

/-- Settles O50: each check of its command. -/
theorem hostViolationsRefused : Obligations.HostViolationsRefused := by
  unfold Obligations.HostViolationsRefused
  intro s
  refine ⟨fun hbusy => ⟨fun id image => if_pos hbusy, fun id => if_pos hbusy, fun bank => if_pos hbusy⟩,
    fun id image hidle hlong => ?_, fun b hrun hcfg hindex hfill => ?_⟩
  · exact (if_neg hidle).trans (if_pos hlong)
  · have hlast : InSymbol.byte b ≠ .eos ∧ s.bfv.index = 0xFFFFFFFF ∧ s.bfv.fill + 1 = Config.blockLen :=
      ⟨nofun, hindex, congrArg (· + 1) hfill⟩
    simp only [hostCommand, cmdSend, hrun, hcfg, ne_eq, not_true_eq_false, if_false]
    exact if_pos hlast

/-- Settles O52: RESET leaves the state after power-on as it is, and no CFG register is written there. -/
theorem powerOnState : Obligations.PowerOnState := by
  unfold Obligations.PowerOnState
  exact ⟨rfl, rfl, rfl, hostCommand_send_unconfigured rfl (by decide)⟩

/-- Settles O59: outside RUNNING only RESET reaches the stream pipeline. -/
theorem endedStreamIsFrozen : Obligations.EndedStreamIsFrozen := by
  unfold Obligations.EndedStreamIsFrozen
  exact fun s t hend hreset hstep => step_sameStream_of_not_running hend hreset hstep

end Sys2Proof.HostRegisters
end

section
/-! PROOFS. The stream step and the recipe interpreter are independent (`10_state.md` R21, `60_exceptions.md` R287). -/

namespace Sys2Proof.StreamIndependence

open Machine Claims BlockFrame Independence

/-- The change to other contents of the RIN, the recipe table and RIN_OUT. -/
def interpreter (rin : Rin) (rtab : FinMap (List Byte)) (results : List RinResult) : Change :=
  { rin := fun _ => rin, rtab := fun _ => rtab, rinOut := fun _ => results }

/-- The change made in what a step answers. -/
def onResult (c : Change) : Result → Result
  | .next t => .next (c.apply t)
  | .fault f => .fault f
  | .refused r => .refused r

theorem onResult_next (c : Change) (t : State) : onResult c (.next t) = .next (c.apply t) := rfl

section Stream

variable (rin : Rin) (rtab : FinMap (List Byte)) (results : List RinResult)

theorem interpreter_apply (s : State) :
    (interpreter rin rtab results).apply s =
      { s with rin := rin, rtab := rtab, queues := { s.queues with rinOut := results } } := by
  rw [Change.apply, interpreter, BitVec.add_zero]
  rfl

theorem bfvPlace_interpreter (b : Byte) (s : State) :
    bfvPlace b ((interpreter rin rtab results).apply s) = (interpreter rin rtab results).apply (bfvPlace b s) := by
  simp only [bfvPlace, apply_ite (interpreter rin rtab results).apply]
  rfl

theorem bfvDrain_interpreter (s : State) :
    bfvDrain ((interpreter rin rtab results).apply s) = (interpreter rin rtab results).apply (bfvDrain s) := by
  have hbra := braBytes_apply_of_bfv (c := interpreter rin rtab results)
    { s with bfv := { s.bfv with releasing := [] } } rfl s.bfv.releasing
  rw [bfvDrain_eq, bfvDrain_eq]
  refine (congrArg frameDiscarded hbra).trans ?_
  cases braBytes s.bfv.releasing { s with bfv := { s.bfv with releasing := [] } } <;> rfl

theorem bfvFrameComplete_interpreter (s : State) :
    bfvFrameComplete ((interpreter rin rtab results).apply s) =
      (interpreter rin rtab results).apply (bfvFrameComplete s) := by
  have hrelease : bfvRelease ((interpreter rin rtab results).apply s) =
      (interpreter rin rtab results).apply (bfvRelease s) :=
    bfvDrain_interpreter rin rtab results { s with bfv := { s.bfv with releasing := bfvPayload s } }
  simp only [bfvFrameComplete, hrelease, apply_ite (interpreter rin rtab results).apply]
  rfl

theorem bfvByte_interpreter (b : Byte) (s : State) :
    bfvByte b ((interpreter rin rtab results).apply s) = onResult (interpreter rin rtab results) (bfvByte b s) := by
  simp only [bfvByte, bfvPlace_interpreter, bfvFrameComplete_interpreter,
    apply_ite (onResult (interpreter rin rtab results)), onResult_next, apply_ite (interpreter rin rtab results).apply]
  rfl

theorem bfvEos_interpreter (s : State) :
    bfvEos ((interpreter rin rtab results).apply s) = (interpreter rin rtab results).apply (bfvEos s) := by
  simp only [bfvEos, apply_ite (interpreter rin rtab results).apply]
  rfl

theorem streamStep_interpreter (sym : InSymbol) (s : State) :
    streamStep sym ((interpreter rin rtab results).apply s) =
      onResult (interpreter rin rtab results) (streamStep sym s) := by
  cases sym with
  | byte b => exact bfvByte_interpreter rin rtab results b (started s)
  | eos => exact congrArg Host.Outcome.next (bfvEos_interpreter rin rtab results (started s))

theorem cmdSend_interpreter (sym : InSymbol) (s : State) :
    cmdSend sym ((interpreter rin rtab results).apply s) =
      onResult (interpreter rin rtab results) (cmdSend sym s) := by
  have hstatus : ((interpreter rin rtab results).apply s).status = s.status := rfl
  simp only [cmdSend, hstatus, streamStep_interpreter]
  cases s.status.runState with
  | done => rfl
  | error => rfl
  | running =>
    simp only [apply_ite (onResult (interpreter rin rtab results))]
    rfl

end Stream

/-- Settles O46: the change commutes with the step; and the change to the contents that are there shows that the step
leaves them. -/
theorem streamIgnoresInterpreter : Obligations.StreamIgnoresInterpreter := by
  unfold Obligations.StreamIgnoresInterpreter
  intro sym s rin rtab results
  refine ⟨?_, fun t ht => ?_⟩
  · have hsend := cmdSend_interpreter rin rtab results sym s
    rw [interpreter_apply] at hsend
    refine hsend.trans ?_
    show onResult _ (cmdSend sym s) = match cmdSend sym s with
      | .next t => _
      | .fault f => _
      | .refused r => _
    cases cmdSend sym s with
    | next t => exact congrArg Host.Outcome.next (interpreter_apply rin rtab results t)
    | fault f => rfl
    | refused r => rfl
  · have hcmd : cmdSend sym s = .next t := ht
    have hsend := cmdSend_interpreter s.rin s.rtab s.queues.rinOut sym s
    rw [interpreter_apply, hcmd, onResult, interpreter_apply] at hsend
    have hsame : t = { t with rin := s.rin, rtab := s.rtab, queues := { t.queues with rinOut := s.queues.rinOut } } :=
      Host.Outcome.next.inj hsend
    rw [hsame]
    exact ⟨rfl, rfl, rfl⟩

end Sys2Proof.StreamIndependence
end

section
/-! PROOFS. What a step can do to the stream pipeline, as rules for predicates on states: a predicate that the
elementary moves of BRA and EVG keep is kept by every BRA step, by a frame and by a release. -/

namespace Sys2Proof.PipelineRules

open Machine Claims HostCommands BlockFrame

/-! ## The elementary moves of BRA and EVG -/

/-- A verified bank is placed on BANK_OUT and counted (R173). -/
def bankPlaced (s : State) : State :=
  { s with
    queues := { s.queues with bankOut := s.queues.bankOut ++ [bankOf s.bra.buf] }
    counters := { s.counters with bankCount := s.counters.bankCount + 1 } }

/-- EVG takes any values. -/
def withEvg (evg : Evg) (s : State) : State := { s with evg := evg }

/-- BRA's registers and the diagnostic counters take any values. -/
def withBra (bra : Bra) (strays unknowns : BitVec 32) (s : State) : State :=
  { s with bra := bra, counters := { s.counters with strayCount := strays, unknownVerbCount := unknowns } }

/-- A predicate that is kept by each move BRA and EVG make, whatever BRA's registers hold. -/
structure KeptByMoves (P : State → Prop) : Prop where
  bra : ∀ {s} (b : Bra) (m n : BitVec 32), P s → P (withBra b m n s)
  raise : ∀ {s} {c : StreamError} (x y : BitVec 16) (n : Nat), c ≠ .none → P s → P (raiseError c x y n s)
  placed : ∀ {s}, Config.bankHdrLen ≤ s.bra.buf.length → P s → P (bankPlaced s)
  opened : ∀ {s} {bank : Bank}, bank.bankId = s.cfg.startId → bank ∈ s.queues.bankOut → P s →
    P (withEvg { inEvent := true, buf := if keepMarkers s then [bank] else [] } s)
  joined : ∀ {s} {bank : Bank}, s.evg.inEvent = true → s.evg.buf.length ≠ s.params.maxEventBanks →
    bank ∈ s.queues.bankOut → P s → P (withEvg { s.evg with buf := s.evg.buf ++ [bank] } s)
  emitted : ∀ {s}, s.evg.inEvent = true → P s → P (emitEvent s)
  closed : ∀ {s}, P s → P (withEvg { inEvent := false, buf := [] } s)

section Moves

variable {P : State → Prop} {s : State}

/-- A bank in EVG is a sequence of moves (R200 to R204, R208). -/
theorem KeptByMoves.evgBank (k : KeptByMoves P) {bank : Bank} (hbank : bank ∈ s.queues.bankOut) (h : P s) :
    P (settle (evgBank bank s)) := by
  rcases evgBank_cases bank s with ⟨hstart, heq⟩ | ⟨-, ⟨-, heq⟩ | ⟨hin, ⟨-, hroom, heq⟩ | ⟨-, -, heq⟩ |
    ⟨-, -, hroom, heq⟩ | ⟨-, -, heq⟩⟩⟩ <;> rw [heq]
  · rw [evgStart_eq]
    by_cases hforced : (s.evg.inEvent && !s.evg.buf.isEmpty) = true
    · have hin : s.evg.inEvent = true := (Bool.and_eq_true _ _ ▸ hforced).1
      rw [if_pos hforced]
      exact k.opened (s := emitEvent s) hstart hbank (k.emitted hin h)
    · rw [if_neg hforced]
      exact k.opened hstart hbank h
  · exact h
  · exact k.joined hin hroom hbank h
  · exact k.closed (k.emitted hin h)
  · exact k.closed (k.emitted hin (k.joined hin hroom hbank h))
  · exact k.raise _ _ _ (by decide) h

theorem KeptByMoves.braEmitBank (k : KeptByMoves P) (hlen : Config.bankHdrLen ≤ s.bra.buf.length) (h : P s) :
    P (settle (braEmitBank s)) := by
  have hevg := k.evgBank (bank := bankOf s.bra.buf) (s := bankPlaced s) (by simp [bankPlaced]) (k.placed hlen h)
  show P (settle (Machine.evgBank (bankOf s.bra.buf) (bankPlaced s) >>= fun t => pure _))
  generalize Machine.evgBank (bankOf s.bra.buf) (bankPlaced s) = r at hevg ⊢
  cases r with
  | error u => exact hevg
  | ok u => exact k.bra { u.bra with buf := [], isOpen := false, state := .scan } _ _ hevg

theorem KeptByMoves.braEndBank (k : KeptByMoves P) (field : BitVec 32) (h : P s) : P (settle (braEndBank field s)) := by
  rcases braEndBank_cases field s with ⟨-, heq⟩ | ⟨-, -, heq⟩ | ⟨-, hlen, heq⟩ <;> rw [heq]
  · exact k.raise _ _ _ (by decide) h
  · exact k.raise _ _ _ (by decide) h
  · exact k.braEmitBank hlen h

theorem KeptByMoves.braFieldDone (k : KeptByMoves P) (h : P s) : P (settle (braFieldDone s)) := by
  unfold Machine.braFieldDone
  split
  · exact k.bra _ _ _ h
  · unfold braSegLen
    split <;> exact k.bra _ _ _ h
  · exact k.bra _ _ _ h
  · exact k.braEndBank _ h
  all_goals exact h

theorem KeptByMoves.braField (k : KeptByMoves P) (b : Byte) (h : P s) : P (settle (braField b s)) := by
  have hbyte : P (braFieldByte b s) := k.bra _ _ _ h
  simp only [Machine.braField]
  split
  · exact k.braFieldDone (k.bra _ _ _ hbyte)
  · exact hbyte

/-- So is one BRA step (R160). -/
theorem KeptByMoves.braByte (k : KeptByMoves P) (b : Byte) (h : P s) : P (settle (braByte b s)) := by
  unfold Machine.braByte
  split
  · unfold braScan
    split <;> exact k.bra _ _ _ h
  · unfold braVerb
    split
    case h_6 =>
      rw [BankSegments.verbContinue_eq]
      exact k.bra _ _ _ h
    all_goals exact k.bra (s := s) _ _ _ h
  · exact k.braField b h
  · exact k.braField b h
  · exact k.braField b h
  · exact k.braField b h
  · rcases braSegByte_cases b s with ⟨-, heq⟩ | ⟨-, heq⟩ <;> rw [heq]
    · exact k.raise _ _ _ (by decide) h
    · exact k.bra _ _ _ h

end Moves

/-! ## Frames -/

/-- A predicate that is kept by a BRA step of a running stream, by a raise, and by any change of the frame registers. -/
structure KeptByFrames (P : State → Prop) : Prop where
  byte : ∀ {s} (b : Byte), s.status.runState = .running → P s → P (settle (braByte b s))
  raise : ∀ {s} {c : StreamError} (x y : BitVec 16) (n : Nat), c ≠ .none → P s → P (raiseError c x y n s)
  bfv : ∀ {s} (r : Bfv), P s → P { s with bfv := r }

theorem KeptByMoves.frames {P : State → Prop} (k : KeptByMoves P)
    (hbfv : ∀ {s} (r : Bfv), P s → P { s with bfv := r }) : KeptByFrames P :=
  ⟨fun b _ h => k.braByte b h, k.raise, hbfv⟩

section Frames

variable {P : State → Prop} {s : State}

theorem KeptByFrames.braBytes (k : KeptByFrames P) (bs : List Byte) (hrun : s.status.runState = .running) (h : P s) :
    P (settle (braBytes bs s)) := by
  induction bs generalizing s with
  | nil => exact h
  | cons b bs ih =>
    have hbyte := k.byte b hrun h
    have houtcome := braByte_outcome b s
    rw [braBytes_cons]
    generalize braByte b s = r at hbyte houtcome
    cases houtcome with
    | error _ _ _ => exact hbyte
    | ok _ status => exact ih (status ▸ hrun) hbyte

/-- So is a release (R146). -/
theorem KeptByFrames.bfvDrain (k : KeptByFrames P) (hrun : s.status.runState = .running) (h : P s) :
    P (bfvDrain s) := by
  have hbra := k.braBytes (s := { s with bfv := { s.bfv with releasing := [] } }) s.bfv.releasing hrun (k.bfv _ h)
  rw [bfvDrain_eq]
  generalize Machine.braBytes s.bfv.releasing { s with bfv := { s.bfv with releasing := [] } } = r at hbra ⊢
  cases r with
  | error u => exact hbra
  | ok u => exact k.bfv _ hbra

theorem KeptByFrames.bfvFrameComplete (k : KeptByFrames P) (hrun : s.status.runState = .running) (h : P s) :
    P (bfvFrameComplete s) := by
  simp only [Machine.bfvFrameComplete]
  split
  · exact k.raise _ _ _ (by decide) h
  · exact k.bfvDrain hrun (k.bfv _ h)

/-- What a frame byte can do: it finds no offset; or it is placed; or it is placed and completes the frame (R141). -/
theorem bfvByte_cases (b : Byte) (s : State) :
    (32000 ≤ s.bfv.fill ∧ bfvByte b s = .fault .frameBufferRange) ∨
    (s.bfv.fill + 1 < 32000 ∧ bfvByte b s = .next (bfvPlace b s)) ∨
    (s.bfv.fill + 1 = 32000 ∧ bfvByte b s = .next (bfvFrameComplete (bfvPlace b s))) := by
  rcases Nat.lt_trichotomy (s.bfv.fill + 1) 32000 with h | h | h
  · exact .inr (.inl ⟨h, bfvByte_of_partial b h⟩)
  · exact .inr (.inr ⟨h, bfvByte_of_last b h⟩)
  · exact .inl ⟨Nat.le_of_lt_succ h, bfvByte_of_full b (Nat.le_of_lt_succ h)⟩

theorem bfvPlace_status (b : Byte) (s : State) : (bfvPlace b s).status = s.status := by rw [bfvPlace_eq]

theorem KeptByFrames.bfvByte (k : KeptByFrames P) {b : Byte} {t : State} (hrun : s.status.runState = .running) (h : P s)
    (hnext : bfvByte b s = .next t) : P t := by
  have hplace : P (bfvPlace b s) := by
    rw [bfvPlace_eq]
    exact k.bfv _ h
  rcases bfvByte_cases b s with ⟨-, heq⟩ | ⟨-, heq⟩ | ⟨-, heq⟩ <;> rw [heq] at hnext <;> cases hnext
  · exact hplace
  · exact k.bfvFrameComplete (by rw [bfvPlace_status, hrun]) hplace

/-- A stream step keeps the predicate, if the clean end of the stream does (R140, R147, R148). -/
theorem KeptByFrames.streamStep (k : KeptByFrames P) (heos : ∀ {s}, P s → P (braEos s)) {sym : InSymbol} {t : State}
    (hrun : s.status.runState = .running) (h : P (started s)) (hnext : streamStep sym s = .next t) : P t := by
  cases sym with
  | byte b => exact k.bfvByte (s := started s) hrun h hnext
  | eos =>
    obtain rfl : bfvEos (started s) = t := Host.Outcome.next.inj hnext
    unfold bfvEos
    split
    · exact heos h
    · exact k.raise _ _ _ (by decide) h

end Frames

/-! ## The steps -/

/-- A step releases a frame, is idle, or performs the host's next command (R75, R146, R292). -/
theorem step_cases {s t : State} (h : step s = .next t) :
    (s.status.runState = .running ∧ s.bfv.releasing ≠ [] ∧ t = bfvDrain s) ∨ t = s ∨
    ∃ c rest, s.host.todo = c :: rest ∧ hostCommand c (withTodo rest s) = .next t := by
  by_cases hrel : s.status.runState = .running ∧ s.bfv.releasing ≠ []
  · have hdrain := StepRuns.step_of_releasing hrel.1 hrel.2
    exact .inl ⟨hrel.1, hrel.2, Host.Outcome.next.inj (h.symm.trans hdrain)⟩
  · right
    have hnext : nextAction s = .next t := h
    rw [nextAction, if_neg hrel] at hnext
    split at hnext
    · exact .inl (Host.Outcome.next.inj hnext).symm
    next c rest htodo => exact .inr ⟨c, rest, htodo, hnext⟩

/-- A SEND that is not refused is a stream step of a running, configured stream (R310, R312). -/
theorem cmdSend_next {sym : InSymbol} {s t : State} (h : cmdSend sym s = .next t) :
    s.status.runState = .running ∧ s.cfg.valid = 7 ∧ streamStep sym s = .next t := by
  have hrun : s.status.runState = .running := by
    by_contra hend
    exact hostCommand_send_not_next hend sym h
  simp only [cmdSend, hrun] at h
  split at h
  · cases h
  next hcfg =>
    split at h
    · cases h
    · exact ⟨hrun, not_not.mp hcfg, h⟩

/-- What a command that is not refused does (R294). -/
inductive CommandOutcome (s : State) : HostCmd → State → Prop
  | sent {sym : InSymbol} {t : State} (running : s.status.runState = .running) (configured : s.cfg.valid = 7)
      (next : streamStep sym s = .next t) : CommandOutcome s (.send sym) t
  | read (n : Nat) (reads : List (Nat × BitVec 32)) :
      CommandOutcome s (.csrRead n) { s with host := { s.host with reads := reads } }
  | written (n : Nat) (v : BitVec 32) (before : s.status.started = false) :
      CommandOutcome s (.csrWrite n v) (csrStore n v s)
  | ignored (n : Nat) (v : BitVec 32) : CommandOutcome s (.csrWrite n v) s
  | inserted (id : BankId) {image : List Byte} (fits : image.length ≤ s.params.maxRecipeBytes) :
      CommandOutcome s (.rtabWrite id image) { s with rtab := mapInsert id.toNat image s.rtab }
  | erased (id : BankId) : CommandOutcome s (.rtabClear id) { s with rtab := mapErase id.toNat s.rtab }
  | decoded {bank : Bank} {t : State} (idle : s.rin.state ≠ .busy) (next : cmdDecode bank s = .next t) :
      CommandOutcome s (.decode bank) t
  | reset : CommandOutcome s .reset (resetBlock s)

theorem hostCommand_outcome {c : HostCmd} {s t : State} (h : hostCommand c s = .next t) : CommandOutcome s c t := by
  cases c with
  | send sym =>
    obtain ⟨hrun, hcfg, hnext⟩ := cmdSend_next h
    exact .sent hrun hcfg hnext
  | reset =>
    cases h
    exact .reset
  | csrRead n =>
    cases h
    exact .read n _
  | csrWrite n v =>
    cases hstart : s.status.started with
    | false =>
      rw [hostCommand_csrWrite_of_not_started hstart] at h
      cases h
      exact .written n v hstart
    | true =>
      rcases Nat.lt_or_ge n 3 with hn | hn
      · rw [hostCommand_csrWrite_of_started hstart hn] at h
        cases h
      · rw [hostCommand_csrWrite_of_not_cfg hn] at h
        cases h
        exact .ignored n v
  | rtabWrite id image =>
    simp only [hostCommand, cmdRtabWrite] at h
    split at h
    · cases h
    · split at h <;> cases h
      exact .inserted id (by omega)
  | rtabClear id =>
    simp only [hostCommand, cmdRtabClear] at h
    split at h <;> cases h
    exact .erased id
  | decode bank =>
    have hidle : s.rin.state ≠ .busy := by
      intro hbusy
      simp [hostCommand, cmdDecode, hbusy] at h
    exact .decoded hidle h

/-- The configuration, the tables, the recipe interpreter and the host's side take any values. -/
def resettled (cfg : Cfg) (rtab : FinMap (List Byte)) (rin : Rin) (results : List RinResult) (host : HostPort)
    (s : State) : State :=
  { s with cfg := cfg, rtab := rtab, rin := rin, host := host, queues := { s.queues with rinOut := results } }

/-- A command sends a symbol, or resets, or leaves the stream alone; the CFG registers change only before the stream
has started (R21, R43). -/
theorem CommandOutcome.stream {c : HostCmd} {s t : State} (h : CommandOutcome s c t) :
    (∃ sym, s.status.runState = .running ∧ s.cfg.valid = 7 ∧ streamStep sym s = .next t) ∨
    (c = .reset ∧ t = resetBlock s) ∨
    (∃ cfg rtab rin results host, (cfg = s.cfg ∨ s.status.started = false) ∧
      t = resettled cfg rtab rin results host s) := by
  cases h with
  | sent running configured next => exact .inl ⟨_, running, configured, next⟩
  | reset => exact .inr (.inl ⟨rfl, rfl⟩)
  | written n v before =>
    rw [csrStore_eq]
    exact .inr (.inr ⟨_, _, _, _, _, .inr before, rfl⟩)
  | @decoded bank t idle next =>
    have honly : t = resettled s.cfg s.rtab t.rin t.queues.rinOut s.host s := cmdDecode_rinOnly next
    exact .inr (.inr ⟨_, _, _, _, _, .inl rfl, honly⟩)
  | read n reads => exact .inr (.inr ⟨_, _, _, _, _, .inl rfl, rfl⟩)
  | ignored n v => exact .inr (.inr ⟨_, _, _, _, _, .inl rfl, rfl⟩)
  | inserted id fits => exact .inr (.inr ⟨_, _, _, _, _, .inl rfl, rfl⟩)
  | erased id => exact .inr (.inr ⟨_, _, _, _, _, .inl rfl, rfl⟩)

end Sys2Proof.PipelineRules
end

section
/-! PROOFS. What every step keeps of the outputs, of the events and of the recipe interpreter's side (`10_state.md` R26,
R27, R37 to R39, R44, `43_event_grouper.md` R207, `60_exceptions.md` R285). -/

namespace Sys2Proof.StepInvariants

open Machine Claims HostCommands BlockFrame PipelineRules DecodeCommand

/-! ## The emission counters -/

theorem counterInv_moves : KeptByMoves CounterInv where
  bra _ _ _ h := ⟨h.banks, h.events⟩
  raise _ _ _ _ h := ⟨h.banks, h.events⟩
  placed _ h := ⟨by simp [bankPlaced, h.banks, BitVec.ofNat_add], h.events⟩
  opened _ _ h := ⟨h.banks, h.events⟩
  joined _ _ _ h := ⟨h.banks, h.events⟩
  emitted _ h := ⟨h.banks, by simp [emitEvent, h.events, BitVec.ofNat_add]⟩
  closed h := ⟨h.banks, h.events⟩

theorem counterInv_frames : KeptByFrames CounterInv := counterInv_moves.frames fun _ h => ⟨h.banks, h.events⟩

theorem counterInv_resetBlock (s : State) : CounterInv (resetBlock s) := ⟨rfl, rfl⟩

/-- Settles O56: the emissions of banks and events are the moves that count. -/
theorem counterInvKept : Obligations.CounterInvKept := by
  unfold Obligations.CounterInvKept
  intro s t h hstep
  rcases step_cases hstep with ⟨hrun, -, rfl⟩ | rfl | ⟨c, rest, -, hcmd⟩
  · exact counterInv_frames.bfvDrain hrun h
  · exact h
  · rcases (hostCommand_outcome hcmd).stream with ⟨sym, hrun, -, hnext⟩ | ⟨-, rfl⟩ | ⟨_, _, _, _, _, -, rfl⟩
    · exact counterInv_frames.streamStep (s := withTodo rest s) (fun h => ⟨h.banks, h.events⟩) hrun
        ⟨h.banks, h.events⟩ hnext
    · exact counterInv_resetBlock _
    · exact ⟨h.banks, h.events⟩

/-! ## The recipe interpreter's side of a stream step -/

/-- The settings, the RIN and RIN_OUT are the same. -/
def SameInterpreter (s t : State) : Prop := sameSettings s t ∧ t.rin = s.rin ∧ t.queues.rinOut = s.queues.rinOut

theorem sameInterpreter_frames (s : State) : KeptByFrames (SameInterpreter s) := by
  refine KeptByMoves.frames ?_ fun _ h => h
  exact ⟨fun _ _ _ h => h, fun _ _ _ _ h => h, fun _ h => h, fun _ _ h => h, fun _ _ _ h => h, fun _ h => h, fun h => h⟩

theorem SameInterpreter.refl (s : State) : SameInterpreter s s := ⟨⟨rfl, rfl, rfl⟩, rfl, rfl⟩

theorem bfvDrain_sameInterpreter {s : State} (hrun : s.status.runState = .running) : SameInterpreter s (bfvDrain s) :=
  (sameInterpreter_frames s).bfvDrain hrun (.refl s)

theorem streamStep_sameInterpreter {sym : InSymbol} {s t : State} (hrun : s.status.runState = .running)
    (h : streamStep sym s = .next t) : SameInterpreter s t :=
  (sameInterpreter_frames s).streamStep (fun h => h) hrun (SameInterpreter.refl s) h

/-! ## The output queues -/

/-- The stream's two output queues have only grown. -/
def StreamOutputsGrow (s t : State) : Prop :=
  s.queues.bankOut <+: t.queues.bankOut ∧ s.queues.eventOut <+: t.queues.eventOut

theorem streamOutputsGrow_frames (s : State) : KeptByFrames (StreamOutputsGrow s) := by
  refine KeptByMoves.frames ?_ fun _ h => h
  exact {
    bra := fun _ _ _ h => h
    raise := fun _ _ _ _ h => h
    placed := fun _ h => ⟨h.1.trans (List.prefix_append _ _), h.2⟩
    opened := fun _ _ h => h
    joined := fun _ _ _ h => h
    emitted := fun _ h => ⟨h.1, h.2.trans (List.prefix_append _ _)⟩
    closed := fun h => h }

theorem StreamOutputsGrow.refl (s : State) : StreamOutputsGrow s s := ⟨List.prefix_rfl, List.prefix_rfl⟩

theorem cmdDecode_rinOut_prefix {bank : Bank} {s t : State} (hidle : s.rin.state ≠ .busy)
    (h : cmdDecode bank s = .next t) : s.queues.rinOut <+: t.queues.rinOut := by
  obtain ⟨u, hu, -, -, -, -, hreport⟩ := decodeReportsOnce bank s hidle
  obtain rfl : u = t := Host.Outcome.next.inj (hu.symm.trans h)
  rcases hreport with ⟨-, hout, -⟩ | ⟨-, hout, -⟩ <;> rw [hout] <;> exact List.prefix_append _ _

theorem rinOut_prefix_of_command {c : HostCmd} {s t : State} (hc : c ≠ .reset) (h : CommandOutcome s c t) :
    s.queues.rinOut <+: t.queues.rinOut := by
  cases h with
  | sent running _ next =>
    obtain ⟨-, -, hout⟩ := streamStep_sameInterpreter running next
    rw [hout]
  | written n v _ => rw [csrStore_eq]
  | decoded idle next => exact cmdDecode_rinOut_prefix idle next
  | reset => exact absurd rfl hc
  | read _ _ => exact List.prefix_rfl
  | ignored _ _ => exact List.prefix_rfl
  | inserted _ _ => exact List.prefix_rfl
  | erased _ => exact List.prefix_rfl

/-- Settles O60: each queue is written by appending only, and RESET is the one command that clears them. -/
theorem outputsOnlyGrow : Obligations.OutputsOnlyGrow := by
  unfold Obligations.OutputsOnlyGrow
  intro s t hreset hstep
  suffices h : StreamOutputsGrow s t ∧ s.queues.rinOut <+: t.queues.rinOut from ⟨h.1.1, h.1.2, h.2⟩
  rcases step_cases hstep with ⟨hrun, -, rfl⟩ | rfl | ⟨c, rest, htodo, hcmd⟩
  · obtain ⟨-, -, hout⟩ := bfvDrain_sameInterpreter hrun
    refine ⟨(streamOutputsGrow_frames s).bfvDrain hrun (.refl s), ?_⟩
    rw [hout]
  · exact ⟨.refl t, List.prefix_rfl⟩
  · have hc : c ≠ .reset := by
      rintro rfl
      simp [noReset, htodo] at hreset
    have houtcome := hostCommand_outcome hcmd
    refine ⟨?_, rinOut_prefix_of_command (s := withTodo rest s) hc houtcome⟩
    rcases houtcome.stream with ⟨sym, hrun, -, hnext⟩ | ⟨rfl, -⟩ | ⟨_, _, _, _, _, -, rfl⟩
    · exact (streamOutputsGrow_frames s).streamStep (s := withTodo rest s) (fun h => h) hrun (StreamOutputsGrow.refl s)
        hnext
    · exact absurd rfl hc
    · exact StreamOutputsGrow.refl s

/-! ## Start markers -/

/-- A list of banks that begins with the start marker. -/
def StartsWithMarker (s : State) (banks : List Bank) : Prop := ∃ b bs, banks = b :: bs ∧ b.bankId = s.cfg.startId

theorem StartsWithMarker.append {s : State} {banks : List Bank} (h : StartsWithMarker s banks) (more : List Bank) :
    StartsWithMarker s (banks ++ more) := by
  obtain ⟨b, bs, rfl, hid⟩ := h
  exact ⟨b, bs ++ more, rfl, hid⟩

/-- The marker invariant once the stream has started. -/
structure MarkersKept (s : State) : Prop where
  started : s.status.started = true
  open_event : keepMarkers s = true → s.evg.inEvent = true → StartsWithMarker s s.evg.buf
  emitted : keepMarkers s = true → ∀ e ∈ s.queues.eventOut, StartsWithMarker s e.banks

theorem MarkersKept.markerInv {s : State} (h : MarkersKept s) : MarkerInv s where
  not_started hns := by simp [h.started] at hns
  open_event := h.open_event
  emitted := h.emitted

theorem MarkersKept.closed {s : State} (h : MarkersKept s) : MarkersKept (withEvg { inEvent := false, buf := [] } s) :=
  ⟨h.started, nofun, h.emitted⟩

theorem markersKept_moves : KeptByMoves MarkersKept where
  bra _ _ _ h := ⟨h.started, h.open_event, h.emitted⟩
  raise _ _ _ _ h := ⟨h.started, h.open_event, h.emitted⟩
  placed _ h := ⟨h.started, h.open_event, h.emitted⟩
  opened := fun {s bank} hid _ h => by
    refine ⟨h.started, fun (hkeep : keepMarkers s = true) _ => ?_, h.emitted⟩
    show StartsWithMarker s (if keepMarkers s then [bank] else [])
    rw [if_pos hkeep]
    exact ⟨bank, [], rfl, hid⟩
  joined _ _ _ h := ⟨h.started, fun hkeep hin => (h.open_event hkeep hin).append _, h.emitted⟩
  emitted hin h := by
    refine ⟨h.started, h.open_event, fun hkeep e he => ?_⟩
    rcases List.mem_append.mp he with hold | hnew
    · exact h.emitted hkeep e hold
    · obtain rfl := List.mem_singleton.mp hnew
      exact h.open_event hkeep hin
  closed := MarkersKept.closed

theorem markersKept_frames : KeptByFrames MarkersKept :=
  markersKept_moves.frames fun _ h => ⟨h.started, h.open_event, h.emitted⟩

theorem MarkersKept.braEos {s : State} (h : MarkersKept s) : MarkersKept (braEos s) :=
  ⟨h.started, nofun, h.emitted⟩

theorem markerInv_resetBlock (s : State) : MarkerInv (resetBlock s) where
  not_started _ := ⟨rfl, rfl⟩
  open_event _ := nofun
  emitted _ := nofun

/-- Before the stream has started there is no event that the CFG registers could say anything about. -/
theorem markerInv_resettled {s : State} (h : MarkerInv s) (hns : s.status.started = false) (cfg : Cfg)
    (rtab : FinMap (List Byte)) (rin : Rin) (results : List RinResult) (host : HostPort) :
    MarkerInv (resettled cfg rtab rin results host s) := by
  obtain ⟨hin, hout⟩ := h.not_started hns
  exact {
    not_started := h.not_started
    open_event := fun _ (hopen : s.evg.inEvent = true) => by simp [hin] at hopen
    emitted := fun _ e (he : e ∈ s.queues.eventOut) => by simp [hout] at he }

/-- Settles O57: only a start marker opens an event, and the configuration is fixed once the stream has started. -/
theorem markerInvKept : Obligations.MarkerInvKept := by
  unfold Obligations.MarkerInvKept
  intro s t hstream h hstep
  rcases step_cases hstep with ⟨-, hrel, -⟩ | rfl | ⟨c, rest, -, hcmd⟩
  · exact absurd hstream.not_releasing hrel
  · exact h
  · rcases (hostCommand_outcome hcmd).stream with ⟨sym, hrun, -, hnext⟩ | ⟨-, rfl⟩ | ⟨_, _, _, _, _, hcfg, rfl⟩
    · exact (markersKept_frames.streamStep (s := withTodo rest s) MarkersKept.braEos hrun
        ⟨rfl, h.open_event, h.emitted⟩ hnext).markerInv
    · exact markerInv_resetBlock _
    · rcases hcfg with rfl | hns
      · exact ⟨h.not_started, h.open_event, h.emitted⟩
      · exact markerInv_resettled h hns ..

/-! ## The recipe interpreter -/

/-- The error registers hold 0. -/
def ErrorsClear (s : State) : Prop := s.rin.errPc = 0 ∧ s.rin.errCursor = 0 ∧ s.rin.errAux = 0

/-- The ranges of the RIN, and the forms of its records, whatever its state. -/
structure RinRanges (s : State) : Prop where
  cursor : s.rin.cursor ≤ s.rin.data.length
  values : s.rin.nvals ≤ s.params.maxResultValues
  ctx : recordWf s.rin.ctx
  out : recordWf s.rin.out

theorem recordWf_nil : recordWf [] := ⟨List.Pairwise.nil, nofun⟩

theorem recordWf_mapInsert {r : Record} (h : recordWf r) (field : Sym) (v : Value) :
    recordWf (mapInsert field.toNat v r) := by
  refine ⟨mapInsert_wf h.1, fun c hc => ?_⟩
  rcases mem_mapInsert hc with rfl | hc
  · exact field.isLt
  · exact h.2 c hc

theorem RinRanges.reads {s t : State} (h : RinRanges s) (r : RinReads s t) : RinRanges t where
  cursor := r.data ▸ r.inside h.cursor
  values := r.params ▸ r.counted h.values
  ctx := r.ctx ▸ h.ctx
  out := by
    rw [r.eq]
    exact h.out

/-- An operation that succeeds leaves the RIN in its ranges, BUSY as before, and the error registers as they were. -/
theorem RinRanges.rinOp {ty : ExtractType} {a : Extract} {s t : State} (h : RinRanges s) (hop : rinOp ty a s = .ok t) :
    RinRanges t ∧ t.rin.state = s.rin.state ∧ (ErrorsClear s → ErrorsClear t) := by
  have houtcome := rinOp_outcome ty a s
  rw [hop] at houtcome
  cases houtcome with
  | skipped reads _ =>
    obtain ⟨hcursor, hvalues, hctx, hout⟩ := h.reads reads
    refine ⟨⟨hcursor, hvalues, hctx, hout⟩, ?_⟩
    rw [reads.eq]
    exact ⟨rfl, id⟩
  | stored v reads =>
    obtain ⟨hcursor, hvalues, hctx, hout⟩ := h.reads reads
    refine ⟨⟨hcursor, hvalues, recordWf_mapInsert hctx _ v, hout⟩, ?_⟩
    rw [reads.eq]
    exact ⟨rfl, id⟩

/-- An operation that fails ends the command in the invariant. -/
theorem RinRanges.rinOp_error {ty : ExtractType} {a : Extract} {s u : State} (h : RinRanges s)
    (hop : Machine.rinOp ty a s = .error u) : RinInv u := by
  have houtcome := rinOp_outcome ty a s
  rw [hop] at houtcome
  cases houtcome with
  | failed code aux reads failed =>
    obtain ⟨hcursor, hvalues, hctx, hout⟩ := h.reads reads
    obtain ⟨hok, hnone, hmal⟩ := failed
    exact ⟨nofun, hcursor, hvalues, hctx, hout, fun hcode => absurd hcode (by simp [hok, hnone, hmal])⟩

theorem RinRanges.rinRun {is : List Instr} (his : ∀ i ∈ is, IsExtract i) {s t : State} (h : RinRanges s)
    (hclear : ErrorsClear s) (hbusy : s.rin.state = .busy) (hrun : rinRun is s = .next t) : RinInv t := by
  induction is generalizing s with
  | nil =>
    cases hrun
    exact ⟨nofun, h.cursor, h.values, h.ctx, h.ctx, fun _ => hclear⟩
  | cons i is ih =>
    obtain ⟨⟨ty, a, rfl⟩, hrest⟩ := List.forall_mem_cons.mp his
    have hexec := exec_extract ty a s
    cases hop : Machine.rinOp ty a s with
    | ok u =>
      obtain ⟨hranges, hstate, herrors⟩ := h.rinOp hop
      rw [hop] at hexec
      rw [rinRun_cons_of_busy hexec (hstate.trans hbusy)] at hrun
      exact ih hrest hranges (herrors hclear) (hstate.trans hbusy) hrun
    | error u =>
      have hend := h.rinOp_error hop
      rw [hop] at hexec
      rw [rinRun_cons_of_ended hexec hend.not_busy] at hrun
      cases hrun
      exact hend

theorem rinInv_rejected {s : State} (h : RinInv s) (bank : Bank) (code : RinCode) (id : BankId) :
    RinInv (decodeRejected bank code id s) :=
  ⟨nofun, h.cursor_range, h.values_range, h.ctx_wf, h.out_wf, fun _ => ⟨rfl, rfl, rfl⟩⟩

theorem rinRanges_recipeStarted {s : State} (h : RinInv s) (bank : Bank) : RinRanges (recipeStarted bank s) :=
  ⟨Nat.zero_le _, Nat.zero_le _, recordWf_nil, h.out_wf⟩

theorem rinInv_cmdDecode {bank : Bank} {s t : State} (h : RinInv s) (hcmd : cmdDecode bank s = .next t) : RinInv t := by
  cases hfind : mapFind bank.bankId.toNat s.rtab with
  | none =>
    rw [cmdDecode_of_no_recipe h.not_busy hfind] at hcmd
    cases hcmd
    exact rinInv_rejected h bank _ _
  | some image =>
    cases hdec : decodeImage s.params.maxExprDepth image with
    | error e =>
      rw [cmdDecode_of_malformed h.not_busy hfind hdec] at hcmd
      cases hcmd
      exact rinInv_rejected h bank _ _
    | ok recipe =>
      rw [cmdDecode_of_recipe h.not_busy hfind hdec] at hcmd
      exact (rinRanges_recipeStarted h bank).rinRun (decodeImage_extract hdec) ⟨rfl, rfl, rfl⟩ rfl hcmd

theorem rinInv_of_rin {s t : State} (h : RinInv s) (hrin : t.rin = s.rin) (hparams : t.params = s.params) :
    RinInv t where
  not_busy := hrin ▸ h.not_busy
  cursor_range := hrin ▸ h.cursor_range
  values_range := hrin ▸ hparams ▸ h.values_range
  ctx_wf := hrin ▸ h.ctx_wf
  out_wf := hrin ▸ h.out_wf
  error_registers := hrin ▸ h.error_registers

theorem rinInv_resetBlock (s : State) : RinInv (resetBlock s) where
  not_busy := nofun
  cursor_range := Nat.le_refl 0
  values_range := Nat.zero_le _
  ctx_wf := recordWf_nil
  out_wf := recordWf_nil
  error_registers _ := ⟨rfl, rfl, rfl⟩

theorem rinInv_command {c : HostCmd} {s t : State} (h : RinInv s) (hc : CommandOutcome s c t) : RinInv t := by
  cases hc with
  | sent running _ next =>
    obtain ⟨⟨hparams, -, -⟩, hrin, -⟩ := streamStep_sameInterpreter running next
    exact rinInv_of_rin h hrin hparams
  | written n v _ =>
    rw [csrStore_eq]
    exact rinInv_of_rin h rfl rfl
  | decoded _ next => exact rinInv_cmdDecode h next
  | reset => exact rinInv_resetBlock s
  | read _ _ => exact rinInv_of_rin h rfl rfl
  | ignored _ _ => exact h
  | inserted _ _ => exact rinInv_of_rin h rfl rfl
  | erased _ => exact rinInv_of_rin h rfl rfl

/-! ## The configuration and the recipe table -/

theorem tableInv_of_settings {s t : State} (h : TableInv s) (hset : sameSettings s t) : TableInv t := by
  obtain ⟨hparams, hcfg, hrtab⟩ := hset
  exact ⟨hcfg ▸ h.flags_reserved, hrtab ▸ h.rtab_wf, hrtab ▸ hparams ▸ h.rtab_fits⟩

/-- The reserved bits of CFG_FLAGS ignore writes (R26). -/
theorem csrStore_flags_reserved {s : State} (h : s.cfg.flags &&& ~~~cfgFlagsMask = 0) (n : Nat) (v : BitVec 32) :
    (csrStore n v s).cfg.flags &&& ~~~cfgFlagsMask = 0 := by
  unfold csrStore
  split_ifs
  · exact h
  · exact h
  · show v &&& cfgFlagsMask &&& ~~~cfgFlagsMask = 0
    rw [BitVec.and_assoc, BitVec.and_not_self]
    exact BitVec.and_zero
  · exact h

theorem tableInv_csrStore {s : State} (h : TableInv s) (n : Nat) (v : BitVec 32) : TableInv (csrStore n v s) := by
  have hflags := csrStore_flags_reserved h.flags_reserved n v
  rw [csrStore_eq]
  exact ⟨hflags, h.rtab_wf, h.rtab_fits⟩

theorem tableInv_mapInsert {s : State} (h : TableInv s) (id : BankId) {image : List Byte}
    (hfits : image.length ≤ s.params.maxRecipeBytes) : TableInv { s with rtab := mapInsert id.toNat image s.rtab } := by
  obtain ⟨hwf, hrange⟩ := h.rtab_wf
  refine ⟨h.flags_reserved, ⟨mapInsert_wf hwf, fun e he => ?_⟩, fun e he => ?_⟩ <;>
    rcases mem_mapInsert he with rfl | hold
  · exact id.isLt
  · exact hrange e hold
  · exact hfits
  · exact h.rtab_fits e hold

theorem tableInv_mapErase {s : State} (h : TableInv s) (id : BankId) :
    TableInv { s with rtab := mapErase id.toNat s.rtab } := by
  obtain ⟨hwf, hrange⟩ := h.rtab_wf
  exact ⟨h.flags_reserved, ⟨mapErase_wf hwf, fun e he => hrange e (mem_mapErase he)⟩,
    fun e he => h.rtab_fits e (mem_mapErase he)⟩

theorem tableInv_command {c : HostCmd} {s t : State} (h : TableInv s) (hc : CommandOutcome s c t) : TableInv t := by
  cases hc with
  | sent running _ next =>
    obtain ⟨hset, -, -⟩ := streamStep_sameInterpreter running next
    exact tableInv_of_settings h hset
  | written n v _ => exact tableInv_csrStore h n v
  | decoded _ next =>
    obtain ⟨-, hset, -⟩ := RinOnly.frame (cmdDecode_rinOnly next)
    exact tableInv_of_settings h hset
  | inserted id fits => exact tableInv_mapInsert h id fits
  | erased id => exact tableInv_mapErase h id
  | reset => exact tableInv_of_settings h ⟨rfl, rfl, rfl⟩
  | read _ _ => exact tableInv_of_settings h ⟨rfl, rfl, rfl⟩
  | ignored _ _ => exact h

/-- Settles O58: the stream leaves both alone, and each command that writes one of them keeps its form. -/
theorem interpreterInvKept : Obligations.InterpreterInvKept := by
  unfold Obligations.InterpreterInvKept
  intro s t hstep
  rcases step_cases hstep with ⟨hrun, -, rfl⟩ | rfl | ⟨c, rest, -, hcmd⟩
  · obtain ⟨hset, hrin, -⟩ := bfvDrain_sameInterpreter hrun
    exact ⟨fun h => rinInv_of_rin h hrin hset.1, fun h => tableInv_of_settings h hset⟩
  · exact ⟨id, id⟩
  · have houtcome := hostCommand_outcome hcmd
    exact ⟨fun h => rinInv_command (s := withTodo rest s) (rinInv_of_rin h rfl rfl) houtcome,
      fun h => tableInv_command (s := withTodo rest s) (tableInv_of_settings h ⟨rfl, rfl, rfl⟩) houtcome⟩

end Sys2Proof.StepInvariants
end

section
/-! PROOFS. The invariant of the stream pipeline (`10_state.md` R29 to R36, R184, R185), unit by unit: the frame
validator, the bank reassembler, the event grouper and the status. -/

namespace Sys2Proof.StreamInvariant

open Machine Claims HostCommands BlockFrame PipelineRules StepInvariants

/-! ## The event grouper and the stream's output queues -/

/-- The part of the stream invariant about EVG and the emitted Banks and Events. -/
structure EventsWf (s : State) : Prop where
  capacity : 1 ≤ s.params.maxEventBanks
  fits : s.evg.buf.length ≤ s.params.maxEventBanks
  closed_event : s.evg.inEvent = false → s.evg.buf = []
  banks_wf : ∀ b ∈ s.queues.bankOut, b.wf
  open_event : ∀ b ∈ s.evg.buf, b ∈ s.queues.bankOut
  emitted : ∀ e ∈ s.queues.eventOut, ∀ b ∈ e.banks, b ∈ s.queues.bankOut

theorem EventsWf.placed {s : State} (h : EventsWf s) (hlen : Config.bankHdrLen ≤ s.bra.buf.length) :
    EventsWf (bankPlaced s) where
  capacity := h.capacity
  fits := h.fits
  closed_event := h.closed_event
  banks_wf := List.forall_mem_append.mpr ⟨h.banks_wf, List.forall_mem_singleton.mpr ⟨hlen, rfl⟩⟩
  open_event b hb := List.mem_append_left _ (h.open_event b hb)
  emitted e he b hb := List.mem_append_left _ (h.emitted e he b hb)

theorem EventsWf.opened {s : State} {bank : Bank} (h : EventsWf s) (hbank : bank ∈ s.queues.bankOut) :
    EventsWf (withEvg { inEvent := true, buf := if keepMarkers s then [bank] else [] } s) where
  capacity := h.capacity
  fits := by
    show (if keepMarkers s then [bank] else []).length ≤ s.params.maxEventBanks
    split
    · exact h.capacity
    · exact Nat.zero_le _
  closed_event := nofun
  banks_wf := h.banks_wf
  open_event := by
    show ∀ b ∈ (if keepMarkers s then [bank] else []), b ∈ s.queues.bankOut
    split
    · exact List.forall_mem_singleton.mpr hbank
    · nofun
  emitted := h.emitted

theorem EventsWf.joined {s : State} {bank : Bank} (h : EventsWf s) (hin : s.evg.inEvent = true)
    (hroom : s.evg.buf.length ≠ s.params.maxEventBanks) (hbank : bank ∈ s.queues.bankOut) :
    EventsWf (withEvg { s.evg with buf := s.evg.buf ++ [bank] } s) where
  capacity := h.capacity
  fits := by
    show (s.evg.buf ++ [bank]).length ≤ s.params.maxEventBanks
    rw [List.length_append]
    exact Nat.lt_of_le_of_ne h.fits hroom
  closed_event (hout : s.evg.inEvent = false) := by simp [hin] at hout
  banks_wf := h.banks_wf
  open_event := List.forall_mem_append.mpr ⟨h.open_event, List.forall_mem_singleton.mpr hbank⟩
  emitted := h.emitted

theorem EventsWf.emit {s : State} (h : EventsWf s) : EventsWf (emitEvent s) where
  capacity := h.capacity
  fits := h.fits
  closed_event := h.closed_event
  banks_wf := h.banks_wf
  open_event := h.open_event
  emitted := List.forall_mem_append.mpr ⟨h.emitted, List.forall_mem_singleton.mpr h.open_event⟩

theorem EventsWf.closed {s : State} (h : EventsWf s) : EventsWf (withEvg { inEvent := false, buf := [] } s) :=
  ⟨h.capacity, Nat.zero_le _, fun _ => rfl, h.banks_wf, nofun, h.emitted⟩

theorem eventsWf_frames : KeptByFrames EventsWf := by
  refine KeptByMoves.frames ?_ fun _ h => ⟨h.1, h.2, h.3, h.4, h.5, h.6⟩
  exact {
    bra := fun _ _ _ h => ⟨h.1, h.2, h.3, h.4, h.5, h.6⟩
    raise := fun _ _ _ _ h => ⟨h.1, h.2, h.3, h.4, h.5, h.6⟩
    placed := fun hlen h => h.placed hlen
    opened := fun _ hbank h => h.opened hbank
    joined := fun hin hroom hbank h => h.joined hin hroom hbank
    emitted := fun _ h => h.emit
    closed := EventsWf.closed }

/-! ## The status -/

/-- The status of a stream that has been sent bytes only: it is running, or an error has been raised. -/
structure BytesSent (s : State) : Prop where
  configured : s.cfg.valid = 7
  started : s.status.started = true
  flags : s.status.endFieldTruncated = false ∧ s.status.endOpenBankDropped = false ∧
    s.status.endOpenEventDropped = false
  registers : (s.status.runState = .running ∧ s.status.errCode = .none ∧ s.status.errIndex = 0 ∧
      s.status.errExpected = 0 ∧ s.status.errActual = 0 ∧ s.status.errAux = 0) ∨
    (s.status.runState = .error ∧ s.status.errCode ≠ .none)

theorem bytesSent_frames : KeptByFrames BytesSent := by
  refine KeptByMoves.frames ?_ fun _ h => ⟨h.1, h.2, h.3, h.4⟩
  exact {
    bra := fun _ _ _ h => ⟨h.1, h.2, h.3, h.4⟩
    raise := fun _ _ _ hcode h => ⟨h.1, h.2, h.3, .inr ⟨rfl, hcode⟩⟩
    placed := fun _ h => ⟨h.1, h.2, h.3, h.4⟩
    opened := fun _ _ h => ⟨h.1, h.2, h.3, h.4⟩
    joined := fun _ _ _ h => ⟨h.1, h.2, h.3, h.4⟩
    emitted := fun _ h => ⟨h.1, h.2, h.3, h.4⟩
    closed := fun h => ⟨h.1, h.2, h.3, h.4⟩ }

/-! ## The bank reassembler -/

/-- The part of the stream invariant about BRA. -/
structure AssemblerWf (s : State) : Prop where
  closed_bank : s.bra.isOpen = false → s.bra.buf = []
  fits : s.bra.buf.length ≤ s.params.maxBankBytes
  field_count : s.bra.k ≤ 4 ∧ (s.bra.state ≠ .tbcSkip → s.bra.k ≤ 3)
  segment_open : s.status.runState = .running → s.bra.state = .segLen ∨ s.bra.state = .segData → s.bra.isOpen = true
  segment_rem : s.status.runState = .running → s.bra.state = .segData → s.bra.rem ≠ 0

/-- A segment belongs to a running stream, so a raise asks nothing of it. -/
theorem AssemblerWf.of_raised {s u : State} (h : AssemblerWf s) (hbra : u.bra = s.bra) (hparams : u.params = s.params)
    (hraised : u.status.runState = .error) : AssemblerWf u where
  closed_bank := hbra ▸ h.closed_bank
  fits := hbra ▸ hparams ▸ h.fits
  field_count := hbra ▸ h.field_count
  segment_open hrun := by simp [hraised] at hrun
  segment_rem hrun := by simp [hraised] at hrun

theorem AssemblerWf.raise {s : State} (h : AssemblerWf s) (c : StreamError) (x y : BitVec 16) (n : Nat) :
    AssemblerWf (raiseError c x y n s) := h.of_raised rfl rfl rfl

/-- No segment is being read. -/
def OutsideSegment (st : BraState) : Prop := st ≠ .segLen ∧ st ≠ .segData

theorem AssemblerWf.outside {s : State} (hclosed : s.bra.isOpen = false → s.bra.buf = [])
    (hfits : s.bra.buf.length ≤ s.params.maxBankBytes) (hk : s.bra.k ≤ 3) (hst : OutsideSegment s.bra.state) :
    AssemblerWf s where
  closed_bank := hclosed
  fits := hfits
  field_count := ⟨Nat.le_succ_of_le hk, fun _ => hk⟩
  segment_open _ hseg := (hseg.elim hst.1 hst.2).elim
  segment_rem _ hseg := absurd hseg hst.2

theorem AssemblerWf.goto {s : State} (h : AssemblerWf s) (hk : s.bra.k ≤ 3) {st : BraState} (hst : OutsideSegment st) :
    AssemblerWf (braGoto st s) := .outside h.closed_bank h.fits hk hst

theorem AssemblerWf.enterField {s : State} (h : AssemblerWf s) {st : BraState} (hst : OutsideSegment st) :
    AssemblerWf (braEnterField st s) := .outside h.closed_bank h.fits (Nat.zero_le _) hst

theorem AssemblerWf.counters {s : State} (h : AssemblerWf s) (c : Counters) : AssemblerWf { s with counters := c } :=
  ⟨h.1, h.2, h.3, h.4, h.5⟩

/-- START_BANK and CONTINUE open a bank for their segment (R168, R169). -/
theorem assemblerWf_segmentOpened {base : List Byte} {s : State} (hfits : base.length ≤ s.params.maxBankBytes) :
    AssemblerWf (BankSegments.segmentOpened base s) where
  closed_bank := nofun
  fits := hfits
  field_count := ⟨Nat.zero_le _, fun _ => Nat.zero_le _⟩
  segment_open _ _ := rfl
  segment_rem _ := nofun

/-- What VERB does (R162 to R174). -/
theorem AssemblerWf.verb {s : State} (h : AssemblerWf s) (hk : s.bra.k ≤ 3) (v : Byte) : AssemblerWf (braVerb v s) := by
  unfold braVerb
  split
  case h_5 => exact assemblerWf_segmentOpened (Nat.zero_le _)
  case h_6 =>
    rw [BankSegments.verbContinue_eq]
    refine assemblerWf_segmentOpened ?_
    split
    · exact h.fits
    · exact Nat.zero_le _
  case h_9 => exact .outside h.closed_bank h.fits hk ⟨nofun, nofun⟩
  case h_1 | h_7 | h_8 => exact h.enterField ⟨nofun, nofun⟩
  case h_2 | h_3 | h_4 => exact h.goto hk ⟨nofun, nofun⟩

theorem evgBank_bra (bank : Bank) (s : State) : (settle (evgBank bank s)).bra = s.bra := by
  rcases evgBank_cases bank s with ⟨-, heq⟩ | ⟨-, ⟨-, heq⟩ | ⟨-, ⟨-, -, heq⟩ | ⟨-, -, heq⟩ | ⟨-, -, -, heq⟩ |
    ⟨-, -, heq⟩⟩⟩ <;> rw [heq]
  · rw [evgStart_eq]
    split <;> rfl
  all_goals rfl

/-- A bank is emitted and closed, or EVG has raised and it stays (R173, R278). -/
theorem AssemblerWf.emitBank {s : State} (h : AssemblerWf s) (hk : s.bra.k ≤ 3) :
    AssemblerWf (settle (braEmitBank s)) := by
  have hbra := evgBank_bra (bankOf s.bra.buf) (bankPlaced s)
  have houtcome := evgBank_outcome (bankOf s.bra.buf) (bankPlaced s)
  show AssemblerWf (settle (evgBank (bankOf s.bra.buf) (bankPlaced s) >>= fun t => pure _))
  generalize evgBank (bankOf s.bra.buf) (bankPlaced s) = r at hbra houtcome ⊢
  cases houtcome with
  | error frame raised _ => exact h.of_raised hbra frame.params raised
  | @ok u frame _ =>
    have hku : u.bra.k ≤ 3 := by
      rw [show u.bra = s.bra from hbra]
      exact hk
    exact .outside (fun _ => rfl) (Nat.zero_le _) hku ⟨nofun, nofun⟩

theorem AssemblerWf.endBank {s : State} (h : AssemblerWf s) (hk : s.bra.k ≤ 3) (field : BitVec 32) :
    AssemblerWf (settle (braEndBank field s)) := by
  rcases braEndBank_cases field s with ⟨-, heq⟩ | ⟨-, -, heq⟩ | ⟨-, -, heq⟩ <;> rw [heq]
  · exact h.raise ..
  · exact h.raise ..
  · exact h.emitBank hk

/-- A segment of length 0 is complete; a longer one has bytes still to copy (R170). -/
theorem AssemblerWf.segLen {s : State} (h : AssemblerWf s) (hk : s.bra.k ≤ 3) (hseg : s.bra.state = .segLen)
    (len : BitVec 32) : AssemblerWf (braSegLen len s) := by
  unfold braSegLen
  split
  · exact h.goto hk ⟨nofun, nofun⟩
  next hlen =>
    exact ⟨h.closed_bank, h.fits, ⟨Nat.le_succ_of_le hk, fun _ => hk⟩,
      fun hrun _ => h.segment_open hrun (.inl hseg), fun _ _ => hlen⟩

theorem AssemblerWf.fieldDone {s : State} (h : AssemblerWf s) (hk : s.bra.k ≤ 3) :
    AssemblerWf (settle (braFieldDone s)) := by
  unfold braFieldDone
  split
  next => exact h.goto hk ⟨nofun, nofun⟩
  next hseg => exact h.segLen hk hseg _
  next => exact h.goto hk ⟨nofun, nofun⟩
  next => exact h.endBank hk _
  all_goals exact h

/-- A field of 4 bytes has at most 3 of them while it is collected, the 5 skipped bytes at most 4 (R163). -/
theorem AssemblerWf.field {s : State} (h : AssemblerWf s)
    (hst : fieldWidth s.bra.state = if s.bra.state = .tbcSkip then 5 else 4) (b : Byte) :
    AssemblerWf (settle (braField b s)) := by
  obtain ⟨hfour, hthree⟩ := h.field_count
  simp only [braField]
  split
  · refine AssemblerWf.fieldDone ?_ (Nat.zero_le 3)
    exact ⟨h.closed_bank, h.fits, ⟨Nat.zero_le _, fun _ => Nat.zero_le _⟩, h.segment_open, h.segment_rem⟩
  next hpart =>
    have hpart' : s.bra.k + 1 ≠ if s.bra.state = .tbcSkip then 5 else 4 := hst ▸ hpart
    refine ⟨h.closed_bank, h.fits, ?_, h.segment_open, h.segment_rem⟩
    show s.bra.k + 1 ≤ 4 ∧ (s.bra.state ≠ .tbcSkip → s.bra.k + 1 ≤ 3)
    by_cases hskip : s.bra.state = .tbcSkip
    · rw [if_pos hskip] at hpart'
      exact ⟨by omega, fun hne => absurd hskip hne⟩
    · rw [if_neg hskip] at hpart'
      have := hthree hskip
      exact ⟨by omega, fun _ => by omega⟩

theorem AssemblerWf.segByte {s : State} (h : AssemblerWf s) (hrun : s.status.runState = .running)
    (hseg : s.bra.state = .segData) (b : Byte) : AssemblerWf (settle (braSegByte b s)) := by
  have hopen := h.segment_open hrun (.inr hseg)
  have hk := h.field_count.2 (by simp [hseg])
  rcases braSegByte_cases b s with ⟨-, heq⟩ | ⟨hroom, heq⟩ <;> rw [heq]
  · exact h.raise ..
  · refine ⟨fun hclosed => ?_, ?_, ⟨Nat.le_succ_of_le hk, fun _ => hk⟩, fun _ _ => hopen, fun _ hmore hrem => ?_⟩
    · exact absurd hopen (by simp [show s.bra.isOpen = false from hclosed])
    · show (s.bra.buf ++ [b]).length ≤ s.params.maxBankBytes
      rw [List.length_append]
      exact Nat.lt_of_le_of_ne h.fits hroom
    · replace hmore : (if s.bra.rem - 1 = 0 then .scan else s.bra.state) = BraState.segData := hmore
      rw [if_pos (show s.bra.rem - 1 = 0 from hrem)] at hmore
      cases hmore

theorem AssemblerWf.byte {s : State} (h : AssemblerWf s) (hrun : s.status.runState = .running) (b : Byte) :
    AssemblerWf (settle (braByte b s)) := by
  have hk := h.field_count.2
  unfold braByte
  split
  next hst =>
    unfold braScan
    split
    · exact h.goto (hk (by simp [hst])) ⟨nofun, nofun⟩
    · exact h.counters _
  next hst => exact h.verb (hk (by simp [hst])) b
  next hst => exact h.field (by simp [hst, fieldWidth]) b
  next hst => exact h.field (by simp [hst, fieldWidth]) b
  next hst => exact h.field (by simp [hst, fieldWidth]) b
  next hst => exact h.field (by simp [hst, fieldWidth, Config.tbcSkipLen]) b
  next hst => exact h.segByte hrun hst b

theorem assemblerWf_frames : KeptByFrames AssemblerWf where
  byte b hrun h := h.byte hrun b
  raise x y n _ h := h.raise _ x y n
  bfv _ h := ⟨h.1, h.2, h.3, h.4, h.5⟩

/-! ## The frame validator -/

/-- The frame buffer holds payload bytes in canonical form, and no release is in progress. -/
structure BufferWf (r : Bfv) : Prop where
  not_releasing : r.releasing = []
  wf : Memory.wf r.buf
  range : ∀ c ∈ r.buf, c.1 < Config.payloadLen

/-- The part of the stream invariant about BFV. -/
structure FrameWf (s : State) : Prop where
  buffer : BufferWf s.bfv
  fill_range : s.bfv.fill ≤ Config.blockLen
  fill_running : s.status.runState = .running → s.bfv.fill < Config.blockLen
  fill_done : s.status.runState = .done → s.bfv.fill = 0

theorem mem_memWrite {a : Nat} {b : Byte} {m : Memory} {c : Nat × Byte} (h : c ∈ memWrite a b m) :
    c = (a, b) ∨ c ∈ m := by
  unfold memWrite at h
  split at h
  · exact .inr (mem_mapErase h)
  · exact mem_mapInsert h

/-- A frame byte goes to a payload offset of the buffer or to the trailer (R141). -/
theorem bufferWf_bfvPlace {s : State} (h : BufferWf s.bfv) (b : Byte) : BufferWf (bfvPlace b s).bfv := by
  unfold bfvPlace
  split
  next hpay =>
    refine ⟨h.not_releasing, memWrite_wf h.wf, fun c hc => ?_⟩
    rcases mem_memWrite hc with rfl | hold
    · exact hpay
    · exact h.range c hold
  · exact ⟨h.not_releasing, h.wf, h.range⟩

/-- A release ends with the frame discarded in a running stream, or keeps it in an error (R146, R151). -/
theorem bfvDrain_bfv {s : State} (hrun : s.status.runState = .running) :
    ((bfvDrain s).status.runState = .running ∧
      (bfvDrain s).bfv = { s.bfv with releasing := [], index := s.bfv.index + 1, fill := 0, trl := 0 }) ∨
    ((bfvDrain s).status.runState = .error ∧ (bfvDrain s).bfv = { s.bfv with releasing := [] }) := by
  have houtcome := braBytes_outcome s.bfv.releasing { s with bfv := { s.bfv with releasing := [] } }
  rw [bfvDrain_eq]
  generalize braBytes s.bfv.releasing { s with bfv := { s.bfv with releasing := [] } } = r at houtcome ⊢
  cases houtcome with
  | error frame raised _ => exact .inr ⟨raised, frame.bfv⟩
  | @ok u frame status =>
    refine .inl ⟨(congrArg Status.runState status).trans hrun, ?_⟩
    show { u.bfv with index := u.bfv.index + 1, fill := 0, trl := 0 } = _
    rw [frame.bfv]

/-- A complete frame is released, or kept in an error (R142 to R146). -/
theorem frameWf_bfvFrameComplete {s : State} (h : BufferWf s.bfv) (hrun : s.status.runState = .running)
    (hfill : s.bfv.fill = Config.blockLen) : FrameWf (bfvFrameComplete s) := by
  simp only [bfvFrameComplete, bfvRelease]
  split
  · exact ⟨h, Nat.le_of_eq hfill, nofun, nofun⟩
  · have hdrain := bfvDrain_bfv (s := { s with bfv := { s.bfv with releasing := bfvPayload s } }) hrun
    generalize bfvDrain { s with bfv := { s.bfv with releasing := bfvPayload s } } = t at hdrain ⊢
    have hpos : 0 < Config.blockLen := by decide
    obtain ⟨hstate, hbfv⟩ | ⟨hstate, hbfv⟩ := hdrain <;> refine ⟨?_, ?_, fun hgo => ?_, fun hdone => ?_⟩
    · exact hbfv ▸ ⟨rfl, h.wf, h.range⟩
    · exact hbfv ▸ Nat.zero_le _
    · exact hbfv ▸ hpos
    · exact hbfv ▸ rfl
    · exact hbfv ▸ ⟨rfl, h.wf, h.range⟩
    · exact hbfv ▸ Nat.le_of_eq hfill
    · simp [hstate] at hgo
    · simp [hstate] at hdone

theorem FrameWf.bfvByte {s t : State} (h : FrameWf s) (hrun : s.status.runState = .running) {b : Byte}
    (hnext : bfvByte b s = .next t) : FrameWf t := by
  have hbuffer := bufferWf_bfvPlace h.buffer b
  have hfill := bfvPlace_fill b s
  have hgo : (bfvPlace b s).status.runState = .running := (congrArg Status.runState (bfvPlace_status b s)).trans hrun
  rcases bfvByte_cases b s with ⟨-, heq⟩ | ⟨hpart, heq⟩ | ⟨hlast, heq⟩ <;> rw [heq] at hnext <;> cases hnext
  · have hroom : (bfvPlace b s).bfv.fill < Config.blockLen := by
      rw [hfill]
      exact hpart
    exact ⟨hbuffer, Nat.le_of_lt hroom, fun _ => hroom, fun hdone => absurd (hgo.symm.trans hdone) (by decide)⟩
  · exact frameWf_bfvFrameComplete hbuffer hgo (hfill.trans hlast)

/-! ## The stream invariant -/

theorem frameWf_of_streamInv {s : State} (h : StreamInv s) : FrameWf s :=
  ⟨⟨h.not_releasing, h.frame_wf, h.frame_range⟩, h.fill_range, h.fill_running, h.fill_done⟩

/-- The first byte of a running, configured stream finds its status as after RESET (R29, R30). -/
theorem bytesSent_started {s : State} (h : StreamInv s) (hrun : s.status.runState = .running) (hcfg : s.cfg.valid = 7) :
    BytesSent (started s) :=
  ⟨hcfg, rfl, h.end_flags (by simp [hrun]), .inl ⟨hrun, h.error_registers (by simp [hrun])⟩⟩

theorem streamInv_of_units {s : State} (hf : FrameWf s) (ha : AssemblerWf s) (he : EventsWf s)
    (hflags : s.status.runState ≠ .done → s.status.endFieldTruncated = false ∧ s.status.endOpenBankDropped = false
      ∧ s.status.endOpenEventDropped = false)
    (hregs : s.status.runState ≠ .error → s.status.errCode = .none ∧ s.status.errIndex = 0 ∧
      s.status.errExpected = 0 ∧ s.status.errActual = 0 ∧ s.status.errAux = 0)
    (hcode : s.status.runState = .error → s.status.errCode ≠ .none)
    (hcfg : s.status.started = true → s.cfg.valid = 7)
    (hns : s.status.started = false → s.status.runState = .running ∧ s.bfv.fill = 0) : StreamInv s where
  fill_range := hf.fill_range
  fill_running := hf.fill_running
  fill_done := hf.fill_done
  not_releasing := hf.buffer.not_releasing
  frame_wf := hf.buffer.wf
  frame_range := hf.buffer.range
  closed_bank := ha.closed_bank
  bank_fits := ha.fits
  field_count := ha.field_count
  segment_open := ha.segment_open
  segment_rem := ha.segment_rem
  event_capacity := he.capacity
  event_fits := he.fits
  closed_event := he.closed_event
  banks_wf := he.banks_wf
  open_event_banks := he.open_event
  event_banks := he.emitted
  end_flags := hflags
  error_registers := hregs
  error_code := hcode
  started_configured := hcfg
  not_started := hns

theorem BytesSent.streamInv {s : State} (h : BytesSent s) (hf : FrameWf s) (ha : AssemblerWf s) (he : EventsWf s) :
    StreamInv s := by
  refine streamInv_of_units hf ha he (fun _ => h.flags) (fun hne => ?_) (fun herr => ?_) (fun _ => h.configured)
    fun hns => by simp [h.started] at hns
  · rcases h.registers with ⟨-, hregs⟩ | ⟨herr, -⟩
    · exact hregs
    · exact absurd herr hne
  · rcases h.registers with ⟨hrun, -⟩ | ⟨-, hcode⟩
    · simp [hrun] at herr
    · exact hcode

theorem streamInv_resetBlock {s : State} (h : 1 ≤ s.params.maxEventBanks) : StreamInv (resetBlock s) :=
  streamInv_of_units ⟨⟨rfl, reset_memory_wf, nofun⟩, Nat.zero_le _, fun _ => Nat.succ_pos _, nofun⟩
    (.outside (fun _ => rfl) (Nat.zero_le _) (Nat.zero_le _) ⟨nofun, nofun⟩)
    ⟨h, Nat.zero_le _, fun _ => rfl, nofun, nofun, nofun⟩ (fun _ => ⟨rfl, rfl, rfl⟩)
    (fun _ => ⟨rfl, rfl, rfl, rfl, rfl⟩) nofun nofun fun _ => ⟨rfl, rfl⟩

/-- The clean end of a running stream drops what is open (R183). -/
theorem streamInv_braEos {s : State} (h : StreamInv s) (hrun : s.status.runState = .running) (hcfg : s.cfg.valid = 7)
    (hfill : s.bfv.fill = 0) : StreamInv (braEos (started s)) :=
  streamInv_of_units ⟨(frameWf_of_streamInv h).buffer, h.fill_range, nofun, fun _ => hfill⟩
    ⟨fun _ => rfl, Nat.zero_le _, h.field_count, nofun, nofun⟩
    ⟨h.event_capacity, Nat.zero_le _, fun _ => rfl, h.banks_wf, nofun, h.event_banks⟩ (fun hne => absurd rfl hne)
    (fun _ => h.error_registers (by simp [hrun])) nofun (fun _ => hcfg) nofun

theorem streamInv_streamStep {sym : InSymbol} {s t : State} (h : StreamInv s) (hrun : s.status.runState = .running)
    (hcfg : s.cfg.valid = 7) (hnext : streamStep sym s = .next t) : StreamInv t := by
  have hf : FrameWf (started s) := ⟨(frameWf_of_streamInv h).1, h.fill_range, h.fill_running, h.fill_done⟩
  have ha : AssemblerWf (started s) := ⟨h.closed_bank, h.bank_fits, h.field_count, h.segment_open, h.segment_rem⟩
  have he : EventsWf (started s) :=
    ⟨h.event_capacity, h.event_fits, h.closed_event, h.banks_wf, h.open_event_banks, h.event_banks⟩
  have hb := bytesSent_started h hrun hcfg
  cases sym with
  | byte b =>
    exact (bytesSent_frames.bfvByte (s := started s) hrun hb hnext).streamInv (hf.bfvByte hrun hnext)
      (assemblerWf_frames.bfvByte (s := started s) hrun ha hnext)
      (eventsWf_frames.bfvByte (s := started s) hrun he hnext)
  | eos =>
    obtain rfl : bfvEos (started s) = t := Host.Outcome.next.inj hnext
    unfold bfvEos
    split
    next hfill => exact streamInv_braEos h hrun hcfg hfill
    next =>
      exact (bytesSent_frames.raise _ _ _ (by decide) hb).streamInv ⟨hf.buffer, hf.fill_range, nofun, nofun⟩
        (ha.raise ..) (eventsWf_frames.raise _ _ _ (by decide) he)

/-- The stream invariant asks of the settings only that a started stream is configured. -/
theorem streamInv_resettled {s : State} (h : StreamInv s) {cfg : Cfg} (hcfg : cfg = s.cfg ∨ s.status.started = false)
    (rtab : FinMap (List Byte)) (rin : Rin) (results : List RinResult) (host : HostPort) :
    StreamInv (resettled cfg rtab rin results host s) := by
  refine streamInv_of_units ⟨(frameWf_of_streamInv h).1, h.fill_range, h.fill_running, h.fill_done⟩
    ⟨h.closed_bank, h.bank_fits, h.field_count, h.segment_open, h.segment_rem⟩
    ⟨h.event_capacity, h.event_fits, h.closed_event, h.banks_wf, h.open_event_banks, h.event_banks⟩ h.end_flags
    h.error_registers h.error_code (fun hstart => ?_) h.not_started
  rcases hcfg with rfl | hns
  · exact h.started_configured hstart
  · exact absurd (hns.symm.trans hstart) (by decide)

theorem streamInv_withTodo {s : State} (h : StreamInv s) (todo : List HostCmd) : StreamInv (withTodo todo s) :=
  streamInv_resettled h (.inl rfl) s.rtab s.rin s.queues.rinOut _

theorem streamInv_command {c : HostCmd} {s t : State} (h : StreamInv s) (hc : CommandOutcome s c t) : StreamInv t := by
  rcases hc.stream with ⟨sym, hrun, hcfg, hnext⟩ | ⟨-, rfl⟩ | ⟨_, _, _, _, _, hcfg, rfl⟩
  · exact streamInv_streamStep h hrun hcfg hnext
  · exact streamInv_resetBlock h.event_capacity
  · exact streamInv_resettled h hcfg ..

/-! ## No fault -/

/-- A frame byte of a running stream has an offset in the frame (R31, R60). -/
theorem streamStep_not_fault {s : State} (h : StreamInv s) (hrun : s.status.runState = .running) (sym : InSymbol)
    (f : Fault) : streamStep sym s ≠ .fault f := by
  cases sym with
  | eos => nofun
  | byte b =>
    have hroom : s.bfv.fill < 32000 := h.fill_running hrun
    intro hfault
    rcases bfvByte_cases b (started s) with ⟨hfull, -⟩ | ⟨-, heq⟩ | ⟨-, heq⟩
    · exact absurd hfull (Nat.not_le.mpr hroom)
    · exact nomatch heq.symm.trans hfault
    · exact nomatch heq.symm.trans hfault

theorem cmdSend_not_fault {s : State} (h : StreamInv s) (sym : InSymbol) (f : Fault) : cmdSend sym s ≠ .fault f := by
  unfold cmdSend
  split
  · nofun
  · nofun
  next hrun =>
    split_ifs
    · nofun
    · nofun
    · exact streamStep_not_fault h hrun sym f

theorem hostCommand_not_fault {s : State} (h : StreamInv s) (c : HostCmd) (f : Fault) : hostCommand c s ≠ .fault f := by
  cases c with
  | send sym => exact cmdSend_not_fault h sym f
  | csrRead n => nofun
  | csrWrite n v =>
    simp only [hostCommand, cmdCsrWrite]
    split <;> nofun
  | rtabWrite id image =>
    simp only [hostCommand, cmdRtabWrite]
    split_ifs <;> nofun
  | rtabClear id =>
    simp only [hostCommand, cmdRtabClear]
    split <;> nofun
  | decode bank =>
    by_cases hbusy : s.rin.state = .busy
    · simp only [hostCommand, cmdDecode, if_pos hbusy]
      nofun
    · obtain ⟨t, hnext, -⟩ := DecodeCommand.decodeReportsOnce bank s hbusy
      rw [hnext]
      nofun
  | reset => nofun

theorem stepsSafely_of_streamInv {s : State} (h : StreamInv s) : stepsSafely s := by
  intro f hfault
  cases htodo : s.host.todo with
  | nil => exact nomatch (StepRuns.step_of_idle h.not_releasing htodo).symm.trans hfault
  | cons c rest =>
    rw [StepRuns.step_of_todo h.not_releasing htodo] at hfault
    exact hostCommand_not_fault (streamInv_withTodo h rest) c f hfault

/-- Settles O55: the invariant holds unit by unit after every frame byte, and a running stream has room for one. -/
theorem streamInvKept : Obligations.StreamInvKept := by
  unfold Obligations.StreamInvKept
  refine fun s h => ⟨stepsSafely_of_streamInv h, fun t hstep => ?_⟩
  rcases step_cases hstep with ⟨-, hrel, -⟩ | rfl | ⟨c, rest, -, hcmd⟩
  · exact absurd h.not_releasing hrel
  · exact h
  · exact streamInv_command (streamInv_withTodo h rest) (hostCommand_outcome hcmd)

/-- Settles O54: the state after power-on is the state RESET leads to from it. -/
theorem powerOnMeetsInvariants : Obligations.PowerOnMeetsInvariants := by
  unfold Obligations.PowerOnMeetsInvariants
  exact ⟨streamInv_resetBlock (s := State.reset) (by decide), counterInv_resetBlock State.reset,
    markerInv_resetBlock State.reset, rinInv_resetBlock State.reset,
    ⟨by decide, ⟨List.Pairwise.nil, nofun⟩, nofun⟩⟩

end Sys2Proof.StreamInvariant
end
